-- ==== Sys2Proof/Word.lean ====
section
/-! DEFINITION. The two widths of the machine: bytes and 16-bit addresses (00_scope.md R5). -/

namespace Sys2Proof

/-- A `u8` of the spec (R8): registers, memory bytes, operand bytes. -/
abbrev Byte := BitVec 8

/-- A `u16` of the spec (R8): the program counter and every bus address. -/
abbrev Addr := BitVec 16

end Sys2Proof
end

