-- ==== Sys2Proof/Config.lean ====
section
/-! DEFINITION. The record of implementation parameters (00_scope.md R6). The values this machine runs with are
`Sys2Proof.Machine.params` in Machine/Parameters.lean. The model has no free value: the spec calls no result,
flag or register undefined (93_implementation_defined.md, part 1). -/

namespace Sys2Proof

/-- The twelve parameters R6 names and leaves to a configuration, one field each. -/
structure Params where
  /-- `RESET_VECTOR`: address of the low byte of the reset vector. -/
  resetVector : Addr
  /-- `IRQ_VECTOR`: address of the low byte of the IRQ and BRK vector. -/
  irqVector : Addr
  /-- `NMI_VECTOR`: address of the low byte of the NMI vector. -/
  nmiVector : Addr
  /-- `STACK_BASE`: base address of the stack page. -/
  stackBase : Addr
  /-- `SP_RESET`: stack pointer after reset. -/
  spReset : Byte
  /-- `RESET_CYCLES`: countdown loaded by reset. -/
  resetCycles : Nat
  /-- `IRQ_CYCLES`: countdown loaded by IRQ entry. -/
  irqCycles : Nat
  /-- `NMI_CYCLES`: countdown loaded by NMI entry. -/
  nmiCycles : Nat
  /-- `BASE_CYCLES(op)`: base count of a documented byte (70_reset_and_hazards.md R244). -/
  baseCycles : Byte → Nat
  /-- `ILLEGAL_BASE_CYCLES(op)`: base count of an illegal byte. -/
  illegalBaseCycles : Byte → Nat
  /-- `NOP_EXTRA_SET`: the opcode values for which the NOP handler returns signal 1 (48_system.md R182). -/
  nopExtraSet : List Byte
  /-- `REQUEST_ONLY_AT_BOUNDARY`: whether the host may request an interrupt only when `cycles = 0`
  (60_exceptions.md R209). -/
  requestOnlyAtBoundary : Bool

end Sys2Proof
end

