-- ==== Sys2Proof/Machine/Bits.lean ====
section
/-! DEFINITION. Byte order and extension: the helpers of the notation (00_scope.md R8). -/

namespace Sys2Proof

/-- `hi8(w) = w[15:8]` (R8). -/
def hi8 (w : Addr) : Byte := w.extractLsb' 8 8

/-- `lo8(w) = w[7:0]` (R8). -/
def lo8 (w : Addr) : Byte := w.extractLsb' 0 8

/-- `{h, l} = h * 256 + l` (R8). -/
def joinBytes (h l : Byte) : Addr := h ++ l

/-- `zext_16(b)` (R8). -/
def zext16 (b : Byte) : Addr := b.setWidth 16

/-- `sext_16(b)`: two's-complement sign extension (R8). -/
def sext16 (b : Byte) : Addr := b.signExtend 16

end Sys2Proof
end

