-- ==== Sys2Proof/Syntax.lean ====
section
/-! DEFINITION. The instruction set as syntax: the twelve addressing modes with the operand bytes each carries
(30_encoding.md R62), the 57 handlers as mnemonics (R66 to R68), and `Instr`, one constructor per handler. A row of
the opcode table is a constructor together with a mode of its operand. -/

namespace Sys2Proof

/-- The twelve addressing modes, under the short names of R62. -/
inductive Mode where
  | imp | imm | zp0 | zpx | zpy | rel | abs | abx | aby | ind | izx | izy
  deriving DecidableEq, Repr

/-- An addressing mode together with its operand bytes, assembled as R62 says; a two-byte operand is the 16-bit
word `{hi, lo}`. -/
inductive Operand where
  /-- Implied (R81): no operand byte. -/
  | imp
  /-- Immediate (R82): the operand value. -/
  | imm (value : Byte)
  /-- Zero-Page (R83). -/
  | zp0 (base : Byte)
  /-- Zero-Page,X (R84). -/
  | zpx (base : Byte)
  /-- Zero-Page,Y (R85). -/
  | zpy (base : Byte)
  /-- Relative (R86): the signed displacement as its byte. -/
  | rel (disp : Byte)
  /-- Absolute (R87). -/
  | abs (addr : Addr)
  /-- Absolute,X (R88). -/
  | abx (base : Addr)
  /-- Absolute,Y (R89). -/
  | aby (base : Addr)
  /-- Indirect (R90). -/
  | ind (ptr : Addr)
  /-- Indirect,X (R91). -/
  | izx (base : Byte)
  /-- Indirect,Y (R92). -/
  | izy (base : Byte)
  deriving DecidableEq, Repr

/-- The mode an operand belongs to. -/
def Operand.mode : Operand → Mode
  | .imp => .imp
  | .imm _ => .imm
  | .zp0 _ => .zp0
  | .zpx _ => .zpx
  | .zpy _ => .zpy
  | .rel _ => .rel
  | .abs _ => .abs
  | .abx _ => .abx
  | .aby _ => .aby
  | .ind _ => .ind
  | .izx _ => .izx
  | .izy _ => .izy

/-- How many operand bytes follow the opcode in a mode (R60, R98). -/
def Mode.operandBytes : Mode → Nat
  | .imp => 0
  | .imm | .zp0 | .zpx | .zpy | .rel | .izx | .izy => 1
  | .abs | .abx | .aby | .ind => 2

/-- The mnemonic identities of the descriptors: the 56 documented ones and `ill` (R67, R68). -/
inductive Mnemonic where
  | lda | ldx | ldy | sta | stx | sty | adc | sbc | and | ora | eor | bit
  | asl | lsr | rol | ror | inc | dec | inx | iny | dex | dey | cmp | cpx
  | cpy | bcc | bcs | beq | bne | bmi | bpl | bvc | bvs | jmp | jsr | rts
  | pha | php | pla | plp | clc | sec | cld | sed | cli | sei | clv | tax
  | txa | tay | tya | tsx | txs | brk | rti | nop | ill
  deriving DecidableEq, Repr

/-- One instruction: a handler with its operand. -/
inductive Instr where
  /-- LDA, load accumulator (R100). -/
  | lda (o : Operand)
  /-- LDX, load index X (R101). -/
  | ldx (o : Operand)
  /-- LDY, load index Y (R102). -/
  | ldy (o : Operand)
  /-- STA, store accumulator (R103). -/
  | sta (o : Operand)
  /-- STX, store index X (R104). -/
  | stx (o : Operand)
  /-- STY, store index Y (R105). -/
  | sty (o : Operand)
  /-- ADC, add with carry (R110). -/
  | adc (o : Operand)
  /-- SBC, subtract with borrow (R111). -/
  | sbc (o : Operand)
  /-- AND, bitwise and (R112). -/
  | and (o : Operand)
  /-- ORA, bitwise or (R113). -/
  | ora (o : Operand)
  /-- EOR, bitwise exclusive or (R114). -/
  | eor (o : Operand)
  /-- BIT, test bits (R115). -/
  | bit (o : Operand)
  /-- ASL, arithmetic shift left (R120). -/
  | asl (o : Operand)
  /-- LSR, logical shift right (R121). -/
  | lsr (o : Operand)
  /-- ROL, rotate left through carry (R122). -/
  | rol (o : Operand)
  /-- ROR, rotate right through carry (R123). -/
  | ror (o : Operand)
  /-- INC, increment memory (R130). -/
  | inc (o : Operand)
  /-- DEC, decrement memory (R131). -/
  | dec (o : Operand)
  /-- INX, increment X (R132). -/
  | inx
  /-- INY, increment Y (R133). -/
  | iny
  /-- DEX, decrement X (R134). -/
  | dex
  /-- DEY, decrement Y (R135). -/
  | dey
  /-- CMP, compare with A (R136). -/
  | cmp (o : Operand)
  /-- CPX, compare with X (R137). -/
  | cpx (o : Operand)
  /-- CPY, compare with Y (R138). -/
  | cpy (o : Operand)
  /-- BCC, branch if carry clear (R141). -/
  | bcc (disp : Byte)
  /-- BCS, branch if carry set (R142). -/
  | bcs (disp : Byte)
  /-- BEQ, branch if zero set (R143). -/
  | beq (disp : Byte)
  /-- BNE, branch if zero clear (R144). -/
  | bne (disp : Byte)
  /-- BMI, branch if negative set (R145). -/
  | bmi (disp : Byte)
  /-- BPL, branch if negative clear (R146). -/
  | bpl (disp : Byte)
  /-- BVC, branch if overflow clear (R147). -/
  | bvc (disp : Byte)
  /-- BVS, branch if overflow set (R148). -/
  | bvs (disp : Byte)
  /-- JMP, jump (R150). -/
  | jmp (o : Operand)
  /-- JSR, jump to subroutine (R151). -/
  | jsr (target : Addr)
  /-- RTS, return from subroutine (R152). -/
  | rts
  /-- PHA, push accumulator (R160). -/
  | pha
  /-- PHP, push processor status (R161). -/
  | php
  /-- PLA, pull accumulator (R162). -/
  | pla
  /-- PLP, pull processor status (R163). -/
  | plp
  /-- CLC, clear carry (R164). -/
  | clc
  /-- SEC, set carry (R165). -/
  | sec
  /-- CLD, clear decimal (R166). -/
  | cld
  /-- SED, set decimal (R167). -/
  | sed
  /-- CLI, clear interrupt disable (R168). -/
  | cli
  /-- SEI, set interrupt disable (R169). -/
  | sei
  /-- CLV, clear overflow (R170). -/
  | clv
  /-- TAX, transfer A to X (R171). -/
  | tax
  /-- TXA, transfer X to A (R172). -/
  | txa
  /-- TAY, transfer A to Y (R173). -/
  | tay
  /-- TYA, transfer Y to A (R174). -/
  | tya
  /-- TSX, transfer SP to X (R175). -/
  | tsx
  /-- TXS, transfer X to SP (R176). -/
  | txs
  /-- BRK, software interrupt (R180). -/
  | brk
  /-- RTI, return from interrupt (R181). -/
  | rti
  /-- NOP, no operation (R182). -/
  | nop
  /-- ILL, illegal-opcode handler (R183); `op` is the undocumented byte itself (R68). -/
  | ill (op : Byte)
  deriving DecidableEq, Repr

/-- The mnemonic of an instruction. -/
def Instr.mnemonic : Instr → Mnemonic
  | .lda _ => .lda
  | .ldx _ => .ldx
  | .ldy _ => .ldy
  | .sta _ => .sta
  | .stx _ => .stx
  | .sty _ => .sty
  | .adc _ => .adc
  | .sbc _ => .sbc
  | .and _ => .and
  | .ora _ => .ora
  | .eor _ => .eor
  | .bit _ => .bit
  | .asl _ => .asl
  | .lsr _ => .lsr
  | .rol _ => .rol
  | .ror _ => .ror
  | .inc _ => .inc
  | .dec _ => .dec
  | .inx => .inx
  | .iny => .iny
  | .dex => .dex
  | .dey => .dey
  | .cmp _ => .cmp
  | .cpx _ => .cpx
  | .cpy _ => .cpy
  | .bcc _ => .bcc
  | .bcs _ => .bcs
  | .beq _ => .beq
  | .bne _ => .bne
  | .bmi _ => .bmi
  | .bpl _ => .bpl
  | .bvc _ => .bvc
  | .bvs _ => .bvs
  | .jmp _ => .jmp
  | .jsr _ => .jsr
  | .rts => .rts
  | .pha => .pha
  | .php => .php
  | .pla => .pla
  | .plp => .plp
  | .clc => .clc
  | .sec => .sec
  | .cld => .cld
  | .sed => .sed
  | .cli => .cli
  | .sei => .sei
  | .clv => .clv
  | .tax => .tax
  | .txa => .txa
  | .tay => .tay
  | .tya => .tya
  | .tsx => .tsx
  | .txs => .txs
  | .brk => .brk
  | .rti => .rti
  | .nop => .nop
  | .ill _ => .ill

/-- The operand the resolver of the instruction works on: Relative for the branches, Absolute for JSR, Implied for
every one-byte instruction (R66). -/
def Instr.operand : Instr → Operand
  | .lda o => o
  | .ldx o => o
  | .ldy o => o
  | .sta o => o
  | .stx o => o
  | .sty o => o
  | .adc o => o
  | .sbc o => o
  | .and o => o
  | .ora o => o
  | .eor o => o
  | .bit o => o
  | .asl o => o
  | .lsr o => o
  | .rol o => o
  | .ror o => o
  | .inc o => o
  | .dec o => o
  | .inx => .imp
  | .iny => .imp
  | .dex => .imp
  | .dey => .imp
  | .cmp o => o
  | .cpx o => o
  | .cpy o => o
  | .bcc d => .rel d
  | .bcs d => .rel d
  | .beq d => .rel d
  | .bne d => .rel d
  | .bmi d => .rel d
  | .bpl d => .rel d
  | .bvc d => .rel d
  | .bvs d => .rel d
  | .jmp o => o
  | .jsr t => .abs t
  | .rts => .imp
  | .pha => .imp
  | .php => .imp
  | .pla => .imp
  | .plp => .imp
  | .clc => .imp
  | .sec => .imp
  | .cld => .imp
  | .sed => .imp
  | .cli => .imp
  | .sei => .imp
  | .clv => .imp
  | .tax => .imp
  | .txa => .imp
  | .tay => .imp
  | .tya => .imp
  | .tsx => .imp
  | .txs => .imp
  | .brk => .imp
  | .rti => .imp
  | .nop => .imp
  | .ill _ => .imp

/-- The length of an instruction in bytes: the opcode and the operand bytes of its mode (R60). -/
def Instr.length (i : Instr) : Nat := 1 + i.operand.mode.operandBytes

end Sys2Proof
end

