-- ==== Sys2Proof/Decode.lean ====
section
/-! DEFINITION. The opcode table (30_encoding.md R33, R65, R66, R68), decoding, and the encoder. The decoder reads
the matrix of R66; the encoder is written from the list by mnemonic of R67, so that their agreement says something.
Decoding never rejects an opcode byte (R65); a byte list that ends inside an instruction is rejected by name. -/

namespace Sys2Proof

/-- A descriptor of the opcode table (R33): its mnemonic and mode. Its base cycle count is `baseCycles` of
Machine/Parameters.lean, and its handler is the mnemonic's arm of `exec`. -/
structure Descriptor where
  mnemonic : Mnemonic
  mode : Mode
  deriving DecidableEq, Repr

/-- The descriptor of an illegal byte: mnemonic ILL, mode Implied (R68). -/
def illDescriptor : Descriptor := ⟨.ill, .imp⟩

/-- The opcode matrix of R66, one line of the source list per row (high nibble), each cell in column order. -/
def opcodeMatrix : List Descriptor :=
  [⟨.brk, .imp⟩, ⟨.ora, .izx⟩, illDescriptor, illDescriptor, illDescriptor, ⟨.ora, .zp0⟩, ⟨.asl, .zp0⟩, illDescriptor,
   ⟨.php, .imp⟩, ⟨.ora, .imm⟩, ⟨.asl, .imp⟩, illDescriptor, illDescriptor, ⟨.ora, .abs⟩, ⟨.asl, .abs⟩, illDescriptor] ++
  [⟨.bpl, .rel⟩, ⟨.ora, .izy⟩, illDescriptor, illDescriptor, illDescriptor, ⟨.ora, .zpx⟩, ⟨.asl, .zpx⟩, illDescriptor,
   ⟨.clc, .imp⟩, ⟨.ora, .aby⟩, illDescriptor, illDescriptor, illDescriptor, ⟨.ora, .abx⟩, ⟨.asl, .abx⟩, illDescriptor] ++
  [⟨.jsr, .abs⟩, ⟨.and, .izx⟩, illDescriptor, illDescriptor, ⟨.bit, .zp0⟩, ⟨.and, .zp0⟩, ⟨.rol, .zp0⟩, illDescriptor,
   ⟨.plp, .imp⟩, ⟨.and, .imm⟩, ⟨.rol, .imp⟩, illDescriptor, ⟨.bit, .abs⟩, ⟨.and, .abs⟩, ⟨.rol, .abs⟩, illDescriptor] ++
  [⟨.bmi, .rel⟩, ⟨.and, .izy⟩, illDescriptor, illDescriptor, illDescriptor, ⟨.and, .zpx⟩, ⟨.rol, .zpx⟩, illDescriptor,
   ⟨.sec, .imp⟩, ⟨.and, .aby⟩, illDescriptor, illDescriptor, illDescriptor, ⟨.and, .abx⟩, ⟨.rol, .abx⟩, illDescriptor] ++
  [⟨.rti, .imp⟩, ⟨.eor, .izx⟩, illDescriptor, illDescriptor, illDescriptor, ⟨.eor, .zp0⟩, ⟨.lsr, .zp0⟩, illDescriptor,
   ⟨.pha, .imp⟩, ⟨.eor, .imm⟩, ⟨.lsr, .imp⟩, illDescriptor, ⟨.jmp, .abs⟩, ⟨.eor, .abs⟩, ⟨.lsr, .abs⟩, illDescriptor] ++
  [⟨.bvc, .rel⟩, ⟨.eor, .izy⟩, illDescriptor, illDescriptor, illDescriptor, ⟨.eor, .zpx⟩, ⟨.lsr, .zpx⟩, illDescriptor,
   ⟨.cli, .imp⟩, ⟨.eor, .aby⟩, illDescriptor, illDescriptor, illDescriptor, ⟨.eor, .abx⟩, ⟨.lsr, .abx⟩, illDescriptor] ++
  [⟨.rts, .imp⟩, ⟨.adc, .izx⟩, illDescriptor, illDescriptor, illDescriptor, ⟨.adc, .zp0⟩, ⟨.ror, .zp0⟩, illDescriptor,
   ⟨.pla, .imp⟩, ⟨.adc, .imm⟩, ⟨.ror, .imp⟩, illDescriptor, ⟨.jmp, .ind⟩, ⟨.adc, .abs⟩, ⟨.ror, .abs⟩, illDescriptor] ++
  [⟨.bvs, .rel⟩, ⟨.adc, .izy⟩, illDescriptor, illDescriptor, illDescriptor, ⟨.adc, .zpx⟩, ⟨.ror, .zpx⟩, illDescriptor,
   ⟨.sei, .imp⟩, ⟨.adc, .aby⟩, illDescriptor, illDescriptor, illDescriptor, ⟨.adc, .abx⟩, ⟨.ror, .abx⟩, illDescriptor] ++
  [illDescriptor, ⟨.sta, .izx⟩, illDescriptor, illDescriptor, ⟨.sty, .zp0⟩, ⟨.sta, .zp0⟩, ⟨.stx, .zp0⟩, illDescriptor,
   ⟨.dey, .imp⟩, illDescriptor, ⟨.txa, .imp⟩, illDescriptor, ⟨.sty, .abs⟩, ⟨.sta, .abs⟩, ⟨.stx, .abs⟩, illDescriptor] ++
  [⟨.bcc, .rel⟩, ⟨.sta, .izy⟩, illDescriptor, illDescriptor, ⟨.sty, .zpx⟩, ⟨.sta, .zpx⟩, ⟨.stx, .zpy⟩, illDescriptor,
   ⟨.tya, .imp⟩, ⟨.sta, .aby⟩, ⟨.txs, .imp⟩, illDescriptor, illDescriptor, ⟨.sta, .abx⟩, illDescriptor, illDescriptor] ++
  [⟨.ldy, .imm⟩, ⟨.lda, .izx⟩, ⟨.ldx, .imm⟩, illDescriptor, ⟨.ldy, .zp0⟩, ⟨.lda, .zp0⟩, ⟨.ldx, .zp0⟩, illDescriptor,
   ⟨.tay, .imp⟩, ⟨.lda, .imm⟩, ⟨.tax, .imp⟩, illDescriptor, ⟨.ldy, .abs⟩, ⟨.lda, .abs⟩, ⟨.ldx, .abs⟩, illDescriptor] ++
  [⟨.bcs, .rel⟩, ⟨.lda, .izy⟩, illDescriptor, illDescriptor, ⟨.ldy, .zpx⟩, ⟨.lda, .zpx⟩, ⟨.ldx, .zpy⟩, illDescriptor,
   ⟨.clv, .imp⟩, ⟨.lda, .aby⟩, ⟨.tsx, .imp⟩, illDescriptor, ⟨.ldy, .abx⟩, ⟨.lda, .abx⟩, ⟨.ldx, .aby⟩, illDescriptor] ++
  [⟨.cpy, .imm⟩, ⟨.cmp, .izx⟩, illDescriptor, illDescriptor, ⟨.cpy, .zp0⟩, ⟨.cmp, .zp0⟩, ⟨.dec, .zp0⟩, illDescriptor,
   ⟨.iny, .imp⟩, ⟨.cmp, .imm⟩, ⟨.dex, .imp⟩, illDescriptor, ⟨.cpy, .abs⟩, ⟨.cmp, .abs⟩, ⟨.dec, .abs⟩, illDescriptor] ++
  [⟨.bne, .rel⟩, ⟨.cmp, .izy⟩, illDescriptor, illDescriptor, illDescriptor, ⟨.cmp, .zpx⟩, ⟨.dec, .zpx⟩, illDescriptor,
   ⟨.cld, .imp⟩, ⟨.cmp, .aby⟩, illDescriptor, illDescriptor, illDescriptor, ⟨.cmp, .abx⟩, ⟨.dec, .abx⟩, illDescriptor] ++
  [⟨.cpx, .imm⟩, ⟨.sbc, .izx⟩, illDescriptor, illDescriptor, ⟨.cpx, .zp0⟩, ⟨.sbc, .zp0⟩, ⟨.inc, .zp0⟩, illDescriptor,
   ⟨.inx, .imp⟩, ⟨.sbc, .imm⟩, ⟨.nop, .imp⟩, illDescriptor, ⟨.cpx, .abs⟩, ⟨.sbc, .abs⟩, ⟨.inc, .abs⟩, illDescriptor] ++
  [⟨.beq, .rel⟩, ⟨.sbc, .izy⟩, illDescriptor, illDescriptor, illDescriptor, ⟨.sbc, .zpx⟩, ⟨.inc, .zpx⟩, illDescriptor,
   ⟨.sed, .imp⟩, ⟨.sbc, .aby⟩, illDescriptor, illDescriptor, illDescriptor, ⟨.sbc, .abx⟩, ⟨.inc, .abx⟩, illDescriptor]

/-- The table lookup of `tick` (R70): the descriptor an opcode byte selects. -/
def descriptor (op : Byte) : Descriptor := opcodeMatrix.getD op.toNat illDescriptor

/-- The operand of a mode from the bytes after the opcode, low byte first (R62). -/
def assemble (m : Mode) (b1 b2 : Byte) : Operand :=
  match m with
  | .imp => .imp
  | .imm => .imm b1
  | .zp0 => .zp0 b1
  | .zpx => .zpx b1
  | .zpy => .zpy b1
  | .rel => .rel b1
  | .abs => .abs (joinBytes b2 b1)
  | .abx => .abx (joinBytes b2 b1)
  | .aby => .aby (joinBytes b2 b1)
  | .ind => .ind (joinBytes b2 b1)
  | .izx => .izx b1
  | .izy => .izy b1

/-- The displacement byte of a Relative operand. -/
def dispOf : Operand → Byte
  | .rel d => d
  | _ => 0

/-- The word of an Absolute operand. -/
def targetOf : Operand → Addr
  | .abs t => t
  | _ => 0

/-- The instruction of a descriptor's mnemonic with its assembled operand; `op` is the opcode byte itself. -/
def buildInstr (m : Mnemonic) (o : Operand) (op : Byte) : Instr :=
  match m with
  | .lda => .lda o
  | .ldx => .ldx o
  | .ldy => .ldy o
  | .sta => .sta o
  | .stx => .stx o
  | .sty => .sty o
  | .adc => .adc o
  | .sbc => .sbc o
  | .and => .and o
  | .ora => .ora o
  | .eor => .eor o
  | .bit => .bit o
  | .asl => .asl o
  | .lsr => .lsr o
  | .rol => .rol o
  | .ror => .ror o
  | .inc => .inc o
  | .dec => .dec o
  | .inx => .inx
  | .iny => .iny
  | .dex => .dex
  | .dey => .dey
  | .cmp => .cmp o
  | .cpx => .cpx o
  | .cpy => .cpy o
  | .bcc => .bcc (dispOf o)
  | .bcs => .bcs (dispOf o)
  | .beq => .beq (dispOf o)
  | .bne => .bne (dispOf o)
  | .bmi => .bmi (dispOf o)
  | .bpl => .bpl (dispOf o)
  | .bvc => .bvc (dispOf o)
  | .bvs => .bvs (dispOf o)
  | .jmp => .jmp o
  | .jsr => .jsr (targetOf o)
  | .rts => .rts
  | .pha => .pha
  | .php => .php
  | .pla => .pla
  | .plp => .plp
  | .clc => .clc
  | .sec => .sec
  | .cld => .cld
  | .sed => .sed
  | .cli => .cli
  | .sei => .sei
  | .clv => .clv
  | .tax => .tax
  | .txa => .txa
  | .tay => .tay
  | .tya => .tya
  | .tsx => .tsx
  | .txs => .txs
  | .brk => .brk
  | .rti => .rti
  | .nop => .nop
  | .ill => .ill op

/-- The instruction that an opcode byte and the two bytes after it stand for; a byte the mode does not use is
ignored. Total: "Any opcode byte, including unofficial ones, must resolve to some descriptor" (R65). -/
def instrOf (op b1 b2 : Byte) : Instr :=
  buildInstr (descriptor op).mnemonic (assemble (descriptor op).mode b1 b2) op

/-- Why a byte list is not decoded. No opcode byte is among the reasons (R65). -/
inductive DecodeError where
  /-- The list is empty. -/
  | noOpcode
  /-- The list ends before the operand bytes of the opcode's mode. -/
  | missingOperand (op : Byte)
  deriving DecidableEq, Repr

/-- Decode one instruction from a byte list and return the bytes after it. The opcode alone decides the length
(R60, R61). -/
def decode (bytes : List Byte) : Except DecodeError (Instr × List Byte) :=
  match bytes with
  | [] => .error .noOpcode
  | op :: rest =>
    if rest.length < (descriptor op).mode.operandBytes then .error (.missingOperand op)
    else .ok (instrOf op (rest.getD 0 0) (rest.getD 1 0), rest.drop (descriptor op).mode.operandBytes)

/-- The host's view of the decoder: the bits of `w` below `nbits`, first byte lowest, zeros above, laid out as the
three bytes of the longest instruction. -/
def decodeTableWord (nbits w : Nat) : Option Instr :=
  let v := w % 2 ^ nbits
  match decode [BitVec.ofNat 8 v, BitVec.ofNat 8 (v / 256), BitVec.ofNat 8 (v / 65536)] with
  | .ok (i, _) => some i
  | .error _ => none

/-- The map by mnemonic of R67: every mode of a documented mnemonic with its opcode byte. `ill` has no fixed byte. -/
def encodings : Mnemonic → List (Mode × Byte)
  | .lda => [(.imm, 0xA9), (.zp0, 0xA5), (.zpx, 0xB5), (.abs, 0xAD),
      (.abx, 0xBD), (.aby, 0xB9), (.izx, 0xA1), (.izy, 0xB1)]
  | .ldx => [(.imm, 0xA2), (.zp0, 0xA6), (.zpy, 0xB6), (.abs, 0xAE), (.aby, 0xBE)]
  | .ldy => [(.imm, 0xA0), (.zp0, 0xA4), (.zpx, 0xB4), (.abs, 0xAC), (.abx, 0xBC)]
  | .sta => [(.zp0, 0x85), (.zpx, 0x95), (.abs, 0x8D), (.abx, 0x9D), (.aby, 0x99), (.izx, 0x81), (.izy, 0x91)]
  | .stx => [(.zp0, 0x86), (.zpy, 0x96), (.abs, 0x8E)]
  | .sty => [(.zp0, 0x84), (.zpx, 0x94), (.abs, 0x8C)]
  | .adc => [(.imm, 0x69), (.zp0, 0x65), (.zpx, 0x75), (.abs, 0x6D),
      (.abx, 0x7D), (.aby, 0x79), (.izx, 0x61), (.izy, 0x71)]
  | .sbc => [(.imm, 0xE9), (.zp0, 0xE5), (.zpx, 0xF5), (.abs, 0xED),
      (.abx, 0xFD), (.aby, 0xF9), (.izx, 0xE1), (.izy, 0xF1)]
  | .and => [(.imm, 0x29), (.zp0, 0x25), (.zpx, 0x35), (.abs, 0x2D),
      (.abx, 0x3D), (.aby, 0x39), (.izx, 0x21), (.izy, 0x31)]
  | .ora => [(.imm, 0x09), (.zp0, 0x05), (.zpx, 0x15), (.abs, 0x0D),
      (.abx, 0x1D), (.aby, 0x19), (.izx, 0x01), (.izy, 0x11)]
  | .eor => [(.imm, 0x49), (.zp0, 0x45), (.zpx, 0x55), (.abs, 0x4D),
      (.abx, 0x5D), (.aby, 0x59), (.izx, 0x41), (.izy, 0x51)]
  | .bit => [(.zp0, 0x24), (.abs, 0x2C)]
  | .asl => [(.imp, 0x0A), (.zp0, 0x06), (.zpx, 0x16), (.abs, 0x0E), (.abx, 0x1E)]
  | .lsr => [(.imp, 0x4A), (.zp0, 0x46), (.zpx, 0x56), (.abs, 0x4E), (.abx, 0x5E)]
  | .rol => [(.imp, 0x2A), (.zp0, 0x26), (.zpx, 0x36), (.abs, 0x2E), (.abx, 0x3E)]
  | .ror => [(.imp, 0x6A), (.zp0, 0x66), (.zpx, 0x76), (.abs, 0x6E), (.abx, 0x7E)]
  | .inc => [(.zp0, 0xE6), (.zpx, 0xF6), (.abs, 0xEE), (.abx, 0xFE)]
  | .dec => [(.zp0, 0xC6), (.zpx, 0xD6), (.abs, 0xCE), (.abx, 0xDE)]
  | .inx => [(.imp, 0xE8)]
  | .iny => [(.imp, 0xC8)]
  | .dex => [(.imp, 0xCA)]
  | .dey => [(.imp, 0x88)]
  | .cmp => [(.imm, 0xC9), (.zp0, 0xC5), (.zpx, 0xD5), (.abs, 0xCD),
      (.abx, 0xDD), (.aby, 0xD9), (.izx, 0xC1), (.izy, 0xD1)]
  | .cpx => [(.imm, 0xE0), (.zp0, 0xE4), (.abs, 0xEC)]
  | .cpy => [(.imm, 0xC0), (.zp0, 0xC4), (.abs, 0xCC)]
  | .bcc => [(.rel, 0x90)]
  | .bcs => [(.rel, 0xB0)]
  | .beq => [(.rel, 0xF0)]
  | .bne => [(.rel, 0xD0)]
  | .bmi => [(.rel, 0x30)]
  | .bpl => [(.rel, 0x10)]
  | .bvc => [(.rel, 0x50)]
  | .bvs => [(.rel, 0x70)]
  | .jmp => [(.abs, 0x4C), (.ind, 0x6C)]
  | .jsr => [(.abs, 0x20)]
  | .rts => [(.imp, 0x60)]
  | .pha => [(.imp, 0x48)]
  | .php => [(.imp, 0x08)]
  | .pla => [(.imp, 0x68)]
  | .plp => [(.imp, 0x28)]
  | .clc => [(.imp, 0x18)]
  | .sec => [(.imp, 0x38)]
  | .cld => [(.imp, 0xD8)]
  | .sed => [(.imp, 0xF8)]
  | .cli => [(.imp, 0x58)]
  | .sei => [(.imp, 0x78)]
  | .clv => [(.imp, 0xB8)]
  | .tax => [(.imp, 0xAA)]
  | .txa => [(.imp, 0x8A)]
  | .tay => [(.imp, 0xA8)]
  | .tya => [(.imp, 0x98)]
  | .tsx => [(.imp, 0xBA)]
  | .txs => [(.imp, 0x9A)]
  | .brk => [(.imp, 0x00)]
  | .rti => [(.imp, 0x40)]
  | .nop => [(.imp, 0xEA)]
  | .ill => []

/-- The opcode byte of an instruction; `none` for a (mnemonic, mode) pair that R67 does not list. -/
def opcodeOf (i : Instr) : Option Byte :=
  match i with
  | .ill op => some op
  | _ => (encodings i.mnemonic).lookup i.operand.mode

/-- The operand bytes in memory order, low byte of a word first (R60, R62). -/
def operandBytesOf (o : Operand) : List Byte :=
  match o with
  | .imp => []
  | .imm v => [v]
  | .zp0 z => [z]
  | .zpx z => [z]
  | .zpy z => [z]
  | .rel d => [d]
  | .abs w => [lo8 w, hi8 w]
  | .abx w => [lo8 w, hi8 w]
  | .aby w => [lo8 w, hi8 w]
  | .ind w => [lo8 w, hi8 w]
  | .izx z => [z]
  | .izy z => [z]

/-- The bytes of a well-formed instruction (formats F1, F2, F3 of R60); no bytes for a pair that does not exist. -/
def encode (i : Instr) : List Byte :=
  match opcodeOf i with
  | some op => op :: operandBytesOf i.operand
  | none => []

end Sys2Proof
end

