-- ==== Sys2Proof/Machine/Memory.lean ====
section
/-! DEFINITION. The flat array of 65536 bytes behind the bus (20_memory.md R40, R43) as a list of (address, byte)
pairs in one canonical form. -/

namespace Sys2Proof.Machine

/-- The bytes that differ from `Memory.unlisted`, by address. -/
abbrev Memory := List Host.Cell

/-- What an address the list does not name reads as. DESIGN CHOICE: the spec lets the bus choose any value
(93_implementation_defined.md U17) and its vectors use 0x00 (95_test_vectors.md, Conventions); assumption log 1,
unsafe. -/
def Memory.unlisted : Byte := 0x00

/-- The canonical form from an address on: addresses strictly rising and inside the 16-bit space, no entry equal to
`unlisted`. -/
def Memory.wfFrom (lo : Nat) (m : Memory) : Bool :=
  match m with
  | [] => true
  | (a, v) :: rest => decide (lo ≤ a) && decide (a < 65536) && decide (v ≠ Memory.unlisted) && Memory.wfFrom (a + 1) rest

/-- The canonical form: equal memories are equal lists. -/
def Memory.wf (m : Memory) : Bool := Memory.wfFrom 0 m

/-- The byte at an address: the last one written, or `unlisted` (R40, R51). -/
def Memory.read (m : Memory) (a : Nat) : Byte :=
  match m with
  | [] => Memory.unlisted
  | (b, w) :: rest => if a = b then w else Memory.read rest a

/-- Remove every entry of an address. -/
def Memory.erase (m : Memory) (a : Nat) : Memory :=
  match m with
  | [] => []
  | (b, w) :: rest => if a = b then Memory.erase rest a else (b, w) :: Memory.erase rest a

/-- Insert or replace the entry of an address, keeping the order. -/
def Memory.put (m : Memory) (a : Nat) (v : Byte) : Memory :=
  match m with
  | [] => [(a, v)]
  | (b, w) :: rest =>
    if a < b then (a, v) :: (b, w) :: rest
    else if a = b then (a, v) :: rest
    else (b, w) :: Memory.put rest a v

/-- Write one byte; writing what an unlisted address reads as removes the entry. -/
def Memory.write (m : Memory) (a : Nat) (v : Byte) : Memory :=
  if v = Memory.unlisted then Memory.erase m a else Memory.put m a v

end Sys2Proof.Machine
end

