-- ==== Sys2Proof/Machine/Parameters.lean ====
section
/-! DEFINITION. The values of the parameters of 00_scope.md R6 that this machine runs with (the spec's defaults), with
the table of base cycle counts of 70_reset_and_hazards.md R244. -/

namespace Sys2Proof.Machine

/-- The default of `BASE_CYCLES(op)`: the table of R244, one row per high nibble; 0 marks an illegal byte, whose count is
`ILLEGAL_BASE_CYCLES(op)`. -/
def baseCycleMatrix : List Nat :=
  [7, 6, 0, 0, 0, 3, 5, 0, 3, 2, 2, 0, 0, 4, 6, 0] ++
  [2, 5, 0, 0, 0, 4, 6, 0, 2, 4, 0, 0, 0, 4, 7, 0] ++
  [6, 6, 0, 0, 3, 3, 5, 0, 4, 2, 2, 0, 4, 4, 6, 0] ++
  [2, 5, 0, 0, 0, 4, 6, 0, 2, 4, 0, 0, 0, 4, 7, 0] ++
  [6, 6, 0, 0, 0, 3, 5, 0, 3, 2, 2, 0, 3, 4, 6, 0] ++
  [2, 5, 0, 0, 0, 4, 6, 0, 2, 4, 0, 0, 0, 4, 7, 0] ++
  [6, 6, 0, 0, 0, 3, 5, 0, 4, 2, 2, 0, 5, 4, 6, 0] ++
  [2, 5, 0, 0, 0, 4, 6, 0, 2, 4, 0, 0, 0, 4, 7, 0] ++
  [0, 6, 0, 0, 3, 3, 3, 0, 2, 0, 2, 0, 4, 4, 4, 0] ++
  [2, 6, 0, 0, 4, 4, 4, 0, 2, 5, 2, 0, 0, 5, 0, 0] ++
  [2, 6, 2, 0, 3, 3, 3, 0, 2, 2, 2, 0, 4, 4, 4, 0] ++
  [2, 5, 0, 0, 4, 4, 4, 0, 2, 4, 2, 0, 4, 4, 4, 0] ++
  [2, 6, 0, 0, 3, 3, 5, 0, 2, 2, 2, 0, 4, 4, 6, 0] ++
  [2, 5, 0, 0, 0, 4, 6, 0, 2, 4, 0, 0, 0, 4, 7, 0] ++
  [2, 6, 0, 0, 3, 3, 5, 0, 2, 2, 2, 0, 4, 4, 6, 0] ++
  [2, 5, 0, 0, 0, 4, 6, 0, 2, 4, 0, 0, 0, 4, 7, 0]

/-- The parameter record: the "default" column of R6. DESIGN CHOICE: the spec leaves them to a configuration
(assumption log 5, 6 and 9), unsafe. -/
def params : Params where
  resetVector := 0xFFFC
  irqVector := 0xFFFE
  nmiVector := 0xFFFA
  stackBase := 0x0100
  spReset := 0xFD
  resetCycles := 8
  irqCycles := 7
  nmiCycles := 8
  baseCycles := fun op => baseCycleMatrix.getD op.toNat 0
  illegalBaseCycles := fun _ => 2
  nopExtraSet := [0x1C, 0x3C, 0x5C, 0x7C, 0xDC, 0xFC]
  requestOnlyAtBoundary := false

/-- The base cycle count of the descriptor of an opcode byte (R33, R68, R244): a parameter for every byte. DESIGN
CHOICE: the counts of `params` are the spec's defaults (assumption log 6), unsafe. -/
def baseCycles (op : Byte) : Nat :=
  if illegalBytes.contains op then params.illegalBaseCycles op else params.baseCycles op

end Sys2Proof.Machine
end

