-- ==== Sys2Proof/Machine/State.lean ====
section
/-! DEFINITION. The state of the machine as plain data (10_state.md R10 and the bus of 20_memory.md R40), its value
right after reset, and the reasons a step can stop. -/

namespace Sys2Proof.Machine

/-- The eight named bits of `P` (10_state.md R18). -/
inductive Flag where
  | c | z | i | d | b | u | v | n
  deriving DecidableEq, Repr

/-- One call of the bus (20_memory.md R41, R42): the address and the byte read or written. -/
inductive BusCall where
  | read (addr : Addr) (value : Byte)
  | write (addr : Addr) (value : Byte)
  deriving DecidableEq, Repr

/-- The thirteen items of R10, then the bus: its memory, the record of its calls, and what it answers. -/
@[ext]
structure State where
  /-- Accumulator (R11). -/
  a : Byte
  /-- Index X (R11). -/
  x : Byte
  /-- Index Y (R11). -/
  y : Byte
  /-- Stack pointer: offset into the stack page (R13). -/
  sp : Byte
  /-- Program counter (R14). -/
  pc : Addr
  /-- Status: the packed flag register (R18). -/
  p : Byte
  /-- Fetched operand byte (R22). -/
  fetched : Byte
  /-- Resolved absolute address (R23). -/
  addrAbs : Addr
  /-- Resolved relative displacement, sign-extended (R24). -/
  addrRel : Addr
  /-- Current opcode byte (R25). -/
  opcode : Byte
  /-- Remaining-cycle countdown (R26). -/
  cycles : Nat
  /-- Latch of a maskable interrupt request (R27). -/
  irqPending : Bool
  /-- Latch of a non-maskable interrupt request (R27). -/
  nmiPending : Bool
  /-- The flat array behind the bus (20_memory.md R40): every write lands in it. -/
  mem : Memory
  /-- The bus calls of the latest tick or reset, in order: the model's own field (assumption log 2). -/
  bus : List BusCall
  /-- What the bus answers to the coming reads, in order: the oracle of 20_memory.md R40 as data, the model's own field
  (assumption log 2). A read that finds the list empty is answered by the flat array. -/
  answers : List Byte
  deriving DecidableEq, Repr

/-- No step faults: "This hardware raises no synchronous exception ... A model's step function needs no fault outcome
for the core itself" (60_exceptions.md R200). So there is no constructor, and nobody raises one; nothing is unsafe
in that, because the spec gives every state a successor. -/
inductive Fault where
  deriving DecidableEq, Repr

/-- Why an operation is refused. No step of the machine answers a refusal. -/
inductive Refusal where
  /-- Raised by an arm of `exec` that has no meaning yet; no arm is left in that state. Safe. -/
  | notModelled (mnemonic : String)
  /-- Raised by `hostOp` for an operation other than reset on a core that was never reset (10_state.md R32,
  60_exceptions.md R217). Safe: the spec admits no such operation. -/
  | neverReset
  /-- Raised by the two request operations while `cycles` is not 0 when `REQUEST_ONLY_AT_BOUNDARY` is set
  (60_exceptions.md R209); never with the default parameters. Safe. -/
  | requestInsideWindow
  deriving DecidableEq, Repr

/-- What a step, a meaning or a host operation answers. -/
abbrev Result := Host.Outcome State Fault Refusal

/-- Right after `reset()` on memory that lists nothing (10_state.md R31, 70_reset_and_hazards.md R230): the two
vector reads are its only bus calls. The program counter is the word at the reset vector of that memory. -/
def State.reset : State where
  a := 0
  x := 0
  y := 0
  sp := params.spReset
  pc := joinBytes (Memory.read [] (params.resetVector + 1).toNat) (Memory.read [] params.resetVector.toNat)
  p := 0x20
  fetched := 0
  addrAbs := 0
  addrRel := 0
  opcode := 0
  cycles := params.resetCycles
  irqPending := false
  nmiPending := false
  mem := []
  bus := [.read params.resetVector (Memory.read [] params.resetVector.toNat),
    .read (params.resetVector + 1) (Memory.read [] (params.resetVector + 1).toNat)]
  answers := []

end Sys2Proof.Machine
end

