-- ==== Sys2Proof/Machine/Flags.lean ====
section
/-! DEFINITION. The status byte's flags (10_state.md R18, R19, R21) and every flag computation: addition and
subtraction (42_arithmetic_logical.md R110, R111, R116), comparison (44_incdec_compare.md R136), shifts and rotates
(43_shift_rotate.md R120 to R123). -/

namespace Sys2Proof.Machine

/-- The bit position of a flag (R18). -/
def flagBit : Flag → Nat
  | .c => 0
  | .z => 1
  | .i => 2
  | .d => 3
  | .b => 4
  | .u => 5
  | .v => 6
  | .n => 7

/-- The mask of a flag (R8, R18). -/
def flagMask (f : Flag) : Byte := 1#8 <<< flagBit f

/-- Read a named flag of a status byte (R19). -/
def getFlag (p : Byte) (f : Flag) : Bool := p.getLsbD (flagBit f)

/-- Set or clear exactly one bit of a status byte (R19). -/
def putFlag (p : Byte) (f : Flag) (v : Bool) : Byte :=
  if v then p ||| flagMask f else p &&& ~~~ flagMask f

/-- `P | B | U`: the copy that PHP and BRK push (47_stack_flags_transfers.md R161, 48_system.md R180). -/
def statusWithBreak (p : Byte) : Byte := p ||| (flagMask .b ||| flagMask .u)

/-- `(P & ~B) | U`: the copy that IRQ and NMI push (60_exceptions.md R204). -/
def statusWithoutBreak (p : Byte) : Byte := (p &&& ~~~ flagMask .b) ||| flagMask .u

/-- `P & ~(B | U)`: what PHP leaves live and RTI restores (47_stack_flags_transfers.md R161, 48_system.md R181). -/
def statusLive (p : Byte) : Byte := p &&& ~~~ (flagMask .b ||| flagMask .u)

/-- `P | U`: what PLP restores (47_stack_flags_transfers.md R163). -/
def statusPulled (p : Byte) : Byte := p ||| flagMask .u

/-- The 9-bit sum `A + M + C` as a natural number (R110, R116 item 3). -/
def sumNat (a m : Byte) (c : Bool) : Nat := a.toNat + m.toNat + c.toNat

/-- The low byte of the sum (R110). -/
def sumByte (a m : Byte) (c : Bool) : Byte := BitVec.ofNat 8 (sumNat a m c)

/-- Carry of the sum: it exceeds 255 (R110). -/
def sumCarry (a m : Byte) (c : Bool) : Bool := decide (sumNat a m c > 255)

/-- Overflow of the sum: bit 7 of `(~(A ^ M)) & (A ^ result)` (R110). -/
def sumOverflow (a m : Byte) (c : Bool) : Bool :=
  ((~~~ (a ^^^ m)) &&& (a ^^^ sumByte a m c)).getLsbD 7

/-- The complemented operand of SBC, `M ^ 0xFF` (R111). -/
def subOperand (m : Byte) : Byte := m ^^^ 0xFF

/-- Carry of a comparison: register >= operand, unsigned (R136). -/
def compareCarry (r m : Byte) : Bool := decide (r.toNat ≥ m.toNat)

/-- The 8-bit difference of a comparison (R136). -/
def compareDiff (r m : Byte) : Byte := r - m

/-- ASL's result: bit 0 is 0 (R120). -/
def aslByte (v : Byte) : Byte := v <<< 1

/-- LSR's result: bit 7 is 0 (R121). -/
def lsrByte (v : Byte) : Byte := v >>> 1

/-- ROL's result: the old carry enters at bit 0 (R122). -/
def rolByte (v : Byte) (c : Bool) : Byte := (v <<< 1) ||| BitVec.ofNat 8 c.toNat

/-- ROR's result: the old carry enters at bit 7 (R123). -/
def rorByte (v : Byte) (c : Bool) : Byte := (BitVec.ofNat 8 c.toNat <<< 7) ||| (v >>> 1)

end Sys2Proof.Machine
end

