-- ==== Sys2Proof/Machine/Ops.lean ====
section
/-! DEFINITION. The named operations every instruction is written over: register writes, flags, the bus
(20_memory.md R41, R42, R44), the stack (40_addressing_modes.md R96, R97), and taking an interrupt and returning from
one (60_exceptions.md R204, 48_system.md R181). -/

namespace Sys2Proof.Machine

/-! ### Register writes -/

def State.setA (s : State) (v : Byte) : State := { s with a := v }
def State.setX (s : State) (v : Byte) : State := { s with x := v }
def State.setY (s : State) (v : Byte) : State := { s with y := v }
def State.setSp (s : State) (v : Byte) : State := { s with sp := v }
def State.setPc (s : State) (v : Addr) : State := { s with pc := v }
def State.setP (s : State) (v : Byte) : State := { s with p := v }
def State.setFetched (s : State) (v : Byte) : State := { s with fetched := v }
def State.setAddrAbs (s : State) (v : Addr) : State := { s with addrAbs := v }
def State.setAddrRel (s : State) (v : Addr) : State := { s with addrRel := v }
def State.setOpcode (s : State) (v : Byte) : State := { s with opcode := v }
def State.setCycles (s : State) (n : Nat) : State := { s with cycles := n }
def State.setIrq (s : State) (v : Bool) : State := { s with irqPending := v }
def State.setNmi (s : State) (v : Bool) : State := { s with nmiPending := v }
def State.setBus (s : State) (calls : List BusCall) : State := { s with bus := calls }
def State.setMem (s : State) (m : Memory) : State := { s with mem := m }
def State.setAnswers (s : State) (l : List Byte) : State := { s with answers := l }

/-! ### Flags -/

/-- Read a flag of the live status (10_state.md R19). -/
def State.flag (s : State) (f : Flag) : Bool := getFlag s.p f

/-- `F <- v` (R19): exactly one bit of `P` changes. -/
def State.setFlag (s : State) (f : Flag) (v : Bool) : State := s.setP (putFlag s.p f v)

/-- `SetZN(v)` (R20): Z is `v = 0`, N is bit 7. -/
def State.setZN (s : State) (v : Byte) : State :=
  (s.setFlag .z (decide (v = 0))).setFlag .n (v.getLsbD 7)

/-! ### The bus -/

/-- The byte the flat array holds at an address (20_memory.md R40). -/
def State.peek (s : State) (a : Addr) : Byte := s.mem.read a.toNat

/-- What the bus answers to the `k`-th read from here (counted from 0), if it is at address `a` and no write comes
between: the oracle's answer, or the flat array's where the oracle has none (20_memory.md R40, R41). -/
def State.answerAt (s : State) (k : Nat) (a : Addr) : Byte := s.answers.getD k (s.peek a)

/-- One read call at `a` that was answered with `b` (R41): recorded, and its answer used up. -/
def State.recordRead (s : State) (a : Addr) (b : Byte) : State :=
  (s.setBus (s.bus ++ [.read a b])).setAnswers (s.answers.drop 1)

/-- The state after `MemRead(a, 1)` (R41); its value is `s.answerAt 0 a`. -/
def State.noteRead (s : State) (a : Addr) : State := s.recordRead a (s.answerAt 0 a)

/-- `MemWrite(a, 1, v)` (R42). -/
def State.store (s : State) (a : Addr) (v : Byte) : State :=
  (s.setMem (s.mem.write a.toNat v)).setBus (s.bus ++ [.write a v])

/-- The value of `Read16(a)`: little-endian, the address of the high byte wraps modulo 65536 (R44, 10_state.md R17). -/
def State.wordAnswer (s : State) (a : Addr) : Addr := joinBytes (s.answerAt 1 (a + 1)) (s.answerAt 0 a)

/-- The two calls of `Read16(a)`, low byte first (R44). -/
def State.noteReadWord (s : State) (a : Addr) : State := (s.noteRead a).noteRead (a + 1)

/-! ### The stack -/

/-- The address an offset names in the stack page (10_state.md R13). -/
def stackAddr (sp : Byte) : Addr := params.stackBase + zext16 sp

/-- `Push(v)`: store, then decrement (40_addressing_modes.md R96). -/
def State.push (s : State) (v : Byte) : State := (s.store (stackAddr s.sp) v).setSp (s.sp - 1)

/-- The value `Pop()` answers (R97). -/
def State.popValue (s : State) : Byte := s.answerAt 0 (stackAddr (s.sp + 1))

/-- The state after `Pop()`: increment, then read (R97). -/
def State.pop (s : State) : State := (s.setSp (s.sp + 1)).noteRead (stackAddr (s.sp + 1))

/-! ### Taking an interrupt, and returning -/

/-- `InterruptEntry(vec, lat, brk)` (60_exceptions.md R204): push the program counter high then low and the status
copy, set I and clear B and U in the live status, load the program counter from the vector; only IRQ and NMI load
the countdown. -/
def interruptEntry (vec : Addr) (lat : Nat) (brk : Bool) (s : State) : State :=
  let s1 := (s.push (hi8 s.pc)).push (lo8 s.pc)
  let s2 := s1.push (if brk then statusWithBreak s.p else statusWithoutBreak s.p)
  let s3 := s2.setP (statusLive s.p ||| flagMask .i)
  let s4 := (s3.noteReadWord vec).setPc (s3.wordAnswer vec)
  if brk then s4 else s4.setCycles lat

/-- The return from an interrupt (48_system.md R181, 60_exceptions.md R207): pull the status with B and U cleared,
then the program counter low and high, with no adjustment. -/
def interruptReturn (s : State) : State :=
  let s1 := s.pop.setP (statusLive s.popValue)
  let s2 := s1.pop
  let s3 := s2.pop
  s3.setPc (joinBytes s2.popValue s1.popValue)

end Sys2Proof.Machine
end

