-- ==== Sys2Proof/Machine/Operands.lean ====
section
/-! DEFINITION. The twelve addressing modes (40_addressing_modes.md R80 to R92), operand fetch (R93), write-back
(R94) and the extra cycle (R95, R99). An operand already holds the operand bytes that decoding read at the program
counter, so a resolver records their fetches instead of reading them again (assumption log 8). -/

namespace Sys2Proof.Machine

/-- `FetchPC()` of an operand byte that decoding has read as `b` (R80). -/
def State.takeByte (s : State) (b : Byte) : State := (s.recordRead s.pc b).setPc (s.pc + 1)

/-- The two operand bytes of a word, low byte first (R87). -/
def State.takeWord (s : State) (w : Addr) : State := (s.takeByte (lo8 w)).takeByte (hi8 w)

/-- Where the high byte of an indirect target is read: a pointer with low byte 0xFF does not carry (R90). -/
def indirectHigh (ptr : Addr) : Addr := if lo8 ptr = 0xFF then joinBytes (hi8 ptr) 0 else ptr + 1

/-- The little-endian word of a zero-page pointer, both bytes inside the zero page (R91, R92); `s` is the state before
the operand byte is consumed, so the pointer reads are the second and third from it. -/
def State.zeroPageWord (s : State) (z : Byte) : Addr :=
  joinBytes (s.answerAt 2 (zext16 (z + 1))) (s.answerAt 1 (zext16 z))

/-- The two reads of a zero-page pointer, low byte first (R91, R92). -/
def State.noteZeroPageWord (s : State) (z : Byte) : State := (s.noteRead (zext16 z)).noteRead (zext16 (z + 1))

/-- The address before the index register is added, for the three modes that can signal a page cross
(R88, R89, R92). -/
def indexBase (o : Operand) (s : State) : Addr :=
  match o with
  | .abx w => w
  | .aby w => w
  | .izy z => s.zeroPageWord z
  | _ => s.addrAbs

/-- The effective address the resolver leaves in `addr_abs`; `s` is the state before the operand bytes are consumed.
Implied and Relative leave `addr_abs` alone (R81 to R92). -/
def effAddr (o : Operand) (s : State) : Addr :=
  match o with
  | .imp => s.addrAbs
  | .imm _ => s.pc
  | .zp0 z => zext16 z
  | .zpx z => zext16 (z + s.x)
  | .zpy z => zext16 (z + s.y)
  | .rel _ => s.addrAbs
  | .abs w => w
  | .abx w => w + zext16 s.x
  | .aby w => w + zext16 s.y
  | .ind w => joinBytes (s.answerAt 3 (indirectHigh w)) (s.answerAt 2 w)
  | .izx z => s.zeroPageWord (z + s.x)
  | .izy z => s.zeroPageWord z + zext16 s.y

/-- The resolver's signal: the high byte of the effective address differs from that of the un-indexed address, in
Absolute,X, Absolute,Y and Indirect,Y; 0 in the other nine modes (R88, R89, R92, R95, R99). -/
def pageCross (o : Operand) (s : State) : Bool :=
  match o with
  | .abx _ => hi8 (effAddr o s) != hi8 (indexBase o s)
  | .aby _ => hi8 (effAddr o s) != hi8 (indexBase o s)
  | .izy _ => hi8 (effAddr o s) != hi8 (indexBase o s)
  | _ => false

/-- The resolver of a mode: operand bytes consumed, pointer reads made, scratch written (R81 to R92). -/
def resolve (o : Operand) (s : State) : State :=
  match o with
  | .imp => s.setFetched s.a
  | .imm _ => (s.setAddrAbs (effAddr o s)).setPc (s.pc + 1)
  | .zp0 z => (s.takeByte z).setAddrAbs (effAddr o s)
  | .zpx z => (s.takeByte z).setAddrAbs (effAddr o s)
  | .zpy z => (s.takeByte z).setAddrAbs (effAddr o s)
  | .rel d => (s.takeByte d).setAddrRel (sext16 d)
  | .abs w => (s.takeWord w).setAddrAbs (effAddr o s)
  | .abx w => (s.takeWord w).setAddrAbs (effAddr o s)
  | .aby w => (s.takeWord w).setAddrAbs (effAddr o s)
  | .ind w => (((s.takeWord w).noteRead w).noteRead (indirectHigh w)).setAddrAbs (effAddr o s)
  | .izx z => ((s.takeByte z).noteZeroPageWord (z + s.x)).setAddrAbs (effAddr o s)
  | .izy z => ((s.takeByte z).noteZeroPageWord z).setAddrAbs (effAddr o s)

/-- How many bus reads the resolver of an operand makes (R81 to R92, 20_memory.md R48). -/
def resolverReads (o : Operand) : Nat :=
  match o with
  | .imp => 0
  | .imm _ => 0
  | .zp0 _ => 1
  | .zpx _ => 1
  | .zpy _ => 1
  | .rel _ => 1
  | .abs _ => 2
  | .abx _ => 2
  | .aby _ => 2
  | .ind _ => 4
  | .izx _ => 3
  | .izy _ => 3

/-- The operand byte of an instruction; `s` is the state before the operand bytes are consumed (R81, R82, R93). -/
def operandByte (o : Operand) (s : State) : Byte :=
  match o with
  | .imp => s.a
  | .imm v => v
  | _ => s.answerAt (resolverReads o) (effAddr o s)

/-- `Fetch()` (R93), after the resolver: one read at `addr_abs` into `fetched`, skipped for Implied. The Immediate
byte is the one decoding read at that address. -/
def fetch (o : Operand) (s : State) : State :=
  match o with
  | .imp => s
  | .imm v => (s.recordRead s.addrAbs v).setFetched v
  | _ => (s.noteRead s.addrAbs).setFetched (s.answerAt 0 s.addrAbs)

/-- `WriteBack(v)` (R94): the accumulator in Implied mode, else one write at `addr_abs`. -/
def writeBack (o : Operand) (v : Byte) (s : State) : State :=
  match o with
  | .imp => s.setA v
  | _ => s.store s.addrAbs v

/-- One instruction after its opcode fetch (30_encoding.md R70): the resolver, the handler, and the extra cycle when
both signals are 1 (R95). -/
def runInstr (o : Operand) (handlerSignal : Bool) (handler : State → State) (s : State) : State :=
  let t := handler (resolve o s)
  t.setCycles (t.cycles + (pageCross o s && handlerSignal).toNat)

end Sys2Proof.Machine
end

