-- ==== Sys2Proof/Machine/Arithmetic.lean ====
section
/-! DEFINITION. Arithmetic and logic (42_arithmetic_logical.md R110 to R116). No operation reads D (R116 item 7). -/

namespace Sys2Proof.Machine

/-- The addition of ADC with operand byte `m`: C, Z, V, N and the accumulator (R110). -/
def addToA (m : Byte) (s : State) : State :=
  let r := sumByte s.a m (s.flag .c)
  let s1 := s.setFlag .c (sumCarry s.a m (s.flag .c))
  let s2 := s1.setFlag .v (sumOverflow s.a m (s.flag .c))
  (s2.setZN r).setA r

/-- The shared end of AND, ORA and EOR: the accumulator and Z, N from it (R112 to R114). -/
def logicToA (r : Byte) (s : State) : State := (s.setA r).setZN r

/-- The flags of BIT: Z from `A & M`, N and V from bits 7 and 6 of `M` (R115). -/
def bitTest (m : Byte) (s : State) : State :=
  ((s.setFlag .z (decide (s.a &&& m = 0))).setFlag .n (m.getLsbD 7)).setFlag .v (m.getLsbD 6)

/-- ADC (R110). -/
def execAdc (o : Operand) (s : State) : Result :=
  .next (runInstr o true (fun r => let f := fetch o r; addToA f.fetched f) s)

/-- SBC: the same addition path with the complemented operand (R111). -/
def execSbc (o : Operand) (s : State) : Result :=
  .next (runInstr o true (fun r => let f := fetch o r; addToA (subOperand f.fetched) f) s)

/-- AND (R112). -/
def execAnd (o : Operand) (s : State) : Result :=
  .next (runInstr o true (fun r => let f := fetch o r; logicToA (f.a &&& f.fetched) f) s)

/-- ORA (R113). -/
def execOra (o : Operand) (s : State) : Result :=
  .next (runInstr o true (fun r => let f := fetch o r; logicToA (f.a ||| f.fetched) f) s)

/-- EOR (R114). -/
def execEor (o : Operand) (s : State) : Result :=
  .next (runInstr o true (fun r => let f := fetch o r; logicToA (f.a ^^^ f.fetched) f) s)

/-- BIT (R115; the spec's decision D32 gives it this meaning, assumption log 13). -/
def execBit (o : Operand) (s : State) : Result :=
  .next (runInstr o false (fun r => let f := fetch o r; bitTest f.fetched f) s)

end Sys2Proof.Machine
end

