-- ==== Sys2Proof/Machine/Branches.lean ====
section
/-! DEFINITION. The eight conditional branches (45_branches.md R140 to R148). -/

namespace Sys2Proof.Machine

/-- The target of a branch, modulo 65536; the state is the one after the resolver (R140). -/
def branchTarget (s : State) : Addr := s.pc + s.addrRel

/-- `Branch(cond)` (R140): when taken, one cycle, a second one when the target is on another page than the
instruction after the branch, and the jump. -/
def branch (cond : Bool) (s : State) : State :=
  if cond then
    (s.setCycles (s.cycles + 1 + (hi8 (branchTarget s) != hi8 s.pc).toNat)).setPc (branchTarget s)
  else s

/-- BCC: taken when C = 0 (R141). -/
def execBcc (disp : Byte) (s : State) : Result := .next (runInstr (.rel disp) false (fun r => branch (!r.flag .c) r) s)

/-- BCS: taken when C = 1 (R142). -/
def execBcs (disp : Byte) (s : State) : Result := .next (runInstr (.rel disp) false (fun r => branch (r.flag .c) r) s)

/-- BEQ: taken when Z = 1 (R143). -/
def execBeq (disp : Byte) (s : State) : Result := .next (runInstr (.rel disp) false (fun r => branch (r.flag .z) r) s)

/-- BNE: taken when Z = 0 (R144). -/
def execBne (disp : Byte) (s : State) : Result := .next (runInstr (.rel disp) false (fun r => branch (!r.flag .z) r) s)

/-- BMI: taken when N = 1 (R145). -/
def execBmi (disp : Byte) (s : State) : Result := .next (runInstr (.rel disp) false (fun r => branch (r.flag .n) r) s)

/-- BPL: taken when N = 0 (R146). -/
def execBpl (disp : Byte) (s : State) : Result := .next (runInstr (.rel disp) false (fun r => branch (!r.flag .n) r) s)

/-- BVC: taken when V = 0 (R147). -/
def execBvc (disp : Byte) (s : State) : Result := .next (runInstr (.rel disp) false (fun r => branch (!r.flag .v) r) s)

/-- BVS: taken when V = 1 (R148). -/
def execBvs (disp : Byte) (s : State) : Result := .next (runInstr (.rel disp) false (fun r => branch (r.flag .v) r) s)

end Sys2Proof.Machine
end

