-- ==== Sys2Proof/Machine/IncDecCompare.lean ====
section
/-! DEFINITION. Increments, decrements and comparisons (44_incdec_compare.md R130 to R138). -/

namespace Sys2Proof.Machine

/-- The read-modify-write end of INC and DEC: one write at `addr_abs`, then Z and N (R130, R131). -/
def memoryResult (r : Byte) (s : State) : State := (s.store s.addrAbs r).setZN r

/-- The flags of a comparison: C, Z, N; nothing is stored (R136). -/
def compareFlags (reg m : Byte) (s : State) : State :=
  (s.setFlag .c (compareCarry reg m)).setZN (compareDiff reg m)

/-- INC (R130). -/
def execInc (o : Operand) (s : State) : Result :=
  .next (runInstr o false (fun r => let f := fetch o r; memoryResult (f.fetched + 1) f) s)

/-- DEC (R131). -/
def execDec (o : Operand) (s : State) : Result :=
  .next (runInstr o false (fun r => let f := fetch o r; memoryResult (f.fetched - 1) f) s)

/-- INX (R132). -/
def execInx (s : State) : Result := .next (runInstr .imp false (fun r => (r.setX (r.x + 1)).setZN (r.x + 1)) s)

/-- INY (R133). -/
def execIny (s : State) : Result := .next (runInstr .imp false (fun r => (r.setY (r.y + 1)).setZN (r.y + 1)) s)

/-- DEX (R134). -/
def execDex (s : State) : Result := .next (runInstr .imp false (fun r => (r.setX (r.x - 1)).setZN (r.x - 1)) s)

/-- DEY (R135). -/
def execDey (s : State) : Result := .next (runInstr .imp false (fun r => (r.setY (r.y - 1)).setZN (r.y - 1)) s)

/-- CMP (R136): its handler signals the extra cycle. -/
def execCmp (o : Operand) (s : State) : Result :=
  .next (runInstr o true (fun r => let f := fetch o r; compareFlags f.a f.fetched f) s)

/-- CPX (R137). -/
def execCpx (o : Operand) (s : State) : Result :=
  .next (runInstr o false (fun r => let f := fetch o r; compareFlags f.x f.fetched f) s)

/-- CPY (R138). -/
def execCpy (o : Operand) (s : State) : Result :=
  .next (runInstr o false (fun r => let f := fetch o r; compareFlags f.y f.fetched f) s)

end Sys2Proof.Machine
end

