-- ==== Sys2Proof/Machine/Jumps.lean ====
section
/-! DEFINITION. Jumps, subroutine call and return (46_jumps.md R150 to R152). -/

namespace Sys2Proof.Machine

/-- JMP (R150): the target itself is not read. -/
def execJmp (o : Operand) (s : State) : Result := .next (runInstr o false (fun r => r.setPc r.addrAbs) s)

/-- JSR (R151): push the address of its own last byte, high then low, and jump. -/
def execJsr (target : Addr) (s : State) : Result :=
  .next (runInstr (.abs target) false
    (fun r => ((r.push (hi8 (r.pc - 1))).push (lo8 (r.pc - 1))).setPc r.addrAbs) s)

/-- RTS (R152): pull the address low then high, and continue one byte after it. -/
def execRts (s : State) : Result :=
  .next (runInstr .imp false (fun r => r.pop.pop.setPc (joinBytes r.pop.popValue r.popValue + 1)) s)

end Sys2Proof.Machine
end

