-- ==== Sys2Proof/Machine/LoadStore.lean ====
section
/-! DEFINITION. Loads and stores (41_load_store.md R100 to R105). -/

namespace Sys2Proof.Machine

/-- LDA (R100). -/
def execLda (o : Operand) (s : State) : Result :=
  .next (runInstr o true (fun r => let f := fetch o r; (f.setA f.fetched).setZN f.fetched) s)

/-- LDX (R101). -/
def execLdx (o : Operand) (s : State) : Result :=
  .next (runInstr o true (fun r => let f := fetch o r; (f.setX f.fetched).setZN f.fetched) s)

/-- LDY (R102). -/
def execLdy (o : Operand) (s : State) : Result :=
  .next (runInstr o true (fun r => let f := fetch o r; (f.setY f.fetched).setZN f.fetched) s)

/-- STA (R103): one write at `addr_abs`, no read of it, no extra cycle. -/
def execSta (o : Operand) (s : State) : Result := .next (runInstr o false (fun r => r.store r.addrAbs r.a) s)

/-- STX (R104). -/
def execStx (o : Operand) (s : State) : Result := .next (runInstr o false (fun r => r.store r.addrAbs r.x) s)

/-- STY (R105). -/
def execSty (o : Operand) (s : State) : Result := .next (runInstr o false (fun r => r.store r.addrAbs r.y) s)

end Sys2Proof.Machine
end

