-- ==== Sys2Proof/Machine/ShiftRotate.lean ====
section
/-! DEFINITION. Shifts and rotates (43_shift_rotate.md R120 to R123), on the accumulator in Implied mode and by
read-modify-write in a memory mode. -/

namespace Sys2Proof.Machine

/-- The shared end of the four: C, Z, N, then the write-back (R120 to R123). -/
def shiftResult (o : Operand) (carry : Bool) (r : Byte) (s : State) : State :=
  writeBack o r ((s.setFlag .c carry).setZN r)

/-- ASL (R120): C is the old bit 7. -/
def execAsl (o : Operand) (s : State) : Result :=
  .next (runInstr o false (fun r => let f := fetch o r
    shiftResult o (f.fetched.getLsbD 7) (aslByte f.fetched) f) s)

/-- LSR (R121): C is the old bit 0. -/
def execLsr (o : Operand) (s : State) : Result :=
  .next (runInstr o false (fun r => let f := fetch o r
    shiftResult o (f.fetched.getLsbD 0) (lsrByte f.fetched) f) s)

/-- ROL (R122): the old C enters at bit 0. -/
def execRol (o : Operand) (s : State) : Result :=
  .next (runInstr o false (fun r => let f := fetch o r
    shiftResult o (f.fetched.getLsbD 7) (rolByte f.fetched (f.flag .c)) f) s)

/-- ROR (R123): the old C enters at bit 7. -/
def execRor (o : Operand) (s : State) : Result :=
  .next (runInstr o false (fun r => let f := fetch o r
    shiftResult o (f.fetched.getLsbD 0) (rorByte f.fetched (f.flag .c)) f) s)

end Sys2Proof.Machine
end

