-- ==== Sys2Proof/Machine/StackFlagsTransfers.lean ====
section
/-! DEFINITION. Stack, flag and transfer instructions (47_stack_flags_transfers.md R160 to R176). -/

namespace Sys2Proof.Machine

/-- PHA (R160). -/
def execPha (s : State) : Result := .next (runInstr .imp false (fun r => r.push r.a) s)

/-- PHP (R161): B and U are 1 in the pushed copy and 0 in the live status afterwards. -/
def execPhp (s : State) : Result :=
  .next (runInstr .imp false (fun r => (r.push (statusWithBreak r.p)).setP (statusLive r.p)) s)

/-- PLA (R162). -/
def execPla (s : State) : Result :=
  .next (runInstr .imp false (fun r => (r.pop.setA r.popValue).setZN r.popValue) s)

/-- PLP (R163): all eight bits from the stack, then U forced to 1. -/
def execPlp (s : State) : Result :=
  .next (runInstr .imp false (fun r => r.pop.setP (statusPulled r.popValue)) s)

/-- CLC (R164). -/
def execClc (s : State) : Result := .next (runInstr .imp false (fun r => r.setFlag .c false) s)

/-- SEC (R165). -/
def execSec (s : State) : Result := .next (runInstr .imp false (fun r => r.setFlag .c true) s)

/-- CLD (R166). -/
def execCld (s : State) : Result := .next (runInstr .imp false (fun r => r.setFlag .d false) s)

/-- SED (R167). -/
def execSed (s : State) : Result := .next (runInstr .imp false (fun r => r.setFlag .d true) s)

/-- CLI (R168). -/
def execCli (s : State) : Result := .next (runInstr .imp false (fun r => r.setFlag .i false) s)

/-- SEI (R169). -/
def execSei (s : State) : Result := .next (runInstr .imp false (fun r => r.setFlag .i true) s)

/-- CLV (R170). -/
def execClv (s : State) : Result := .next (runInstr .imp false (fun r => r.setFlag .v false) s)

/-- TAX (R171). -/
def execTax (s : State) : Result := .next (runInstr .imp false (fun r => (r.setX r.a).setZN r.a) s)

/-- TXA (R172). -/
def execTxa (s : State) : Result := .next (runInstr .imp false (fun r => (r.setA r.x).setZN r.x) s)

/-- TAY (R173). -/
def execTay (s : State) : Result := .next (runInstr .imp false (fun r => (r.setY r.a).setZN r.a) s)

/-- TYA (R174). -/
def execTya (s : State) : Result := .next (runInstr .imp false (fun r => (r.setA r.y).setZN r.y) s)

/-- TSX (R175). -/
def execTsx (s : State) : Result := .next (runInstr .imp false (fun r => (r.setX r.sp).setZN r.sp) s)

/-- TXS (R176): no flag is written. -/
def execTxs (s : State) : Result := .next (runInstr .imp false (fun r => r.setSp r.x) s)

end Sys2Proof.Machine
end

