-- ==== Sys2Proof/Machine/System.lean ====
section
/-! DEFINITION. BRK, RTI, NOP and the illegal-opcode handler (48_system.md R180 to R183). -/

namespace Sys2Proof.Machine

/-- BRK (R180): skip the signature byte without reading it, then the shared entry through the IRQ vector; the
countdown keeps the base count. -/
def execBrk (s : State) : Result :=
  .next (runInstr .imp false (fun r => interruptEntry params.irqVector 0 true (r.setPc (r.pc + 1))) s)

/-- RTI (R181). -/
def execRti (s : State) : Result := .next (runInstr .imp false interruptReturn s)

/-- NOP (R182): its signal is 1 for the opcode values of `NOP_EXTRA_SET`, which Implied never lets count. -/
def execNop (s : State) : Result :=
  .next (runInstr .imp (params.nopExtraSet.contains s.opcode) (fun r => r) s)

/-- ILL (R183): no effect beyond the opcode fetch, whatever the byte. -/
def execIll (_op : Byte) (s : State) : Result := .next (runInstr .imp false (fun r => r) s)

end Sys2Proof.Machine
end

