-- ==== Sys2Proof/Machine/Scheduler.lean ====
section
/-! DEFINITION. The parts of the clock scheduler and of the reset and interrupt controller (30_encoding.md R70, R71;
60_exceptions.md R202, R203, R206; 70_reset_and_hazards.md R230). -/

namespace Sys2Proof.Machine

/-- The instruction at the program counter, from the bytes the bus answers there, at addresses modulo 65536
(30_encoding.md R61); every opcode byte is one (R65). Looking at the answers is no bus call: the calls are recorded by
`beginInstr`, the resolver and `Fetch()`, and an answer that none of them takes is left for a later read. -/
def State.nextInstr (s : State) : Instr :=
  instrOf (s.answerAt 0 s.pc) (s.answerAt 1 (s.pc + 1)) (s.answerAt 2 (s.pc + 2))

/-- The opcode fetch of `tick` (R70): read the opcode, advance the program counter, clear the scratch (10_state.md
R28) and load the base count. -/
def beginInstr (s : State) : State :=
  let op := s.answerAt 0 s.pc
  let s1 := ((s.noteRead s.pc).setOpcode op).setPc (s.pc + 1)
  let s2 := ((s1.setFetched 0).setAddrAbs 0).setAddrRel 0
  s2.setCycles (baseCycles op)

/-- NMI entry (60_exceptions.md R202): the latch is cleared and I is not consulted. -/
def takeNmi (s : State) : State := interruptEntry params.nmiVector params.nmiCycles false (s.setNmi false)

/-- IRQ entry (R203): the latch is cleared. -/
def takeIrq (s : State) : State := interruptEntry params.irqVector params.irqCycles false (s.setIrq false)

/-- Phase 1 at an instruction boundary (R70, R206): NMI, then an unmasked IRQ, then one instruction; a masked IRQ
request is dropped. -/
def boundary (s : State) : Result :=
  if s.nmiPending then .next (takeNmi s)
  else if s.irqPending && !s.flag .i then .next (takeIrq s)
  else exec s.nextInstr (beginInstr (s.setIrq false))

/-- Phase 2: the countdown loses one, never below 0 (R71). -/
def countDown (s : State) : State := s.setCycles (s.cycles - 1)

/-- One call of `tick` (R70), with the record of bus calls started anew. -/
def tick (s : State) : Result :=
  if s.cycles = 0 then
    match boundary (s.setBus []) with
    | .next t => .next (countDown t)
    | .fault r => .fault r
    | .refused r => .refused r
  else .next (countDown (s.setBus []))

/-- `reset()` (70_reset_and_hazards.md R230) on a core whose bus has memory `m` and answers `l`: nothing else of the
past survives. -/
def resetFrom (m : Memory) (l : List Byte) : State :=
  let s : State :=
    { a := 0, x := 0, y := 0, sp := params.spReset, pc := 0, p := 0x20, fetched := 0, addrAbs := 0, addrRel := 0,
      opcode := 0, cycles := params.resetCycles, irqPending := false, nmiPending := false, mem := m, bus := [], answers := l }
  (s.noteReadWord params.resetVector).setPc (s.wordAnswer params.resetVector)

/-- Store bytes at successive addresses, modulo 65536, without a bus call: the host's loading of memory. -/
def Memory.load (m : Memory) (a : Addr) : List Byte → Memory
  | [] => m
  | b :: rest => Memory.load (m.write a.toNat b) (a + 1) rest

end Sys2Proof.Machine
end

