-- ==== Sys2Proof/Machine/Step.lean ====
section
/-! DEFINITION. One step of the machine is one tick (30_encoding.md R70). -/

namespace Sys2Proof.Machine

/-- One `tick()`: the whole of it is `tick` of Machine/Scheduler.lean. The bus it takes (20_memory.md R40) stands in the
state: `answers` for what it answers, else the flat array; `stepOn` of Machine/Bus.lean takes any bus as a parameter. -/
def step (s : State) : Host.Outcome State Fault Refusal := tick s

/-- The instruction with bits `w` (those from `nbits` up zero) stored where the next step fetches it: at the program
counter of the flat array, which answers the coming reads (`answers` is emptied), with the state brought to an instruction boundary (`cycles = 0`) at which no interrupt is latched. It stands
for the host's loading of a program and the idle ticks of the reset latency (assumption log 4). -/
def State.withFetchWord (s : State) (nbits w : Nat) : State :=
  let v := w % 2 ^ nbits
  { s with
    mem := Memory.load s.mem s.pc [BitVec.ofNat 8 v, BitVec.ofNat 8 (v / 256), BitVec.ofNat 8 (v / 65536)]
    cycles := 0
    irqPending := false
    nmiPending := false
    answers := [] }

end Sys2Proof.Machine
end

