-- ==== Sys2Proof/Machine/HostInterface.lean ====
section
/-! DEFINITION. The host's side of the machine (60_exceptions.md R217): the four operations, the accessors
(10_state.md R30), and a core that was never reset (10_state.md R32). -/

namespace Sys2Proof.Machine

/-- `reset()` (R230): allowed at any time, it keeps only what is the bus's: memory and the coming answers. -/
def hostReset (s : State) : State := resetFrom s.mem s.answers

/-- `request_interrupt()` (R203): the latch is set and nothing else changes; refused inside a window only on a
platform that chose `REQUEST_ONLY_AT_BOUNDARY` (R209). -/
def requestInterrupt (s : State) : Result :=
  if params.requestOnlyAtBoundary && decide (s.cycles ≠ 0) then .refused .requestInsideWindow
  else .next (s.setIrq true)

/-- `request_nonmaskable_interrupt()` (R202). -/
def requestNonmaskable (s : State) : Result :=
  if params.requestOnlyAtBoundary && decide (s.cycles ≠ 0) then .refused .requestInsideWindow
  else .next (s.setNmi true)

/-- What the accessors show (R30): the six registers; the eight flags are `getFlag` of `p`. Hidden state has none. -/
structure View where
  a : Byte
  x : Byte
  y : Byte
  sp : Byte
  pc : Addr
  p : Byte
  deriving DecidableEq, Repr

/-- The accessors (R30): no side effect, any time after the first reset. -/
def viewOf (s : State) : View := ⟨s.a, s.x, s.y, s.sp, s.pc, s.p⟩

/-- A core with its bus: before its first reset it holds no value of any register (10_state.md R32, R232). -/
inductive Device where
  | unreset (mem : Memory) (answers : List Byte)
  | running (s : State)
  deriving DecidableEq, Repr

/-- The host's operations that can change state (10_state.md R29, R217). -/
inductive HostOp where
  | tick | reset | requestInterrupt | requestNonmaskable
  deriving DecidableEq, Repr

/-- The memory behind a core's bus, which construction and reset leave alone (R230). -/
def deviceMem (d : Device) : Memory :=
  match d with
  | .unreset m _ => m
  | .running s => s.mem

/-- What the bus behind a core answers to the coming reads. -/
def deviceAnswers (d : Device) : List Byte :=
  match d with
  | .unreset _ l => l
  | .running s => s.answers

/-- The answer of an operation on a running core as an answer about the core. -/
def runningResult (r : Result) : Host.Outcome Device Fault Refusal :=
  match r with
  | .next s => .next (.running s)
  | .fault f => .fault f
  | .refused f => .refused f

/-- One host operation (R217). A core that was never reset admits only `reset()` (R32). -/
def hostOp (op : HostOp) (d : Device) : Host.Outcome Device Fault Refusal :=
  match op, d with
  | .reset, d => .next (.running (resetFrom (deviceMem d) (deviceAnswers d)))
  | .tick, .running s => runningResult (step s)
  | .requestInterrupt, .running s => runningResult (requestInterrupt s)
  | .requestNonmaskable, .running s => runningResult (requestNonmaskable s)
  | .tick, .unreset _ _ => .refused .neverReset
  | .requestInterrupt, .unreset _ _ => .refused .neverReset
  | .requestNonmaskable, .unreset _ _ => .refused .neverReset

/-- The accessors through the core: nothing can be read before the first reset (R217). -/
def deviceView (d : Device) : Option View :=
  match d with
  | .unreset _ _ => none
  | .running s => some (viewOf s)

/-- A sequence of host operations, ending at the first that is refused. -/
def hostOps (ops : List HostOp) (d : Device) : Host.Outcome Device Fault Refusal :=
  match ops with
  | [] => .next d
  | op :: rest =>
    match hostOp op d with
    | .next e => hostOps rest e
    | .fault f => .fault f
    | .refused r => .refused r

end Sys2Proof.Machine
end

