-- ==== Sys2Proof/Machine/Bus.lean ====
section
/-! DEFINITION. The bus as a parameter of the step function (20_memory.md R40, 00_scope.md R3): any oracle that answers
reads and accepts writes, with a state of its own. `step` takes the oracle's answers as data (`State.answers`); here the
answers are those of a given bus, asked call by call. -/

namespace Sys2Proof.Machine

/-- The bus contract (R40): two calls over a state that belongs to the bus. Nothing is assumed of it: a read may change
it and need not answer what was written. -/
structure Bus where
  Carrier : Type
  read : Carrier → Addr → Byte × Carrier
  write : Carrier → Addr → Byte → Carrier

/-- Make calls on a bus, in order (20_memory.md R46): the bytes it answers to the reads among them, and its state
after. The byte that a read call of the list carries is not used. -/
def Bus.serve (B : Bus) (calls : List BusCall) (c : B.Carrier) : List Byte × B.Carrier :=
  match calls with
  | [] => ([], c)
  | .write a v :: rest => B.serve rest (B.write c a v)
  | .read a _ :: rest =>
    let r := B.read c a
    let q := B.serve rest r.2
    (r.1 :: q.1, q.2)

/-- The bus calls of an answer. -/
def callsOf (r : Result) : List BusCall :=
  match r with
  | .next t => t.bus
  | .fault _ => []
  | .refused _ => []

/-- What `run` reads from a bus in state `c`, found by asking: the answers known so far say which reads come next, and
the bus says what they answer. Each round settles one more read. -/
def Bus.settle (B : Bus) (c : B.Carrier) (run : List Byte → Result) : Nat → List Byte
  | 0 => []
  | n + 1 => (B.serve (callsOf (run (B.settle c run n))) c).1

/-- No tick makes more than five reads (20_memory.md R48). -/
def maxReads : Nat := 5

/-- Run an operation on a bus: with the bytes that bus answers, and with the state its calls leave the bus in. -/
def Bus.run (B : Bus) (c : B.Carrier) (run : List Byte → Result) : Host.Outcome (State × B.Carrier) Fault Refusal :=
  match run (B.settle c run maxReads) with
  | .next t => .next (t, (B.serve t.bus c).2)
  | .fault f => .fault f
  | .refused f => .refused f

/-- One `tick()` on a bus (30_encoding.md R70, 20_memory.md R40). -/
def stepOn (B : Bus) (c : B.Carrier) (s : State) : Host.Outcome (State × B.Carrier) Fault Refusal :=
  B.run c (fun l => step (s.setAnswers l))

/-- `reset()` on a bus (70_reset_and_hazards.md R230): the vector is read from that bus. -/
def resetOn (B : Bus) (c : B.Carrier) (d : Device) : Host.Outcome (State × B.Carrier) Fault Refusal :=
  B.run c (fun l => .next (resetFrom (deviceMem d) l))

/-- The simplest instance (R40): a flat array of 65536 bytes. -/
def flatBus : Bus where
  Carrier := Memory
  read m a := (m.read a.toNat, m)
  write m a v := m.write a.toNat v

/-- The bytes the reads of a list of calls were answered with. -/
def readBytes (calls : List BusCall) : List Byte :=
  calls.filterMap fun c =>
    match c with
    | .read _ v => some v
    | .write _ _ => none

end Sys2Proof.Machine
end

