-- ==== Sys2Proof/Safety.lean ====
section
/-! DEFINITION. The terms in which statements about the machine are made: the invariant, frames, the rows a mnemonic
has in the opcode table, the bus calls an instruction makes, who may change what, and the replay of bus calls on
memory and answers. Nothing of the machine depends on this file. -/

namespace Sys2Proof.Machine

/-! ### The invariant -/

/-- The largest value of the countdown with the default tables (10_state.md R26). -/
def maxWindow : Nat := 8

/-- Memory is in canonical form and the countdown is at most `maxWindow`. -/
structure State.Inv (s : State) : Prop where
  memory : s.mem.wf = true
  countdown : s.cycles ≤ maxWindow

/-- The invariant of a core that may not have been reset yet. -/
def Device.Inv : Device → Prop
  | .unreset m _ => m.wf = true
  | .running s => s.Inv

/-! ### Frames -/

/-- The 8-bit registers of 10_state.md R11 and R13. -/
inductive Reg where
  | a | x | y | sp
  deriving DecidableEq, Repr

/-- The value of a register. -/
def State.reg (s : State) : Reg → Byte
  | .a => s.a
  | .x => s.x
  | .y => s.y
  | .sp => s.sp

/-- Every register outside `regs`, every flag outside `flags` and every byte of memory outside `stored` is as
before. -/
structure Untouched (regs : List Reg) (flags : List Flag) (stored : List Addr) (s t : State) : Prop where
  regs : ∀ r, r ∉ regs → t.reg r = s.reg r
  flags : ∀ f, f ∉ flags → t.flag f = s.flag f
  memory : ∀ q, q ∉ stored → t.peek q = s.peek q

/-- `Untouched`, and the opcode register and both request latches are as before. -/
structure Frame (regs : List Reg) (flags : List Flag) (stored : List Addr) (s t : State) : Prop where
  untouched : Untouched regs flags stored s t
  opcode : t.opcode = s.opcode
  irq : t.irqPending = s.irqPending
  nmi : t.nmiPending = s.nmiPending

/-- The address of the byte after an instruction, from the state after its opcode fetch (10_state.md R14). -/
def afterOperand (o : Operand) (s : State) : Addr := s.pc + BitVec.ofNat 16 o.mode.operandBytes

/-- Z and N are those of a byte (10_state.md R20). -/
def FlagsOf (v : Byte) (t : State) : Prop := t.flag .z = decide (v = 0) ∧ t.flag .n = v.getLsbD 7

/-- The accumulator is written back to only in Implied mode (40_addressing_modes.md R94). -/
def backRegs (o : Operand) : List Reg := if o = .imp then [.a] else []

/-- The byte a write-back stores to: none in Implied mode, else the effective address (R94). -/
def backBytes (o : Operand) (s : State) : List Addr := if o = .imp then [] else [effAddr o s]

/-- The three bytes an interrupt entry or BRK stores to (60_exceptions.md R204). -/
def entryBytes (s : State) : List Addr := [stackAddr s.sp, stackAddr (s.sp - 1), stackAddr (s.sp - 2)]

/-- What an entry through a vector leaves, for a return address and a pushed status copy (R204). The two vector reads
are the first reads from `s`; no push can change what they are answered. -/
structure EntryOutcome (vec ret : Addr) (pushed : Byte) (s t : State) : Prop where
  high : t.peek (0x0100 + zext16 s.sp) = hi8 ret
  low : t.peek (0x0100 + zext16 (s.sp - 1)) = lo8 ret
  status : t.peek (0x0100 + zext16 (s.sp - 2)) = pushed
  sp : t.sp = s.sp - 3
  pc : t.pc = joinBytes (s.answerAt 1 (vec + 1)) (s.answerAt 0 vec)
  i : t.flag .i = true
  b : t.flag .b = false
  u : t.flag .u = false
  opcode : t.opcode = s.opcode
  answers : t.answers = s.answers.drop 2
  untouched : Untouched [.sp] [.i, .b, .u] (entryBytes s) s t

/-- The next reads from `u`, pops at these addresses in this order, are answered with the bytes that `t` holds there:
the stack is intact from `t` to `u`. -/
def IntactStack (slots : List Addr) (t u : State) : Prop :=
  ∀ (k : Nat) (q : Addr), slots[k]? = some q → u.answerAt k q = t.peek q

/-- What a branch leaves (45_branches.md R140); `s` is the state after the opcode fetch, so that `s.pc + 1` is the
address of the instruction after the branch. -/
structure BranchOutcome (taken : Bool) (disp : Byte) (s t : State) : Prop where
  pc : t.pc = if taken then s.pc + 1 + sext16 disp else s.pc + 1
  cycles : t.cycles = s.cycles +
    (if taken then (if hi8 (s.pc + 1 + sext16 disp) = hi8 (s.pc + 1) then 1 else 2) else 0)
  bus : t.bus = s.bus ++ [.read s.pc disp]
  frame : Frame [] [] [] s t

/-! ### The opcode table, row by row -/

/-- The rows of a mnemonic in the table the machine decodes with, in opcode order: mode, opcode byte, base count. -/
def rowsOf (m : Mnemonic) : List (Mode × Byte × Nat) :=
  (List.range 256).filterMap fun n =>
    if (descriptor (BitVec.ofNat 8 n)).mnemonic = m then
      some ((descriptor (BitVec.ofNat 8 n)).mode, BitVec.ofNat 8 n, baseCycles (BitVec.ofNat 8 n))
    else none

/-! ### Time -/

/-- The cycles an instruction takes beyond its base count (40_addressing_modes.md R95, 45_branches.md R140,
70_reset_and_hazards.md R245); the state is the one after the opcode fetch. -/
def extraCycles (i : Instr) (s : State) : Nat :=
  let ifTaken (taken : Bool) (d : Byte) : Nat :=
    if taken then (if hi8 (s.pc + 1 + sext16 d) = hi8 (s.pc + 1) then 1 else 2) else 0
  match i with
  | .lda o | .ldx o | .ldy o | .adc o | .sbc o | .and o | .ora o | .eor o | .cmp o => (pageCross o s).toNat
  | .bcc d => ifTaken (!s.flag .c) d
  | .bcs d => ifTaken (s.flag .c) d
  | .beq d => ifTaken (s.flag .z) d
  | .bne d => ifTaken (!s.flag .z) d
  | .bmi d => ifTaken (s.flag .n) d
  | .bpl d => ifTaken (!s.flag .n) d
  | .bvc d => ifTaken (!s.flag .v) d
  | .bvs d => ifTaken (s.flag .v) d
  | _ => 0

/-- The boundary takes an interrupt instead of fetching an instruction (60_exceptions.md R206). -/
def takesInterrupt (s : State) : Bool := s.nmiPending || (s.irqPending && !s.flag .i)

/-! ### Bus calls -/

/-- A bus call without its byte. -/
inductive Access where
  | read (addr : Addr)
  | write (addr : Addr)
  deriving DecidableEq, Repr

/-- The kind and address of a bus call. -/
def accessOf : BusCall → Access
  | .read a _ => .read a
  | .write a _ => .write a

/-- The calls of a resolver, in order (20_memory.md R48, 40_addressing_modes.md R81 to R92). -/
def resolverCalls (o : Operand) (s : State) : List Access :=
  match o with
  | .imp | .imm _ => []
  | .zp0 _ | .zpx _ | .zpy _ | .rel _ => [.read s.pc]
  | .abs _ | .abx _ | .aby _ => [.read s.pc, .read (s.pc + 1)]
  | .ind w => [.read s.pc, .read (s.pc + 1), .read w,
      .read (if lo8 w = 0xFF then joinBytes (hi8 w) 0 else w + 1)]
  | .izx z => [.read s.pc, .read (zext16 (z + s.x)), .read (zext16 (z + s.x + 1))]
  | .izy z => [.read s.pc, .read (zext16 z), .read (zext16 (z + 1))]

/-- The calls of `Fetch()` (R48, R93). -/
def fetchCalls (o : Operand) (s : State) : List Access := if o = .imp then [] else [.read (effAddr o s)]

/-- The calls of a write-back (R48, R94). -/
def backCalls (o : Operand) (s : State) : List Access := if o = .imp then [] else [.write (effAddr o s)]

/-- The calls of every handler, in order (R48); the state is the one after the opcode fetch. -/
def handlerCalls (i : Instr) (s : State) : List Access :=
  match i with
  | .lda o | .ldx o | .ldy o | .adc o | .sbc o | .and o | .ora o | .eor o | .bit o | .cmp o | .cpx o | .cpy o =>
    fetchCalls o s
  | .sta o | .stx o | .sty o => [.write (effAddr o s)]
  | .asl o | .lsr o | .rol o | .ror o => fetchCalls o s ++ backCalls o s
  | .inc o | .dec o => fetchCalls o s ++ [.write (effAddr o s)]
  | .pha | .php => [.write (stackAddr s.sp)]
  | .pla | .plp => [.read (stackAddr (s.sp + 1))]
  | .jsr _ => [.write (stackAddr s.sp), .write (stackAddr (s.sp - 1))]
  | .rts => [.read (stackAddr (s.sp + 1)), .read (stackAddr (s.sp + 2))]
  | .brk => [.write (stackAddr s.sp), .write (stackAddr (s.sp - 1)), .write (stackAddr (s.sp - 2)),
      .read params.irqVector, .read (params.irqVector + 1)]
  | .rti => [.read (stackAddr (s.sp + 1)), .read (stackAddr (s.sp + 2)), .read (stackAddr (s.sp + 3))]
  | .bcc _ | .bcs _ | .beq _ | .bne _ | .bmi _ | .bpl _ | .bvc _ | .bvs _ | .jmp _ | .clc | .sec | .cld | .sed | .cli
  | .sei | .clv | .tax | .txa | .tay | .tya | .tsx | .txs | .inx | .iny | .dex | .dey | .nop | .ill _ => []

/-- Run bus calls on the coming answers and a memory: a write stores its byte, and a read must carry the next answer, or
the byte that is in memory when no answer is left (20_memory.md R40, R51); `none` when a read carries another byte. -/
def replay : List BusCall → List Byte → Memory → Option (Memory × List Byte)
  | [], l, m => some (m, l)
  | .read a v :: rest, l, m => if l.headD (m.read a.toNat) = v then replay rest l.tail m else none
  | .write a v :: rest, l, m => replay rest l (m.write a.toNat v)

/-! ### Who may change what -/

/-- The instructions that write a flag (10_state.md R21). -/
def flagWriters : Flag → List Mnemonic
  | .c => [.adc, .sbc, .asl, .lsr, .rol, .ror, .cmp, .cpx, .cpy, .clc, .sec, .plp, .rti]
  | .z | .n => [.lda, .ldx, .ldy, .pla, .tax, .tay, .txa, .tya, .tsx, .inx, .iny, .dex, .dey, .inc, .dec, .and, .ora,
      .eor, .asl, .lsr, .rol, .ror, .adc, .sbc, .cmp, .cpx, .cpy, .bit, .plp, .rti]
  | .i => [.sei, .cli, .brk, .plp, .rti]
  | .d => [.sed, .cld, .plp, .rti]
  | .b => [.php, .brk, .rti, .plp]
  | .u => [.plp, .php, .brk, .rti]
  | .v => [.adc, .sbc, .bit, .clv, .plp, .rti]

/-- The instructions that write a register (10_state.md R11, R13). -/
def regWriters : Reg → List Mnemonic
  | .a => [.lda, .adc, .sbc, .and, .ora, .eor, .pla, .txa, .tya, .asl, .lsr, .rol, .ror]
  | .x => [.ldx, .tax, .tsx, .inx, .dex]
  | .y => [.ldy, .tay, .iny, .dey]
  | .sp => [.pha, .php, .pla, .plp, .jsr, .rts, .brk, .rti, .txs]

/-- The instructions whose handler calls `Fetch()` (40_addressing_modes.md R93). -/
def operandFetchers : List Mnemonic :=
  [.lda, .ldx, .ldy, .adc, .sbc, .and, .ora, .eor, .bit, .cmp, .cpx, .cpy, .asl, .lsr, .rol, .ror, .inc, .dec]

/-- The instructions that can make a bus write (20_memory.md R48). -/
def memoryWriters : List Mnemonic :=
  [.sta, .stx, .sty, .asl, .lsr, .rol, .ror, .inc, .dec, .pha, .php, .jsr, .brk]

/-- The instructions that write the program counter themselves (10_state.md R15). -/
def pcWriters : List Mnemonic :=
  [.bcc, .bcs, .beq, .bne, .bmi, .bpl, .bvc, .bvs, .jmp, .jsr, .rts, .brk, .rti]

/-- One instruction several times, without what a tick does around it. -/
def execTimes : Nat → Instr → State → Result
  | 0, _, s => .next s
  | n + 1, i, s =>
    match exec i s with
    | .next t => execTimes n i t
    | .fault r => .fault r
    | .refused r => .refused r

end Sys2Proof.Machine
end

