-- ==== Sys2Proof/Certificates/Slice0/Obligations.lean ====
section
/-! DEFINITION. The statements for the provers. Where a statement rests on a choice of the model and not on a rule of the
spec, its docstring names the assumption log entry. `exec` is stated on the state after the opcode fetch
(30_encoding.md R70), where the program counter is already past the opcode byte; `StepRunsTheInstructionAtThePc`
connects it with a step. -/

open Sys2Proof Sys2Proof.Machine

/-- O1. One word of each family, written out byte by byte from R62 and R66, decodes to the instruction it stands for,
with the operand assembled low byte first and the bytes after it left over. (R60, R62, R66, 30_encoding.md section
2) -/
def Obligations.DecodeReadsWordsWrittenFromTheSpec : Prop :=
  decode [0xB1, 0x86, 0x77] = .ok (.lda (.izy 0x86), [0x77]) ∧
  decode [0x96, 0xFF] = .ok (.stx (.zpy 0xFF), []) ∧
  decode [0x7D, 0xF0, 0x12] = .ok (.adc (.abx 0x12F0), []) ∧
  decode [0x6A, 0x01] = .ok (.ror .imp, [0x01]) ∧
  decode [0xC0, 0x04] = .ok (.cpy (.imm 0x04), []) ∧
  decode [0xD0, 0xFB] = .ok (.bne 0xFB, []) ∧
  decode [0x6C, 0xFF, 0x30] = .ok (.jmp (.ind 0x30FF), []) ∧
  decode [0x20, 0x34, 0x12] = .ok (.jsr 0x1234, []) ∧
  decode [0x28] = .ok (.plp, []) ∧
  decode [0x00, 0xEA] = .ok (.brk, [0xEA]) ∧
  decode [0xEB, 0x10] = .ok (.ill 0xEB, [0x10])

/-- O2. For every well-formed instruction, with every operand value, decoding its encoding followed by any bytes gives
that instruction and those bytes. The decoder reads the matrix of R66 and the encoder the list by mnemonic of R67.
(R60, R62, R66, R67, R68) -/
def Obligations.DecodeOfEncodeIsTheInstruction : Prop :=
  ∀ (i : Instr) (rest : List Byte), i.wellFormed = true → decode (encode i ++ rest) = .ok (i, rest)

/-- O3. Whenever decoding a byte list answers an instruction and a rest, the instruction is well-formed and the list is
its encoding followed by the rest: every byte string has one meaning and no bit of it is dropped. (R60, R65, R66,
R67, R68) -/
def Obligations.EncodeOfDecodeIsTheBytes : Prop :=
  ∀ (bytes rest : List Byte) (i : Instr), decode bytes = .ok (i, rest) →
    i.wellFormed = true ∧ bytes = encode i ++ rest

/-- O4. Any opcode byte followed by two bytes decodes. A byte is illegal exactly when its mnemonic is ILL; 151 of the
256 bytes are documented, on 56 mnemonics, and 105 are illegal. A byte list is rejected only when it is empty
(noOpcode) or ends inside an instruction (missingOperand with its opcode byte): that clause is the model's choice
for byte lists, which no step meets (assumption log 15, DESIGN CHOICE), not a rule of the spec. (R65, R66, R68,
30_encoding.md section 3) -/
def Obligations.EveryOpcodeByteHasOneDescriptor : Prop :=
  (∀ (op b1 b2 : Byte) (rest : List Byte), ∃ i rest', decode (op :: b1 :: b2 :: rest) = .ok (i, rest')) ∧
  (∀ (bytes : List Byte) (e : DecodeError), decode bytes = .error e →
    (bytes = [] ∧ e = .noOpcode) ∨
    ∃ op rest, bytes = op :: rest ∧ rest.length < (descriptor op).mode.operandBytes ∧ e = .missingOperand op) ∧
  (∀ op : Byte, (descriptor op).mnemonic = .ill ↔ op ∈ illegalBytes) ∧
  illegalBytes.Nodup ∧ illegalBytes.length = 105 ∧
  ((List.range 256).filter fun n => (descriptor (BitVec.ofNat 8 n)).mnemonic ≠ .ill).length = 151 ∧
  (((List.range 256).map fun n => (descriptor (BitVec.ofNat 8 n)).mnemonic).filter (· ≠ .ill)).dedup.length = 56

/-- O5. A decoded instruction consumes 1, 2 or 3 bytes: one for the opcode and 0, 1 or 2 for the operand of its mode
(Implied 0; Immediate, the Zero-Page modes, Relative, Indirect,X, Indirect,Y 1; the Absolute modes and Indirect 2),
and any other list with the same first byte consumes as many. (R60, R61, R98, 30_encoding.md section 1) -/
def Obligations.LengthIsDecidedByTheOpcodeAlone : Prop :=
  ∀ (op : Byte) (tail tail' rest rest' : List Byte) (i j : Instr),
    decode (op :: tail) = .ok (i, rest) → decode (op :: tail') = .ok (j, rest') →
      i.operand.mode = j.operand.mode ∧
      tail.length = rest.length + i.operand.mode.operandBytes ∧
      tail'.length = rest'.length + i.operand.mode.operandBytes ∧
      (i.operand.mode.operandBytes = 0 ↔ i.operand.mode = .imp) ∧
      (i.operand.mode.operandBytes = 1 ↔
        i.operand.mode ∈ [.imm, .zp0, .zpx, .zpy, .rel, .izx, .izy]) ∧
      (i.operand.mode.operandBytes = 2 ↔ i.operand.mode ∈ [.abs, .abx, .aby, .ind])

/-- O6. If the countdown is 0, no interrupt is taken, and the bytes the bus answers at the program counter, at addresses
modulo 65536, are the encoding of a well-formed instruction, then the step is that instruction's exec on the state
after the opcode fetch, followed by the countdown. The opcode fetch reads the opcode byte (its only bus call),
advances the program counter by one, clears the scratch, loads the base count, uses one answer of the bus up and
drops a masked IRQ request; everything else is as before. (R61, R65, R70, 30_encoding.md section 5) -/
def Obligations.StepRunsTheInstructionAtThePc : Prop :=
  ∀ (s t : State) (i : Instr),
    s.cycles = 0 → takesInterrupt s = false → i.wellFormed = true →
    (∀ n, n < i.length → s.answerAt n (s.pc + BitVec.ofNat 16 n) = (encode i).getD n 0) →
    exec i (beginInstr ((s.setBus []).setIrq false)) = .next t →
      step s = .next { t with cycles := t.cycles - 1 } ∧
      beginInstr ((s.setBus []).setIrq false) =
        { s with opcode := s.answerAt 0 s.pc, pc := s.pc + 1, fetched := 0, addrAbs := 0, addrRel := 0,
                 cycles := baseCycles (s.answerAt 0 s.pc), irqPending := false,
                 bus := [.read s.pc (s.answerAt 0 s.pc)], answers := s.answers.drop 1 }

/-- O7. Every state has a next state under step: no opcode byte, operand value, address or register value makes the
machine trap, fault, halt or refuse. (R200) -/
def Obligations.EveryStepAnswersANextState : Prop :=
  ∀ s : State, ∃ t, step s = .next t

/-- O8. In a state whose countdown is not 0 a step makes no bus call and changes nothing but the countdown, which loses
one; requests stay latched. (R70, R71, R72) -/
def Obligations.IdleTickOnlyCountsDown : Prop :=
  ∀ s : State, s.cycles ≠ 0 → step s = .next { s with cycles := s.cycles - 1, bus := [] }

/-- O9. From a state that meets the invariant, with a countdown n that is not 0, the run of k ticks for k up to n
answers the same state with the countdown at n - k and no bus call recorded (k at least 1), and n is at most 8; so
the boundary is reached after exactly n ticks and not earlier. (R26, R72, R231) -/
def Obligations.WindowLastsItsCountdown : Prop :=
  ∀ s : State, s.Inv → s.cycles ≤ 8 ∧
    ∀ k, 1 ≤ k → k ≤ s.cycles →
      Host.Core.run Sys2Proof.core k s = .next { s with cycles := s.cycles - k, bus := [] }

/-- O10. If a state has its memory in canonical form (strictly rising addresses inside the 16-bit space, no entry equal
to what an unlisted address reads as) and its countdown at most 8, so has the state after a step. The bound rests on
the default base counts and latencies (assumption log 5 and 6). (R26, R40, R42, R245) -/
def Obligations.StepKeepsInvariant : Prop :=
  ∀ s t : State, s.Inv → step s = .next t → t.Inv

/-- O11. State.reset has canonical memory and a countdown of at most 8. The value 8 of the countdown is the model's
parameter (assumption log 5). (R26, R31) -/
def Obligations.ResetMeetsInvariant : Prop :=
  State.reset.Inv ∧ State.reset.cycles = maxWindow

/-- O12. For every list of the host's four operations, run on a core that meets the invariant (a never-reset core: its
memory is canonical), the core it answers meets the invariant. (R27, R29, R217, R230) -/
def Obligations.HostOperationsKeepInvariant : Prop :=
  ∀ (ops : List HostOp) (d e : Device), d.Inv → hostOps ops d = .next e → e.Inv

/-- O13. For every step, running the bus calls it recorded, in order, on the answers and the memory before it, with each
read required to carry the next answer of the bus, or the byte that is in memory at that point when no answer is
left, succeeds and gives the memory and the answers after it. So there is no unrecorded read or write, and on the
flat array every fetch, operand, pointer, stack and vector read sees the most recent write in program order. (R40,
R41, R42, R46, R51, R54) -/
def Obligations.MemoryIsTheReplayOfTheBusCalls : Prop :=
  ∀ s t : State, step s = .next t → replay t.bus s.answers s.mem = some (t.mem, t.answers)

/-- O14. For every bus, whatever its reads change and answer, and every state of it: stepOn answers a next state t and
the state of the bus after exactly the calls t records, made in order; the bytes recorded at its reads are those the
bus answers; t is the step with those bytes as answers, none left over, and the only one: a step with other bytes
whose recorded reads are what the bus answers to them is the same. So is resetOn for reset(). (R40, R41, R42, R46,
R48, 00_scope.md R3) -/
def Obligations.AnyBusAnswersTheStep : Prop :=
  ∀ (B : Bus) (c : B.Carrier),
    (∀ s : State, ∃ (t : State) (c' : B.Carrier), stepOn B c s = .next (t, c') ∧
      B.serve t.bus c = (readBytes t.bus, c') ∧
      step (s.setAnswers (readBytes t.bus)) = .next t ∧ t.answers = [] ∧
      ∀ (l : List Byte) (u : State), step (s.setAnswers l) = .next u →
        readBytes u.bus = l → (B.serve u.bus c).1 = l → u = t) ∧
    (∀ d : Device, ∃ (t : State) (c' : B.Carrier), resetOn B c d = .next (t, c') ∧
      B.serve t.bus c = (readBytes t.bus, c') ∧
      t = resetFrom (deviceMem d) (readBytes t.bus) ∧ t.answers = [])

/-- O15. In a state whose queue of answers is empty, the step and the tick on the flat-array bus, whose state is the
memory, answer the same next state, and the flat array after it is that state's memory, with the queue still empty;
so do reset() on a core with an empty queue and reset() on the flat array. (R40, R51, 20_memory.md section 1) -/
def Obligations.TheFlatArrayIsABus : Prop :=
  (∀ s : State, s.answers = [] → ∃ t, step s = .next t ∧ t.answers = [] ∧
    stepOn flatBus s.mem s = .next (t, t.mem)) ∧
  (∀ d : Device, deviceAnswers d = [] → ∃ t, hostOp .reset d = .next (.running t) ∧ t.answers = [] ∧
    resetOn flatBus (deviceMem d) d = .next (t, t.mem))

/-- O16. After the opcode fetch, an instruction makes exactly the calls of its resolver and then of its handler, in the
order of their rules, at the addresses the rules give, and each read uses one answer of the bus up; there is no
dummy access. (R46, R48, 20_memory.md section 4) -/
def Obligations.BusCallsOfEveryInstruction : Prop :=
  ∀ (i : Instr) (s t : State), exec i s = .next t → ∃ calls, t.bus = s.bus ++ calls ∧
    calls.map accessOf = resolverCalls i.operand s ++ handlerCalls i s ∧
    t.answers = s.answers.drop (readBytes calls).length

/-- O17. A step records a bus call exactly when the countdown was 0. At a boundary that takes an interrupt the calls are
three stack writes and two vector reads, with no opcode fetch; at any other boundary the first call is the read of
the opcode byte at the program counter. (R46, R214, R217, R205) -/
def Obligations.OnlyBoundaryTicksCallTheBus : Prop :=
  ∀ s t : State, step s = .next t →
    (t.bus ≠ [] ↔ s.cycles = 0) ∧
    (s.cycles = 0 → takesInterrupt s = true →
      t.bus.map accessOf =
        [.write (stackAddr s.sp), .write (stackAddr (s.sp - 1)), .write (stackAddr (s.sp - 2)),
          .read (if s.nmiPending then params.nmiVector else params.irqVector),
          .read (if s.nmiPending then params.nmiVector + 1 else params.irqVector + 1)]) ∧
    (s.cycles = 0 → takesInterrupt s = false → t.bus.head? = some (.read s.pc (s.answerAt 0 s.pc)))

/-- O18. At a boundary with the NMI latch set the step answers a next state in which the program counter, its high byte
first, and the status with B = 0 and U = 1 and the old I are pushed, SP is 3 less, I = 1, B = 0, U = 0, the program
counter is the word at the NMI vector, the countdown is NMI_CYCLES less the tick itself, the NMI latch is clear and
the IRQ latch as before; the scratch, A, X, Y, the other flags and all other memory are unchanged. (R202, R204,
R205, R206) -/
def Obligations.NmiIsTakenAtABoundaryWhateverIIs : Prop :=
  ∀ s : State, s.cycles = 0 → s.nmiPending = true →
    ∃ t, step s = .next t ∧
      EntryOutcome params.nmiVector s.pc ((s.p &&& 0xEF) ||| 0x20) s t ∧
      t.cycles = params.nmiCycles - 1 ∧ t.nmiPending = false ∧ t.irqPending = s.irqPending ∧
      t.fetched = s.fetched ∧ t.addrAbs = s.addrAbs ∧ t.addrRel = s.addrRel

/-- O19. At a boundary with the IRQ latch set, no NMI latched and I = 0, the step answers a next state that is the entry
through the IRQ vector: the same pushes as for NMI, the countdown IRQ_CYCLES less the tick itself, and the IRQ latch
clear. (R203, R204, R205, R206) -/
def Obligations.IrqIsTakenWhenIIsClear : Prop :=
  ∀ s : State, s.cycles = 0 → s.nmiPending = false → s.irqPending = true → s.flag .i = false →
    ∃ t, step s = .next t ∧
      EntryOutcome params.irqVector s.pc ((s.p &&& 0xEF) ||| 0x20) s t ∧
      t.cycles = params.irqCycles - 1 ∧ t.nmiPending = false ∧ t.irqPending = false ∧
      t.fetched = s.fetched ∧ t.addrAbs = s.addrAbs ∧ t.addrRel = s.addrRel

/-- O20. At a boundary with no NMI latched and I = 1, the step with the IRQ latch set equals the step with it clear, and
the state after it has the latch clear. Inside a window the latch is kept. (R203, R206) -/
def Obligations.MaskedIrqIsDropped : Prop :=
  ∀ s t : State, s.nmiPending = false → s.flag .i = true → step s = .next t →
    (s.cycles = 0 → step (s.setIrq true) = step (s.setIrq false) ∧ t.irqPending = false) ∧
    (s.cycles ≠ 0 → t.irqPending = s.irqPending)

/-- O21. If a step takes an interrupt, or BRK is executed, and answers t, then RTI on any state u that has the SP of t,
and whose pops the bus answers with the three bytes that stand in the frame in t, answers the program counter before
the interrupt (for BRK the address after its signature byte), the stack pointer and the six flags C, Z, I, D, V, N
as before the entry, and B = 0 and U = 0. Neither the entry nor the RTI changes A, X or Y. (R180, R181, R204, R207,
95_test_vectors.md part 5) -/
def Obligations.EntryThenReturnRestores : Prop :=
  (∀ s t u v : State, s.cycles = 0 → takesInterrupt s = true → step s = .next t →
    u.sp = t.sp → IntactStack [stackAddr (s.sp - 2), stackAddr (s.sp - 1), stackAddr s.sp] t u →
    exec .rti u = .next v →
      v.pc = s.pc ∧ v.sp = s.sp ∧ (∀ r ∈ [Reg.a, .x, .y], t.reg r = s.reg r ∧ v.reg r = u.reg r) ∧
      (∀ f, f ∉ [.b, .u] → v.flag f = s.flag f) ∧ v.flag .b = false ∧ v.flag .u = false) ∧
  (∀ s t u v : State, exec .brk s = .next t →
    u.sp = t.sp → IntactStack [stackAddr (s.sp - 2), stackAddr (s.sp - 1), stackAddr s.sp] t u →
    exec .rti u = .next v →
      v.pc = s.pc + 1 ∧ v.sp = s.sp ∧ (∀ r ∈ [Reg.a, .x, .y], t.reg r = s.reg r ∧ v.reg r = u.reg r) ∧
      (∀ f, f ∉ [.b, .u] → v.flag f = s.flag f) ∧ v.flag .b = false ∧ v.flag .u = false)

/-- O22. The host operation reset answers, from any core, running or never reset, a running core with A = X = Y = 0, SP
= SP_RESET, P = 0x20, PC the little-endian word the bus answers at RESET_VECTOR, the scratch and the opcode register
0, the countdown RESET_CYCLES and both latches clear; its bus calls are the two vector reads, low byte first; memory
is as it was. On empty memory with no answer queued this is State.reset (the word 0x0000 there is assumption log 1,
DESIGN CHOICE). (R31, R230, R206, 70_reset_and_hazards.md section 1) -/
def Obligations.ResetGivesTheStatedValues : Prop :=
  (∀ d : Device, ∃ t : State, hostOp .reset d = .next (.running t) ∧
    t.a = 0 ∧ t.x = 0 ∧ t.y = 0 ∧ t.sp = params.spReset ∧ t.p = 0x20 ∧
    t.pc.toNat = ((deviceAnswers d).getD 0 ((deviceMem d).read params.resetVector.toNat)).toNat +
      256 * ((deviceAnswers d).getD 1 ((deviceMem d).read (params.resetVector + 1).toNat)).toNat ∧
    t.fetched = 0 ∧ t.addrAbs = 0 ∧ t.addrRel = 0 ∧ t.opcode = 0 ∧ t.cycles = params.resetCycles ∧
    t.irqPending = false ∧ t.nmiPending = false ∧ t.mem = deviceMem d ∧
    t.answers = (deviceAnswers d).drop 2 ∧
    t.bus.map accessOf = [.read params.resetVector, .read (params.resetVector + 1)]) ∧
  hostOp .reset (.unreset [] []) = .next (.running State.reset)

/-- O23. After reset() from any state, k ticks for k from 1 to RESET_CYCLES only count down, with no bus call; after
RESET_CYCLES ticks the countdown is 0 and the next tick fetches the opcode at the word of the reset vector. (R230,
R231) -/
def Obligations.ResetLatencyIsIdle : Prop :=
  ∀ s : State,
    (∀ k, 1 ≤ k → k ≤ params.resetCycles → Host.Core.run Sys2Proof.core k (hostReset s) =
      .next { hostReset s with cycles := params.resetCycles - k, bus := [] }) ∧
    ∃ t : State, Host.Core.run Sys2Proof.core (params.resetCycles + 1) (hostReset s) = .next t ∧
      t.opcode = s.answerAt 2
        (joinBytes (s.answerAt 1 (params.resetVector + 1)) (s.answerAt 0 params.resetVector)) ∧
      t.bus.head? = some (BusCall.read
        (joinBytes (s.answerAt 1 (params.resetVector + 1)) (s.answerAt 0 params.resetVector)) t.opcode)

/-- O24. On a core that was never reset, every operation other than reset is refused by name and nothing can be read; a
list of operations answers a core only if it is empty or begins with reset. (R32) -/
def Obligations.NeverResetCoreAdmitsOnlyReset : Prop :=
  ∀ (m : Memory) (l : List Byte) (op : HostOp) (ops : List HostOp),
    deviceView (.unreset m l) = none ∧
    (op ≠ .reset → hostOp op (.unreset m l) = .refused .neverReset) ∧
    (∃ s, hostOp .reset (.unreset m l) = .next (.running s)) ∧
    (∀ e, hostOps (op :: ops) (.unreset m l) = .next e → op = .reset)

/-- O25. With the default REQUEST_ONLY_AT_BOUNDARY (false, assumption log 9) each request answers the same state with
its latch set, whatever the countdown is; a second request merges with the first; and the accessors show no
difference. (R27, R202, R203, R209) -/
def Obligations.RequestsOnlySetTheirLatch : Prop :=
  ∀ s : State,
    requestInterrupt s = .next { s with irqPending := true } ∧
    requestNonmaskable s = .next { s with nmiPending := true } ∧
    hostOps [.requestInterrupt, .requestInterrupt] (.running s) = hostOps [.requestInterrupt] (.running s) ∧
    hostOps [.requestNonmaskable, .requestNonmaskable] (.running s) = hostOps [.requestNonmaskable] (.running s) ∧
    (∀ e, hostOps [.requestInterrupt, .requestNonmaskable] (.running s) = .next e → deviceView e = some (viewOf s))

/-- O26. For every instruction that runs, addr_abs afterwards is, by the mode of its operand: the address of the operand
byte (Immediate); the operand (Zero-Page, Absolute); the operand plus X or Y modulo 256 (Zero-Page,X, Zero-Page,Y)
or modulo 65536 (Absolute,X, Absolute,Y); the word at the pointer, whose high byte comes from the start of the page
when the pointer ends in 0xFF (Indirect); the word at a zero-page pointer both of whose bytes lie in the zero page,
at operand + X (Indirect,X) or at the operand with Y added to the word (Indirect,Y). In Implied and Relative it is
as before; in Relative addr_rel is the sign-extended operand. The operand byte is A, the immediate value, or the
byte the bus answers at the effective address to the read after the resolver's: with no answer queued, the byte in
memory there. (R82, R83, R84, R85, R86, R87, R88, R89, R90, R91, R92, R98) -/
def Obligations.ResolversGiveTheEffectiveAddress : Prop :=
  (∀ (i : Instr) (s t : State), exec i s = .next t →
    (i.operand = .imp → t.addrAbs = s.addrAbs ∧ t.addrRel = s.addrRel) ∧
    (∀ v, i.operand = .imm v → t.addrAbs = s.pc) ∧
    (∀ z, i.operand = .zp0 z → t.addrAbs.toNat = z.toNat) ∧
    (∀ z, i.operand = .zpx z → t.addrAbs.toNat = (z.toNat + s.x.toNat) % 256) ∧
    (∀ z, i.operand = .zpy z → t.addrAbs.toNat = (z.toNat + s.y.toNat) % 256) ∧
    (∀ d, i.operand = .rel d → t.addrAbs = s.addrAbs ∧
      t.addrRel.toNat = if d.toNat < 128 then d.toNat else 0xFF00 + d.toNat) ∧
    (∀ w, i.operand = .abs w → t.addrAbs = w) ∧
    (∀ w, i.operand = .abx w → t.addrAbs.toNat = (w.toNat + s.x.toNat) % 65536) ∧
    (∀ w, i.operand = .aby w → t.addrAbs.toNat = (w.toNat + s.y.toNat) % 65536) ∧
    (∀ w, i.operand = .ind w → t.addrAbs.toNat = (s.answerAt 2 w).toNat +
      256 * (s.answerAt 3 (if w.toNat % 256 = 255 then w - 255 else w + 1)).toNat) ∧
    (∀ z, i.operand = .izx z → t.addrAbs.toNat =
      (s.answerAt 1 (BitVec.ofNat 16 ((z.toNat + s.x.toNat) % 256))).toNat +
        256 * (s.answerAt 2 (BitVec.ofNat 16 ((z.toNat + s.x.toNat + 1) % 256))).toNat) ∧
    (∀ z, i.operand = .izy z → t.addrAbs.toNat =
      ((s.answerAt 1 (BitVec.ofNat 16 z.toNat)).toNat +
        256 * (s.answerAt 2 (BitVec.ofNat 16 ((z.toNat + 1) % 256))).toNat + s.y.toNat) % 65536) ∧
    (i.operand ≠ .imp → i.operand.mode ≠ .rel → t.addrAbs = effAddr i.operand s ∧ t.addrRel = s.addrRel)) ∧
  (∀ (o : Operand) (s : State), operandByte .imp s = s.a ∧ (∀ v, operandByte (.imm v) s = v) ∧
    (o ≠ .imp → o.mode ≠ .imm → operandByte o s = s.answerAt (resolverCalls o s).length (effAddr o s)) ∧
    (s.answers = [] → ∀ (k : Nat) (q : Addr), s.answerAt k q = s.mem.read q.toNat))

/-- O27. In Absolute,X, Absolute,Y and Indirect,Y the signal is 1 exactly when the high byte of (base + index) modulo
65536 differs from that of the base, so a wrap from page 0xFF to page 0 counts and an index of 0 never does; in the
other nine modes it is 0. (R88, R89, R92, R99, R95) -/
def Obligations.PageCrossIsAChangeOfTheHighByte : Prop :=
  ∀ (s : State) (o : Operand),
    (∀ w : Addr, pageCross (.abx w) s = decide ((w.toNat + s.x.toNat) % 65536 / 256 ≠ w.toNat / 256)) ∧
    (∀ w : Addr, pageCross (.aby w) s = decide ((w.toNat + s.y.toNat) % 65536 / 256 ≠ w.toNat / 256)) ∧
    (∀ z : Byte, pageCross (.izy z) s =
      decide (((s.answerAt 1 (BitVec.ofNat 16 z.toNat)).toNat +
          256 * (s.answerAt 2 (BitVec.ofNat 16 ((z.toNat + 1) % 256))).toNat + s.y.toNat) % 65536 / 256
        ≠ (s.answerAt 2 (BitVec.ofNat 16 ((z.toNat + 1) % 256))).toNat)) ∧
    (s.x = 0 → ∀ w, pageCross (.abx w) s = false) ∧
    (o.mode ∉ [.abx, .aby, .izy] → pageCross o s = false)

/-- O28. For every instruction that runs, fetched afterwards is A as it was before in Implied mode; in the other modes
it is the operand byte for the eighteen handlers that R93 lists as callers of Fetch, and as before for every other
handler. (R22, R81, R93) -/
def Obligations.FetchedHoldsTheOperandByte : Prop :=
  ∀ (i : Instr) (s t : State), exec i s = .next t →
    t.fetched = if i.operand = .imp then s.a
      else if i.mnemonic ∈ operandFetchers then operandByte i.operand s else s.fetched

/-- O29. At a boundary that takes no interrupt, the tick that applies the instruction leaves the countdown at base count
+ extra cycles - 1, where the extra cycles are 1 for a page cross of LDA, LDX, LDY, ADC, SBC, AND, ORA, EOR, CMP,
and 1 or 2 for a taken branch on the same or another page, and nothing else; the total is at least 2 and at most 7.
The counts are the spec's defaults (assumption log 6). (R72, R95, R140, R244, R245) -/
def Obligations.EveryInstructionTakesItsCycles : Prop :=
  ∀ s t : State, s.cycles = 0 → takesInterrupt s = false → step s = .next t →
    t.cycles + 1 = baseCycles (s.answerAt 0 s.pc) +
      extraCycles s.nextInstr (beginInstr ((s.setBus []).setIrq false)) ∧
    2 ≤ t.cycles + 1 ∧ t.cycles + 1 ≤ 7

/-- O30. LDA, LDX and LDY have exactly the encodings and base counts of their rules; in every form they answer a next
state with the register equal to the operand byte, Z and N from that byte, the program counter after the
instruction, the page-cross cycle added, and every other register, flag, memory byte, latch and the opcode register
unchanged. (R100, R101, R102) -/
def Obligations.LoadsSetTheRegisterAndZeroNegative : Prop :=
  rowsOf .lda = [(.izx, 0xA1, 6), (.zp0, 0xA5, 3), (.imm, 0xA9, 2), (.abs, 0xAD, 4), (.izy, 0xB1, 5),
      (.zpx, 0xB5, 4), (.aby, 0xB9, 4), (.abx, 0xBD, 4)] ∧
  rowsOf .ldx = [(.imm, 0xA2, 2), (.zp0, 0xA6, 3), (.abs, 0xAE, 4), (.zpy, 0xB6, 4), (.aby, 0xBE, 4)] ∧
  rowsOf .ldy = [(.imm, 0xA0, 2), (.zp0, 0xA4, 3), (.abs, 0xAC, 4), (.zpx, 0xB4, 4), (.abx, 0xBC, 4)] ∧
  ∀ (o : Operand) (s : State),
    (∃ t, exec (.lda o) s = .next t ∧ t.a = operandByte o s ∧ FlagsOf (operandByte o s) t ∧
      t.pc = afterOperand o s ∧ t.cycles = s.cycles + (pageCross o s).toNat ∧ Frame [.a] [.z, .n] [] s t) ∧
    (∃ t, exec (.ldx o) s = .next t ∧ t.x = operandByte o s ∧ FlagsOf (operandByte o s) t ∧
      t.pc = afterOperand o s ∧ t.cycles = s.cycles + (pageCross o s).toNat ∧ Frame [.x] [.z, .n] [] s t) ∧
    (∃ t, exec (.ldy o) s = .next t ∧ t.y = operandByte o s ∧ FlagsOf (operandByte o s) t ∧
      t.pc = afterOperand o s ∧ t.cycles = s.cycles + (pageCross o s).toNat ∧ Frame [.y] [.z, .n] [] s t)

/-- O31. STA, STX and STY have exactly the encodings and base counts of their rules; in every form they answer a next
state in which the byte at the effective address is the register, every other byte of memory, every register and
every flag is unchanged, the program counter is after the instruction, no cycle is added, page cross or not, and the
one bus call after the resolver is that write (the target is not read). (R103, R104, R105) -/
def Obligations.StoresWriteTheRegisterAndNoFlag : Prop :=
  rowsOf .sta = [(.izx, 0x81, 6), (.zp0, 0x85, 3), (.abs, 0x8D, 4), (.izy, 0x91, 6), (.zpx, 0x95, 4),
      (.aby, 0x99, 5), (.abx, 0x9D, 5)] ∧
  rowsOf .stx = [(.zp0, 0x86, 3), (.abs, 0x8E, 4), (.zpy, 0x96, 4)] ∧
  rowsOf .sty = [(.zp0, 0x84, 3), (.abs, 0x8C, 4), (.zpx, 0x94, 4)] ∧
  ∀ (o : Operand) (s : State),
    (∃ t, exec (.sta o) s = .next t ∧ t.peek (effAddr o s) = s.a ∧
      t.pc = afterOperand o s ∧ t.cycles = s.cycles ∧
      t.bus.map accessOf = s.bus.map accessOf ++ resolverCalls o s ++ [.write (effAddr o s)] ∧
      Frame [] [] [effAddr o s] s t) ∧
    (∃ t, exec (.stx o) s = .next t ∧ t.peek (effAddr o s) = s.x ∧
      t.pc = afterOperand o s ∧ t.cycles = s.cycles ∧
      t.bus.map accessOf = s.bus.map accessOf ++ resolverCalls o s ++ [.write (effAddr o s)] ∧
      Frame [] [] [effAddr o s] s t) ∧
    (∃ t, exec (.sty o) s = .next t ∧ t.peek (effAddr o s) = s.y ∧
      t.pc = afterOperand o s ∧ t.cycles = s.cycles ∧
      t.bus.map accessOf = s.bus.map accessOf ++ resolverCalls o s ++ [.write (effAddr o s)] ∧
      Frame [] [] [effAddr o s] s t)

/-- O32. ADC has exactly the encodings and base counts of R110; in every form it answers a next state with A the low
byte of A + M + C, C set when the sum exceeds 255, Z when its low byte is 0, V bit 7 of (~(A ^ M)) & (A ^ result), N
bit 7 of the result, the program counter after the instruction, the page-cross cycle added, and everything else
unchanged; D is not read. (R110) -/
def Obligations.AdcAddsWithCarry : Prop :=
  rowsOf .adc = [(.izx, 0x61, 6), (.zp0, 0x65, 3), (.imm, 0x69, 2), (.abs, 0x6D, 4), (.izy, 0x71, 5),
      (.zpx, 0x75, 4), (.aby, 0x79, 4), (.abx, 0x7D, 4)] ∧
  ∀ (o : Operand) (s : State), ∃ t, exec (.adc o) s = .next t ∧
    (let m := operandByte o s
     let sum := s.a.toNat + m.toNat + (s.flag .c).toNat
     t.a.toNat = sum % 256 ∧
     t.flag .c = decide (sum > 255) ∧
     t.flag .z = decide (sum % 256 = 0) ∧
     t.flag .v = ((~~~(s.a ^^^ m)) &&& (s.a ^^^ BitVec.ofNat 8 sum)).getLsbD 7 ∧
     t.flag .n = decide (sum % 256 ≥ 128)) ∧
    t.pc = afterOperand o s ∧ t.cycles = s.cycles + (pageCross o s).toNat ∧ Frame [.a] [.c, .z, .v, .n] [] s t

/-- O33. SBC has exactly the encodings and base counts of R111; in every form it answers a next state in which A, C, Z,
V and N are those of the sum A + (M ^ 0xFF) + C; that is, A is A - M - (1 - C) modulo 256 and C is 1 exactly when A
>= M + (1 - C) as unsigned numbers; everything else is as for ADC. (R111) -/
def Obligations.SbcAddsTheComplement : Prop :=
  rowsOf .sbc = [(.izx, 0xE1, 6), (.zp0, 0xE5, 3), (.imm, 0xE9, 2), (.abs, 0xED, 4), (.izy, 0xF1, 5),
      (.zpx, 0xF5, 4), (.aby, 0xF9, 4), (.abx, 0xFD, 4)] ∧
  ∀ (o : Operand) (s : State), ∃ t, exec (.sbc o) s = .next t ∧
    (let m := operandByte o s ^^^ 0xFF
     let sum := s.a.toNat + m.toNat + (s.flag .c).toNat
     t.a.toNat = sum % 256 ∧
     t.flag .c = decide (sum > 255) ∧
     t.flag .z = decide (sum % 256 = 0) ∧
     t.flag .v = ((~~~(s.a ^^^ m)) &&& (s.a ^^^ BitVec.ofNat 8 sum)).getLsbD 7 ∧
     t.flag .n = decide (sum % 256 ≥ 128)) ∧
    t.pc = afterOperand o s ∧ t.cycles = s.cycles + (pageCross o s).toNat ∧
    t.a = s.a - operandByte o s - (1 - BitVec.ofNat 8 (s.flag .c).toNat) ∧
    t.flag .c = decide (s.a.toNat ≥ (operandByte o s).toNat + (1 - (s.flag .c).toNat)) ∧ Frame [.a] [.c, .z, .v, .n] [] s t

/-- O34. Reading A and the operand as two's-complement numbers, V after ADC is 1 exactly when A + M + C is outside
-128..127, and after SBC exactly when A - M - (1 - C) is. (R110, R111, R116) -/
def Obligations.OverflowIsSignedOverflow : Prop :=
  ∀ (o : Operand) (s t : State),
    (exec (.adc o) s = .next t →
      t.flag .v = decide (s.a.toInt + (operandByte o s).toInt + (s.flag .c).toNat < -128 ∨
        s.a.toInt + (operandByte o s).toInt + (s.flag .c).toNat > 127)) ∧
    (exec (.sbc o) s = .next t →
      t.flag .v = decide (s.a.toInt - (operandByte o s).toInt - (1 - ((s.flag .c).toNat : Int)) < -128 ∨
        s.a.toInt - (operandByte o s).toInt - (1 - ((s.flag .c).toNat : Int)) > 127))

/-- O35. AND, ORA and EOR have exactly the encodings and base counts of their rules; in every form they answer a next
state with A the bitwise and, or, exclusive or of A and the operand byte, Z and N from it, the page-cross cycle
added, and everything else unchanged. (R112, R113, R114) -/
def Obligations.LogicCombinesWithTheAccumulator : Prop :=
  rowsOf .and = [(.izx, 0x21, 6), (.zp0, 0x25, 3), (.imm, 0x29, 2), (.abs, 0x2D, 4), (.izy, 0x31, 5),
      (.zpx, 0x35, 4), (.aby, 0x39, 4), (.abx, 0x3D, 4)] ∧
  rowsOf .ora = [(.izx, 0x01, 6), (.zp0, 0x05, 3), (.imm, 0x09, 2), (.abs, 0x0D, 4), (.izy, 0x11, 5),
      (.zpx, 0x15, 4), (.aby, 0x19, 4), (.abx, 0x1D, 4)] ∧
  rowsOf .eor = [(.izx, 0x41, 6), (.zp0, 0x45, 3), (.imm, 0x49, 2), (.abs, 0x4D, 4), (.izy, 0x51, 5),
      (.zpx, 0x55, 4), (.aby, 0x59, 4), (.abx, 0x5D, 4)] ∧
  ∀ (o : Operand) (s : State),
    (∃ t, exec (.and o) s = .next t ∧ t.a = s.a &&& operandByte o s ∧ FlagsOf (s.a &&& operandByte o s) t ∧
      t.pc = afterOperand o s ∧ t.cycles = s.cycles + (pageCross o s).toNat ∧ Frame [.a] [.z, .n] [] s t) ∧
    (∃ t, exec (.ora o) s = .next t ∧ t.a = s.a ||| operandByte o s ∧ FlagsOf (s.a ||| operandByte o s) t ∧
      t.pc = afterOperand o s ∧ t.cycles = s.cycles + (pageCross o s).toNat ∧ Frame [.a] [.z, .n] [] s t) ∧
    (∃ t, exec (.eor o) s = .next t ∧ t.a = s.a ^^^ operandByte o s ∧ FlagsOf (s.a ^^^ operandByte o s) t ∧
      t.pc = afterOperand o s ∧ t.cycles = s.cycles + (pageCross o s).toNat ∧ Frame [.a] [.z, .n] [] s t)

/-- O36. BIT has exactly the encodings and base counts of R115; in every form it answers a next state with Z set when A
& M is 0, N and V bits 7 and 6 of the operand byte, no cycle added, and every register, every other flag and all
memory unchanged. R115 marks itself as general knowledge and names the refusal of the two opcodes as the alternative
(D32); that BIT runs with this meaning is the model's choice, assumption log 13 (DEDUCED). (R115,
92_eei_decisions.md D32) -/
def Obligations.BitTestsMemoryAgainstA : Prop :=
  rowsOf .bit = [(.zp0, 0x24, 3), (.abs, 0x2C, 4)] ∧
  ∀ (o : Operand) (s : State), ∃ t, exec (.bit o) s = .next t ∧
    t.flag .z = decide (s.a &&& operandByte o s = 0) ∧ t.flag .n = (operandByte o s).getLsbD 7 ∧
    t.flag .v = (operandByte o s).getLsbD 6 ∧
    t.pc = afterOperand o s ∧ t.cycles = s.cycles ∧ Frame [] [.z, .v, .n] [] s t

/-- O37. ASL and LSR have exactly the encodings and base counts of their rules; in Implied mode A, and in a memory mode
the byte at the effective address, becomes 2v modulo 256 or v div 2; C is the old bit 7 or bit 0; Z and N from the
result; no cycle is added; and everything else, A in a memory mode among it, is unchanged. (R120, R121) -/
def Obligations.ShiftsMoveOneBitAndInsertZero : Prop :=
  rowsOf .asl = [(.zp0, 0x06, 5), (.imp, 0x0A, 2), (.abs, 0x0E, 6), (.zpx, 0x16, 6), (.abx, 0x1E, 7)] ∧
  rowsOf .lsr = [(.zp0, 0x46, 5), (.imp, 0x4A, 2), (.abs, 0x4E, 6), (.zpx, 0x56, 6), (.abx, 0x5E, 7)] ∧
  ∀ (o : Operand) (s : State),
    (∃ t, exec (.asl o) s = .next t ∧
      (let v := operandByte o s
       let r := v.toNat * 2 % 256
       (if o = .imp then t.a else t.peek (effAddr o s)).toNat = r ∧
       t.flag .c = decide (v.toNat ≥ 128) ∧ t.flag .z = decide (r = 0) ∧ t.flag .n = decide (r ≥ 128)) ∧
      t.pc = afterOperand o s ∧ t.cycles = s.cycles ∧ Frame (backRegs o) [.c, .z, .n] (backBytes o s) s t) ∧
    (∃ t, exec (.lsr o) s = .next t ∧
      (let v := operandByte o s
       let r := v.toNat / 2
       (if o = .imp then t.a else t.peek (effAddr o s)).toNat = r ∧
       t.flag .c = decide (v.toNat % 2 = 1) ∧ t.flag .z = decide (r = 0) ∧ t.flag .n = decide (r ≥ 128)) ∧
      t.pc = afterOperand o s ∧ t.cycles = s.cycles ∧ Frame (backRegs o) [.c, .z, .n] (backBytes o s) s t)

/-- O38. ROL and ROR have exactly the encodings and base counts of their rules; the result is (2v + C) modulo 256 or v
div 2 + 128 C with the old C; C is the old bit 7 or bit 0; Z and N from the result; no cycle is added; and
everything else is unchanged. (R122, R123) -/
def Obligations.RotatesGoThroughCarry : Prop :=
  rowsOf .rol = [(.zp0, 0x26, 5), (.imp, 0x2A, 2), (.abs, 0x2E, 6), (.zpx, 0x36, 6), (.abx, 0x3E, 7)] ∧
  rowsOf .ror = [(.zp0, 0x66, 5), (.imp, 0x6A, 2), (.abs, 0x6E, 6), (.zpx, 0x76, 6), (.abx, 0x7E, 7)] ∧
  ∀ (o : Operand) (s : State),
    (∃ t, exec (.rol o) s = .next t ∧
      (let v := operandByte o s
       let r := (v.toNat * 2 + (s.flag .c).toNat) % 256
       (if o = .imp then t.a else t.peek (effAddr o s)).toNat = r ∧
       t.flag .c = decide (v.toNat ≥ 128) ∧ t.flag .z = decide (r = 0) ∧ t.flag .n = decide (r ≥ 128)) ∧
      t.pc = afterOperand o s ∧ t.cycles = s.cycles ∧ Frame (backRegs o) [.c, .z, .n] (backBytes o s) s t) ∧
    (∃ t, exec (.ror o) s = .next t ∧
      (let v := operandByte o s
       let r := v.toNat / 2 + 128 * (s.flag .c).toNat
       (if o = .imp then t.a else t.peek (effAddr o s)).toNat = r ∧
       t.flag .c = decide (v.toNat % 2 = 1) ∧ t.flag .z = decide (r = 0) ∧ t.flag .n = decide (r ≥ 128)) ∧
      t.pc = afterOperand o s ∧ t.cycles = s.cycles ∧ Frame (backRegs o) [.c, .z, .n] (backBytes o s) s t)

/-- O39. Executing ROL A nine times in a row answers a next state with A and C as before, and so does ROR A. (R122,
R123, 43_shift_rotate.md rule R122 corner cases) -/
def Obligations.NineRotatesRestoreTheAccumulator : Prop :=
  ∀ s : State,
    (∃ t, execTimes 9 (.rol .imp) s = .next t ∧ t.a = s.a ∧ t.flag .c = s.flag .c) ∧
    (∃ t, execTimes 9 (.ror .imp) s = .next t ∧ t.a = s.a ∧ t.flag .c = s.flag .c)

/-- O40. INC and DEC have exactly the encodings and base counts of their rules (there is no Implied form); in every form
the byte at the effective address becomes v + 1 or v - 1 modulo 256, Z and N are from it, C, V and the rest, every
register and every other byte of memory are unchanged, and no cycle is added. (R130, R131) -/
def Obligations.IncAndDecChangeOneMemoryByte : Prop :=
  rowsOf .inc = [(.zp0, 0xE6, 5), (.abs, 0xEE, 6), (.zpx, 0xF6, 6), (.abx, 0xFE, 7)] ∧
  rowsOf .dec = [(.zp0, 0xC6, 5), (.abs, 0xCE, 6), (.zpx, 0xD6, 6), (.abx, 0xDE, 7)] ∧
  ∀ (o : Operand) (s : State),
    (∃ t, exec (.inc o) s = .next t ∧ (o ≠ .imp → (t.peek (effAddr o s)).toNat = ((operandByte o s).toNat + 1) % 256 ∧
        t.flag .z = decide (((operandByte o s).toNat + 1) % 256 = 0) ∧ t.flag .n = decide (((operandByte o s).toNat + 1) % 256 ≥ 128)) ∧
      t.pc = afterOperand o s ∧ t.cycles = s.cycles ∧ Frame [] [.z, .n] [effAddr o s] s t) ∧
    (∃ t, exec (.dec o) s = .next t ∧ (o ≠ .imp → (t.peek (effAddr o s)).toNat = ((operandByte o s).toNat + 255) % 256 ∧
        t.flag .z = decide (((operandByte o s).toNat + 255) % 256 = 0) ∧ t.flag .n = decide (((operandByte o s).toNat + 255) % 256 ≥ 128)) ∧
      t.pc = afterOperand o s ∧ t.cycles = s.cycles ∧ Frame [] [.z, .n] [effAddr o s] s t)

/-- O41. INX, INY, DEX and DEY have exactly the encodings and base counts of their rules; they answer a next state with
the register one more or one less modulo 256, Z and N from it, and everything else unchanged. (R132, R133, R134,
R135) -/
def Obligations.RegisterIncrementsWrap : Prop :=
  rowsOf .inx = [(.imp, 0xE8, 2)] ∧
  rowsOf .iny = [(.imp, 0xC8, 2)] ∧
  rowsOf .dex = [(.imp, 0xCA, 2)] ∧
  rowsOf .dey = [(.imp, 0x88, 2)] ∧
  ∀ s : State,
    (∃ t, exec .inx s = .next t ∧ t.x.toNat = (s.x.toNat + 1) % 256 ∧ FlagsOf t.x t ∧
      t.pc = s.pc ∧ t.cycles = s.cycles ∧ Frame [.x] [.z, .n] [] s t) ∧
    (∃ t, exec .iny s = .next t ∧ t.y.toNat = (s.y.toNat + 1) % 256 ∧ FlagsOf t.y t ∧
      t.pc = s.pc ∧ t.cycles = s.cycles ∧ Frame [.y] [.z, .n] [] s t) ∧
    (∃ t, exec .dex s = .next t ∧ t.x.toNat = (s.x.toNat + 255) % 256 ∧ FlagsOf t.x t ∧
      t.pc = s.pc ∧ t.cycles = s.cycles ∧ Frame [.x] [.z, .n] [] s t) ∧
    (∃ t, exec .dey s = .next t ∧ t.y.toNat = (s.y.toNat + 255) % 256 ∧ FlagsOf t.y t ∧
      t.pc = s.pc ∧ t.cycles = s.cycles ∧ Frame [.y] [.z, .n] [] s t)

/-- O42. CMP, CPX and CPY have exactly the encodings and base counts of their rules; in every form they answer a next
state with C, Z and N of the unsigned comparison and 8-bit difference of A, X or Y with the operand byte, the page-
cross cycle added for CMP only, and every register, every other flag and all memory unchanged. (R136, R137, R138) -/
def Obligations.ComparesSetCarryZeroNegative : Prop :=
  rowsOf .cmp = [(.izx, 0xC1, 6), (.zp0, 0xC5, 3), (.imm, 0xC9, 2), (.abs, 0xCD, 4), (.izy, 0xD1, 5),
      (.zpx, 0xD5, 4), (.aby, 0xD9, 4), (.abx, 0xDD, 4)] ∧
  rowsOf .cpx = [(.imm, 0xE0, 2), (.zp0, 0xE4, 3), (.abs, 0xEC, 4)] ∧
  rowsOf .cpy = [(.imm, 0xC0, 2), (.zp0, 0xC4, 3), (.abs, 0xCC, 4)] ∧
  ∀ (o : Operand) (s : State),
    (∃ t, exec (.cmp o) s = .next t ∧ t.flag .c = decide (s.a.toNat ≥ (operandByte o s).toNat) ∧
      t.flag .z = decide (s.a = operandByte o s) ∧
      t.flag .n = decide ((s.a.toNat + 256 - (operandByte o s).toNat) % 256 ≥ 128) ∧
      t.pc = afterOperand o s ∧ t.cycles = s.cycles + (pageCross o s).toNat ∧ Frame [] [.c, .z, .n] [] s t) ∧
    (∃ t, exec (.cpx o) s = .next t ∧ t.flag .c = decide (s.x.toNat ≥ (operandByte o s).toNat) ∧
      t.flag .z = decide (s.x = operandByte o s) ∧
      t.flag .n = decide ((s.x.toNat + 256 - (operandByte o s).toNat) % 256 ≥ 128) ∧
      t.pc = afterOperand o s ∧ t.cycles = s.cycles ∧ Frame [] [.c, .z, .n] [] s t) ∧
    (∃ t, exec (.cpy o) s = .next t ∧ t.flag .c = decide (s.y.toNat ≥ (operandByte o s).toNat) ∧
      t.flag .z = decide (s.y = operandByte o s) ∧
      t.flag .n = decide ((s.y.toNat + 256 - (operandByte o s).toNat) % 256 ≥ 128) ∧
      t.pc = afterOperand o s ∧ t.cycles = s.cycles ∧ Frame [] [.c, .z, .n] [] s t)

/-- O43. Each branch has exactly the encoding and base count of its rule; it answers a next state in which, when its
condition holds (C = 0, C = 1, Z = 1, Z = 0, N = 1, N = 0, V = 0, V = 1), the program counter is the address after
the branch plus the sign-extended operand modulo 65536 and the countdown is 1 more, or 2 more when the target is on
another page than the address after the branch; when it does not hold the program counter is the address after the
branch and the countdown is unchanged. Registers, flags, memory and latches are unchanged, and the operand read is
the only bus call. (R140, R141, R142, R143, R144, R145, R146, R147, R148) -/
def Obligations.BranchesTestTheirFlag : Prop :=
  rowsOf .bcc = [(.rel, 0x90, 2)] ∧
  rowsOf .bcs = [(.rel, 0xB0, 2)] ∧
  rowsOf .beq = [(.rel, 0xF0, 2)] ∧
  rowsOf .bne = [(.rel, 0xD0, 2)] ∧
  rowsOf .bmi = [(.rel, 0x30, 2)] ∧
  rowsOf .bpl = [(.rel, 0x10, 2)] ∧
  rowsOf .bvc = [(.rel, 0x50, 2)] ∧
  rowsOf .bvs = [(.rel, 0x70, 2)] ∧
  ∀ (d : Byte) (s : State),
    (∃ t, exec (.bcc d) s = .next t ∧ BranchOutcome (!s.flag .c) d s t) ∧
    (∃ t, exec (.bcs d) s = .next t ∧ BranchOutcome (s.flag .c) d s t) ∧
    (∃ t, exec (.beq d) s = .next t ∧ BranchOutcome (s.flag .z) d s t) ∧
    (∃ t, exec (.bne d) s = .next t ∧ BranchOutcome (!s.flag .z) d s t) ∧
    (∃ t, exec (.bmi d) s = .next t ∧ BranchOutcome (s.flag .n) d s t) ∧
    (∃ t, exec (.bpl d) s = .next t ∧ BranchOutcome (!s.flag .n) d s t) ∧
    (∃ t, exec (.bvc d) s = .next t ∧ BranchOutcome (!s.flag .v) d s t) ∧
    (∃ t, exec (.bvs d) s = .next t ∧ BranchOutcome (s.flag .v) d s t)

/-- O44. JMP has exactly the encodings and base counts of R150; it answers a next state with the program counter at the
operand (Absolute) or at the word at the pointer, whose high byte comes from the same page when the pointer ends in
0xFF (Indirect); registers, flags and memory are unchanged, no cycle is added, and the only bus calls are the
operand and pointer reads (the target is not read). (R150) -/
def Obligations.JmpGoesToTheResolvedAddress : Prop :=
  rowsOf .jmp = [(.abs, 0x4C, 3), (.ind, 0x6C, 5)] ∧
  ∀ s : State,
    (∀ w, ∃ t, exec (.jmp (.abs w)) s = .next t ∧ t.pc = w ∧ t.cycles = s.cycles ∧ Frame [] [] [] s t ∧
      t.bus.map accessOf = s.bus.map accessOf ++ [.read s.pc, .read (s.pc + 1)]) ∧
    (∀ w, ∃ t, exec (.jmp (.ind w)) s = .next t ∧
      t.pc = joinBytes (s.answerAt 3 (if lo8 w = 0xFF then joinBytes (hi8 w) 0 else w + 1)) (s.answerAt 2 w) ∧
      t.cycles = s.cycles ∧ Frame [] [] [] s t ∧
      t.bus.map accessOf = s.bus.map accessOf ++ [.read s.pc, .read (s.pc + 1), .read w,
        .read (if lo8 w = 0xFF then joinBytes (hi8 w) 0 else w + 1)]) ∧
    (∀ o, ∃ t, exec (.jmp o) s = .next t ∧ t.pc = effAddr o s)

/-- O45. JSR has exactly the encoding and base count of R151; it answers a next state with the high and low byte of the
address of its last byte stored at 0x0100 + SP and 0x0100 + SP - 1 (offset modulo 256), SP 2 less modulo 256, the
program counter at the target, and every other register, every flag and every other byte of memory unchanged. (R151) -/
def Obligations.JsrPushesTheAddressOfItsLastByte : Prop :=
  rowsOf .jsr = [(.abs, 0x20, 6)] ∧
  ∀ (target : Addr) (s : State), ∃ t, exec (.jsr target) s = .next t ∧
    t.pc = target ∧ t.sp.toNat = (s.sp.toNat + 254) % 256 ∧
    t.mem.read (256 + s.sp.toNat) = hi8 (s.pc + 1) ∧
    t.mem.read (256 + (s.sp.toNat + 255) % 256) = lo8 (s.pc + 1) ∧ t.cycles = s.cycles ∧
    Frame [.sp] [] [stackAddr s.sp, stackAddr (s.sp - 1)] s t

/-- O46. RTS has exactly the encoding and base count of R152; it answers a next state with the program counter at the
word pulled from the stack plus 1 modulo 65536, SP 2 more modulo 256, and every other register, every flag and all
memory unchanged. (R152) -/
def Obligations.RtsReturnsOnePastThePulledWord : Prop :=
  rowsOf .rts = [(.imp, 0x60, 6)] ∧
  ∀ s : State, ∃ t, exec .rts s = .next t ∧
    t.pc.toNat = ((s.answerAt 0 (BitVec.ofNat 16 (256 + (s.sp.toNat + 1) % 256))).toNat +
      256 * (s.answerAt 1 (BitVec.ofNat 16 (256 + (s.sp.toNat + 2) % 256))).toNat + 1) % 65536 ∧
    t.sp.toNat = (s.sp.toNat + 2) % 256 ∧ t.cycles = s.cycles ∧ Frame [.sp] [] [] s t

/-- O47. If JSR answers t, and a state u has the SP of t and its pops are answered with the two bytes that stand in t
where JSR stored, then RTS on u continues at the address after the JSR's three bytes with SP as before the JSR.
(R151, R152, R97, 95_test_vectors.md part 5) -/
def Obligations.RtsAfterJsrResumesAfterTheCall : Prop :=
  ∀ (target : Addr) (s t u v : State), exec (.jsr target) s = .next t → u.sp = t.sp →
    IntactStack [stackAddr (s.sp - 1), stackAddr s.sp] t u → exec .rts u = .next v →
      v.pc = s.pc + 2 ∧ v.sp = s.sp

/-- O48. PHA and PLA have exactly the encodings and base counts of their rules; PHA answers a next state with A stored
at 0x0100 + SP and SP one less modulo 256, no flag and no other byte changed; PLA answers one with SP one more
modulo 256, A the byte at 0x0100 + the new SP, Z and N from it, memory and the other flags unchanged. (R160, R162) -/
def Obligations.PhaAndPlaMoveTheAccumulator : Prop :=
  rowsOf .pha = [(.imp, 0x48, 3)] ∧
  rowsOf .pla = [(.imp, 0x68, 4)] ∧
  ∀ s : State,
    (∃ t, exec .pha s = .next t ∧ t.mem.read (256 + s.sp.toNat) = s.a ∧ t.sp.toNat = (s.sp.toNat + 255) % 256 ∧
      t.pc = s.pc ∧ t.cycles = s.cycles ∧ Frame [.sp] [] [stackAddr s.sp] s t) ∧
    (∃ t, exec .pla s = .next t ∧ t.a = s.answerAt 0 (BitVec.ofNat 16 (256 + (s.sp.toNat + 1) % 256)) ∧ FlagsOf t.a t ∧
      t.sp.toNat = (s.sp.toNat + 1) % 256 ∧ t.pc = s.pc ∧ t.cycles = s.cycles ∧ Frame [.a, .sp] [.z, .n] [] s t)

/-- O49. PHP and PLP have exactly the encodings and base counts of their rules; PHP stores P | 0x30 at 0x0100 + SP,
leaves P & 0xCF live and SP one less; PLP makes P the byte at 0x0100 + SP + 1 (offset modulo 256) with bit 5 set and
SP one more; nothing else changes. (R161, R163) -/
def Obligations.PhpAndPlpMoveTheStatus : Prop :=
  rowsOf .php = [(.imp, 0x08, 3)] ∧
  rowsOf .plp = [(.imp, 0x28, 4)] ∧
  ∀ s : State,
    (∃ t, exec .php s = .next t ∧ t.mem.read (256 + s.sp.toNat) = s.p ||| 0x30 ∧ t.p = s.p &&& 0xCF ∧
      t.sp.toNat = (s.sp.toNat + 255) % 256 ∧ t.pc = s.pc ∧ t.cycles = s.cycles ∧
      Frame [.sp] [.b, .u] [stackAddr s.sp] s t) ∧
    (∃ t, exec .plp s = .next t ∧ t.p = s.answerAt 0 (BitVec.ofNat 16 (256 + (s.sp.toNat + 1) % 256)) ||| 0x20 ∧
      t.sp.toNat = (s.sp.toNat + 1) % 256 ∧ t.pc = s.pc ∧ t.cycles = s.cycles ∧
      Frame [.sp] [.c, .z, .i, .d, .b, .u, .v, .n] [] s t)

/-- O50. If PHA answers t, and a state u has the SP of t and its pop is answered with the byte that stands in t where
PHA stored, then PLA on u answers A and SP as they were before the PHA, with Z and N from A. (R96, R97, R160, R162,
95_test_vectors.md part 5) -/
def Obligations.PlaAfterPhaRestoresTheAccumulator : Prop :=
  ∀ s t u v : State, exec .pha s = .next t → u.sp = t.sp → IntactStack [stackAddr s.sp] t u →
    exec .pla u = .next v → v.a = s.a ∧ v.sp = s.sp ∧ FlagsOf s.a v

/-- O51. The seven flag instructions have exactly the encodings and base counts of their rules; each answers a next
state in which P differs only in its flag, cleared or set as named, and every register, all memory and the latches
are unchanged. A tick that runs CLI leaves no old IRQ request (one made while I was 1 was dropped), and from it on a
request is taken at the next boundary; after a tick that runs SEI an IRQ latched during its window is not taken, and
the step at the boundary drops it. (R164, R165, R166, R167, R168, R169, R170) -/
def Obligations.FlagInstructionsWriteOneBit : Prop :=
  rowsOf .clc = [(.imp, 0x18, 2)] ∧
  rowsOf .sec = [(.imp, 0x38, 2)] ∧
  rowsOf .cld = [(.imp, 0xD8, 2)] ∧
  rowsOf .sed = [(.imp, 0xF8, 2)] ∧
  rowsOf .cli = [(.imp, 0x58, 2)] ∧
  rowsOf .sei = [(.imp, 0x78, 2)] ∧
  rowsOf .clv = [(.imp, 0xB8, 2)] ∧
  (∀ s : State,
    (∃ t, exec .clc s = .next t ∧ t.p = s.p &&& 0xFE ∧ t.flag .c = false ∧ t.pc = s.pc ∧ t.cycles = s.cycles ∧
      Frame [] [.c] [] s t) ∧
    (∃ t, exec .sec s = .next t ∧ t.p = s.p ||| 0x01 ∧ t.flag .c = true ∧ t.pc = s.pc ∧ t.cycles = s.cycles ∧
      Frame [] [.c] [] s t) ∧
    (∃ t, exec .cld s = .next t ∧ t.p = s.p &&& 0xF7 ∧ t.flag .d = false ∧ t.pc = s.pc ∧ t.cycles = s.cycles ∧
      Frame [] [.d] [] s t) ∧
    (∃ t, exec .sed s = .next t ∧ t.p = s.p ||| 0x08 ∧ t.flag .d = true ∧ t.pc = s.pc ∧ t.cycles = s.cycles ∧
      Frame [] [.d] [] s t) ∧
    (∃ t, exec .cli s = .next t ∧ t.p = s.p &&& 0xFB ∧ t.flag .i = false ∧ t.pc = s.pc ∧ t.cycles = s.cycles ∧
      Frame [] [.i] [] s t) ∧
    (∃ t, exec .sei s = .next t ∧ t.p = s.p ||| 0x04 ∧ t.flag .i = true ∧ t.pc = s.pc ∧ t.cycles = s.cycles ∧
      Frame [] [.i] [] s t) ∧
    (∃ t, exec .clv s = .next t ∧ t.p = s.p &&& 0xBF ∧ t.flag .v = false ∧ t.pc = s.pc ∧ t.cycles = s.cycles ∧
      Frame [] [.v] [] s t)) ∧
  (∀ s : State, s.cycles = 0 → takesInterrupt s = false →
    (s.nextInstr = .cli → ∃ t, step s = .next t ∧ t.flag .i = false ∧ t.irqPending = false ∧
      takesInterrupt t = false ∧ takesInterrupt (t.setIrq true) = true) ∧
    (s.nextInstr = .sei → ∃ t, step s = .next t ∧ t.flag .i = true ∧ takesInterrupt (t.setIrq true) = false ∧
      ∃ u, step { t with cycles := 0, irqPending := true } = .next u ∧ u.irqPending = false ∧
        step { t with cycles := 0, irqPending := false } = .next u))

/-- O52. The six transfers have exactly the encodings and base counts of their rules; each answers a next state in which
the destination is the source register, Z and N are from it (no flag at all for TXS), and everything else is
unchanged. (R171, R172, R173, R174, R175, R176) -/
def Obligations.TransfersCopyARegister : Prop :=
  rowsOf .tax = [(.imp, 0xAA, 2)] ∧
  rowsOf .txa = [(.imp, 0x8A, 2)] ∧
  rowsOf .tay = [(.imp, 0xA8, 2)] ∧
  rowsOf .tya = [(.imp, 0x98, 2)] ∧
  rowsOf .tsx = [(.imp, 0xBA, 2)] ∧
  rowsOf .txs = [(.imp, 0x9A, 2)] ∧
  ∀ s : State,
    (∃ t, exec .tax s = .next t ∧ t.x = s.a ∧ FlagsOf s.a t ∧ t.pc = s.pc ∧ t.cycles = s.cycles ∧
      Frame [.x] [.z, .n] [] s t) ∧
    (∃ t, exec .txa s = .next t ∧ t.a = s.x ∧ FlagsOf s.x t ∧ t.pc = s.pc ∧ t.cycles = s.cycles ∧
      Frame [.a] [.z, .n] [] s t) ∧
    (∃ t, exec .tay s = .next t ∧ t.y = s.a ∧ FlagsOf s.a t ∧ t.pc = s.pc ∧ t.cycles = s.cycles ∧
      Frame [.y] [.z, .n] [] s t) ∧
    (∃ t, exec .tya s = .next t ∧ t.a = s.y ∧ FlagsOf s.y t ∧ t.pc = s.pc ∧ t.cycles = s.cycles ∧
      Frame [.a] [.z, .n] [] s t) ∧
    (∃ t, exec .tsx s = .next t ∧ t.x = s.sp ∧ FlagsOf s.sp t ∧ t.pc = s.pc ∧ t.cycles = s.cycles ∧
      Frame [.x] [.z, .n] [] s t) ∧
    (∃ t, exec .txs s = .next t ∧ t.sp = s.x ∧ t.pc = s.pc ∧ t.cycles = s.cycles ∧ Frame [.sp] [] [] s t)

/-- O53. BRK has exactly the encoding and base count of R180; it answers a next state in which the high and low byte of
the address one past the signature byte and P | 0x30 are stored at 0x0100 + SP downwards (offsets modulo 256), SP is
3 less, I = 1, B = 0, U = 0, the program counter is the word at the IRQ vector, the countdown and both latches are
as before, and everything else is unchanged; I does not mask it; the bus calls are the three writes and the two
vector reads, so the signature byte is not read. (R180) -/
def Obligations.BrkEntersThroughTheIrqVector : Prop :=
  rowsOf .brk = [(.imp, 0x00, 7)] ∧
  ∀ s : State, ∃ t, exec .brk s = .next t ∧
    EntryOutcome params.irqVector (s.pc + 1) (s.p ||| 0x30) s t ∧ t.cycles = s.cycles ∧
    t.irqPending = s.irqPending ∧ t.nmiPending = s.nmiPending ∧
    t.bus.map accessOf = s.bus.map accessOf ++
      [.write (stackAddr s.sp), .write (stackAddr (s.sp - 1)), .write (stackAddr (s.sp - 2)),
        .read params.irqVector, .read (params.irqVector + 1)]

/-- O54. RTI has exactly the encoding and base count of R181; it answers a next state with P the byte at 0x0100 + SP + 1
with bits 4 and 5 cleared, the program counter the little-endian word at the two bytes above it (offsets modulo
256), SP 3 more, and A, X, Y, all memory, the latches and the countdown unchanged. (R181) -/
def Obligations.RtiRestoresStatusAndPc : Prop :=
  rowsOf .rti = [(.imp, 0x40, 6)] ∧
  ∀ s : State, ∃ t, exec .rti s = .next t ∧
    t.p = s.answerAt 0 (BitVec.ofNat 16 (256 + (s.sp.toNat + 1) % 256)) &&& 0xCF ∧
    t.pc.toNat = (s.answerAt 1 (BitVec.ofNat 16 (256 + (s.sp.toNat + 2) % 256))).toNat +
      256 * (s.answerAt 2 (BitVec.ofNat 16 (256 + (s.sp.toNat + 3) % 256))).toNat ∧
    t.sp.toNat = (s.sp.toNat + 3) % 256 ∧ t.cycles = s.cycles ∧
    Frame [.sp] [.c, .z, .i, .d, .b, .u, .v, .n] [] s t

/-- O55. NOP is the one byte 0xEA with 2 base cycles; every illegal byte is a one-byte Implied ILL with the base count
ILLEGAL_BASE_CYCLES. Executing NOP or ILL, whatever the byte, answers a next state with the same registers, flags,
memory, program counter, countdown and latches and no bus call; and a step at a boundary on an illegal byte moves
the program counter by 1, makes one bus read and leaves A, X, Y, SP, P, memory and the NMI latch unchanged and the
IRQ latch clear (a masked request is dropped). (R182, R183) -/
def Obligations.NopAndIllegalBytesDoNothing : Prop :=
  rowsOf .nop = [(.imp, 0xEA, 2)] ∧
  (∀ op, op ∈ illegalBytes → descriptor op = ⟨.ill, .imp⟩ ∧ baseCycles op = params.illegalBaseCycles op) ∧
  (∀ s : State, ∃ t, exec .nop s = .next t ∧ t.pc = s.pc ∧ t.cycles = s.cycles ∧ t.bus = s.bus ∧
    Frame [] [] [] s t) ∧
  (∀ (op : Byte) (s : State), ∃ t, exec (.ill op) s = .next t ∧ t.pc = s.pc ∧ t.cycles = s.cycles ∧ t.bus = s.bus ∧
    Frame [] [] [] s t) ∧
  (∀ s : State, s.cycles = 0 → takesInterrupt s = false → s.answerAt 0 s.pc ∈ illegalBytes →
    ∃ t, step s = .next t ∧ t.pc = s.pc + 1 ∧ Untouched [] [] [] s t ∧
      t.nmiPending = s.nmiPending ∧ t.irqPending = false ∧
      t.cycles = params.illegalBaseCycles (s.answerAt 0 s.pc) - 1 ∧ t.bus = [.read s.pc (s.answerAt 0 s.pc)])

/-- O56. For every instruction other than SED, CLD, PLP, RTI, PHP and BRK, executing it with D, B or U set to any value
answers the same state as executing it without, but for that flag itself: registers, the other flags, memory, bus
calls and cycles do not depend on it. The same holds of SED and CLD for B and U. SED and CLD for D, PLP and RTI for
all three, and PHP and BRK for B and U, answer the very same state. PHP and BRK with another D answer the same state
but for D itself and bit D of the one byte in which they push P. (R4, R18, R21, R116) -/
def Obligations.DecimalBreakUnusedReachOnlyStatusCopies : Prop :=
  (∀ (i : Instr) (s t : State) (f : Flag) (v : Bool), f ∈ [.d, .b, .u] →
    i.mnemonic ∉ [.sed, .cld, .plp, .rti, .php, .brk] →
    exec i s = .next t → exec i (s.setFlag f v) = .next (t.setFlag f v)) ∧
  (∀ (i : Instr) (s t : State) (f : Flag) (v : Bool), f ∈ [.b, .u] → i.mnemonic ∈ [.sed, .cld] →
    exec i s = .next t → exec i (s.setFlag f v) = .next (t.setFlag f v)) ∧
  (∀ (i : Instr) (s : State) (v : Bool), i.mnemonic ∈ [.sed, .cld] → exec i (s.setFlag .d v) = exec i s) ∧
  (∀ (i : Instr) (s : State) (f : Flag) (v : Bool), f ∈ [.d, .b, .u] → i.mnemonic ∈ [.plp, .rti] →
    exec i (s.setFlag f v) = exec i s) ∧
  (∀ (i : Instr) (s : State) (f : Flag) (v : Bool), f ∈ [.b, .u] → i.mnemonic ∈ [.php, .brk] →
    exec i (s.setFlag f v) = exec i s) ∧
  (∀ (i : Instr) (s t : State) (v : Bool) (slot : Addr),
    (i, slot) ∈ [(Instr.php, stackAddr s.sp), (Instr.brk, stackAddr (s.sp - 2))] → exec i s = .next t →
    ∃ (m : Memory) (calls : List BusCall),
      exec i (s.setFlag .d v) = .next (((t.setFlag .d v).setMem m).setBus calls) ∧
      (∀ q : Addr, m.read q.toNat = if q = slot then putFlag (t.peek q) .d v else t.peek q) ∧
      calls.map accessOf = t.bus.map accessOf)

/-- O57. If a step changes a flag, it started at a boundary and either took an interrupt, and the flag is I, B or U, or
ran an instruction that R21 lists as a writer of the flag. If it changes A, X, Y or SP, it started at a boundary and
either took an interrupt, and the register is SP, or ran an instruction that R11 or R13 lists. (R11, R13, R21, R204,
10_state.md section 4) -/
def Obligations.FlagsAndRegistersChangeOnlyByTheirWriters : Prop :=
  ∀ s t : State, step s = .next t →
    (∀ f, t.flag f ≠ s.flag f → s.cycles = 0 ∧
      if takesInterrupt s then f ∈ [.i, .b, .u] else s.nextInstr.mnemonic ∈ flagWriters f) ∧
    (∀ r, t.reg r ≠ s.reg r → s.cycles = 0 ∧
      if takesInterrupt s then r = .sp else s.nextInstr.mnemonic ∈ regWriters r)

/-- O58. At a boundary that takes no interrupt and runs an instruction outside the branches, JMP, JSR, RTS, BRK and RTI,
the program counter after the step is that before plus the length of the instruction modulo 65536. A step that
changes memory started at a boundary and took an interrupt or ran one of STA, STX, STY, ASL, LSR, ROL, ROR, INC,
DEC, PHA, PHP, JSR, BRK. (R14, R15, R48, R98) -/
def Obligations.PcAndMemoryChangeOnlyByTheirWriters : Prop :=
  ∀ s t : State, step s = .next t →
    (s.cycles = 0 → takesInterrupt s = false → s.nextInstr.mnemonic ∉ pcWriters →
      t.pc = s.pc + BitVec.ofNat 16 s.nextInstr.length) ∧
    (t.mem ≠ s.mem → s.cycles = 0 ∧
      (takesInterrupt s = true ∨ s.nextInstr.mnemonic ∈ memoryWriters))

/-- O59. Push stores at 0x0100 + SP, inside 0x0100..0x01FF, and leaves SP one less modulo 256; Pop leaves SP one more
modulo 256 and reads 0x0100 + the new SP; no other byte changes; a push at SP = 0 writes 0x0100 and leaves 0xFF and
a pop at 0xFF leaves 0 and reads 0x0100. SP changes only in a boundary tick that takes an interrupt or runs an
instruction that pushes, pops or is TXS; TSX reads it. (R13) -/
def Obligations.StackStaysInItsPage : Prop :=
  (∀ (s : State) (v : Byte),
    (256 ≤ (stackAddr s.sp).toNat ∧ (stackAddr s.sp).toNat ≤ 0x1FF) ∧
    (s.push v).mem.read (256 + s.sp.toNat) = v ∧ (s.push v).sp.toNat = (s.sp.toNat + 255) % 256 ∧
    (∀ n, n ≠ 256 + s.sp.toNat → (s.push v).mem.read n = s.mem.read n) ∧
    s.popValue = s.answerAt 0 (BitVec.ofNat 16 (256 + (s.sp.toNat + 1) % 256)) ∧ s.pop.sp.toNat = (s.sp.toNat + 1) % 256 ∧
    s.pop.mem = s.mem ∧
    (s.sp = 0 → (s.push v).sp = 0xFF ∧ (s.push v).mem.read 0x100 = v) ∧
    (s.sp = 0xFF → s.pop.sp = 0 ∧ s.popValue = s.answerAt 0 0x100)) ∧
  (∀ s t : State, step s = .next t → t.sp ≠ s.sp →
    s.cycles = 0 ∧ (takesInterrupt s = true ∨
      s.nextInstr.mnemonic ∈ [.pha, .php, .pla, .plp, .jsr, .rts, .brk, .rti, .txs])) ∧
  (∀ s : State, (∃ t, exec .txs s = .next t ∧ t.sp = s.x ∧ t.p = s.p) ∧ (∃ t, exec .tsx s = .next t ∧ t.x = s.sp) ∧
    (hostReset s).sp = params.spReset)

/-- O60. If two memories are in canonical form and every one of the 65536 addresses reads the same byte in both, they
are equal lists. The form and the byte of an unlisted address are the model's choice (assumption log 1). (R40, R51,
20_memory.md section 1) -/
def Obligations.EqualReadsAreEqualMemories : Prop :=
  ∀ m n : Memory, m.wf = true → n.wf = true → (∀ q : Addr, m.read q.toNat = n.read q.toNat) → m = n
end

