-- ==== Sys2Proof/Laws/Bits.lean ====
section
/-! SUPPORT. Byte order and extension as numbers (00_scope.md R8). -/

namespace Sys2Proof

theorem joinBytes_toNat (h l : Byte) : (joinBytes h l).toNat = h.toNat * 256 + l.toNat := by
  have h1 : (joinBytes h l).toNat = h.toNat <<< 8 ||| l.toNat := BitVec.toNat_append h l
  rw [h1, ← Nat.shiftLeft_add_eq_or_of_lt l.isLt h.toNat, Nat.shiftLeft_eq]

theorem hi8_toNat (w : Addr) : (hi8 w).toNat = w.toNat / 256 := by
  have := w.isLt
  simp [hi8, BitVec.extractLsb'_toNat, Nat.shiftRight_eq_div_pow]
  omega

theorem lo8_toNat (w : Addr) : (lo8 w).toNat = w.toNat % 256 := by
  simp [lo8, BitVec.extractLsb'_toNat]

theorem zext16_toNat (b : Byte) : (zext16 b).toNat = b.toNat := by
  have := b.isLt
  simp [zext16, BitVec.toNat_setWidth]
  omega

@[simp] theorem hi8_joinBytes (h l : Byte) : hi8 (joinBytes h l) = h := by
  apply BitVec.eq_of_toNat_eq
  have := l.isLt
  rw [hi8_toNat, joinBytes_toNat]
  omega

@[simp] theorem lo8_joinBytes (h l : Byte) : lo8 (joinBytes h l) = l := by
  apply BitVec.eq_of_toNat_eq
  have := l.isLt
  rw [lo8_toNat, joinBytes_toNat]
  omega

@[simp] theorem joinBytes_hi8_lo8 (w : Addr) : joinBytes (hi8 w) (lo8 w) = w := by
  apply BitVec.eq_of_toNat_eq
  rw [joinBytes_toNat, hi8_toNat, lo8_toNat]
  omega

/-- Distinct zero-page bytes are distinct addresses. -/
theorem zext16_injective {b c : Byte} (h : zext16 b = zext16 c) : b = c := by
  apply BitVec.eq_of_toNat_eq
  rw [← zext16_toNat b, ← zext16_toNat c, h]

/-- The sign extension as the notation writes it (R8). -/
theorem sext16_toNat (b : Byte) :
    (sext16 b).toNat = if b.getLsbD 7 then 0xFF00 + b.toNat else b.toNat := by
  have hb := b.isLt
  have hm : b.msb = b.getLsbD 7 := by simp [BitVec.msb_eq_getLsbD_last]
  simp only [sext16, BitVec.toNat_signExtend, BitVec.toNat_setWidth, hm]
  split <;> omega

end Sys2Proof
end

