-- ==== Sys2Proof/Laws/Decode.lean ====
section
/-! SUPPORT. Facts about the opcode table that hold for every byte, and what decoding a byte gives: its mnemonic, its
operand, and the opcode the encoder gives back. -/

namespace Sys2Proof

/-- Every descriptor's mode is one its mnemonic has (30_encoding.md R66 against R67). -/
theorem descriptor_mode_mem : ∀ op : Byte, (descriptor op).mnemonic.modes.contains (descriptor op).mode = true := by
  decide +kernel

/-- The list by mnemonic of R67 gives back the byte of the matrix of R66. -/
theorem encodings_descriptor : ∀ op : Byte, (descriptor op).mnemonic ≠ .ill →
    (encodings (descriptor op).mnemonic).lookup (descriptor op).mode = some op := by
  decide +kernel

/-- A descriptor with the mnemonic ILL belongs to a byte of the list of R68. -/
theorem mem_illegalBytes : ∀ op : Byte, (descriptor op).mnemonic = .ill → op ∈ illegalBytes := by
  decide +kernel

/-- A byte of the list of R68 has the illegal descriptor. -/
theorem descriptor_of_illegal : ∀ op : Byte, op ∈ illegalBytes → descriptor op = illDescriptor := by
  decide +kernel

theorem Mode.operandBytes_le (m : Mode) : m.operandBytes ≤ 2 := by cases m <;> decide

theorem assemble_mode (m : Mode) (b1 b2 : Byte) : (assemble m b1 b2).mode = m := by cases m <;> rfl

/-- The encoder's operand bytes are those the operand was assembled from. -/
theorem operandBytesOf_assemble (m : Mode) (b1 b2 : Byte) :
    operandBytesOf (assemble m b1 b2) = [b1, b2].take m.operandBytes := by
  cases m <;> simp [assemble, operandBytesOf, Mode.operandBytes]

/-- Assembling the encoder's operand bytes gives the operand back. -/
theorem assemble_operandBytesOf (o : Operand) (rest : List Byte) :
    assemble o.mode ((operandBytesOf o ++ rest).getD 0 0) ((operandBytesOf o ++ rest).getD 1 0) = o := by
  cases o <;> simp [assemble, operandBytesOf, Operand.mode]

theorem operandBytesOf_length (o : Operand) : (operandBytesOf o).length = o.mode.operandBytes := by cases o <;> rfl

theorem buildInstr_mnemonic (m : Mnemonic) (o : Operand) (op : Byte) : (buildInstr m o op).mnemonic = m := by
  cases m <;> rfl

/-- An instruction built in a mode its mnemonic has works on the operand it was built from. -/
theorem buildInstr_operand {m : Mnemonic} {o : Operand} (op : Byte) (h : m.modes.contains o.mode = true) :
    (buildInstr m o op).operand = o := by
  cases m <;> cases o <;> simp_all [Mnemonic.modes, Operand.mode, buildInstr, Instr.operand, dispOf, targetOf]

theorem buildInstr_self {i : Instr} (op : Byte) (h : i.mnemonic ≠ .ill) :
    buildInstr i.mnemonic i.operand op = i := by
  cases i <;> first | rfl | exact absurd rfl h

theorem opcodeOf_documented {i : Instr} (h : i.mnemonic ≠ .ill) :
    opcodeOf i = (encodings i.mnemonic).lookup i.operand.mode := by
  cases i <;> first | rfl | exact absurd rfl h

theorem instrOf_mnemonic (op b1 b2 : Byte) : (instrOf op b1 b2).mnemonic = (descriptor op).mnemonic :=
  buildInstr_mnemonic _ _ _

theorem instrOf_operand (op b1 b2 : Byte) : (instrOf op b1 b2).operand = assemble (descriptor op).mode b1 b2 :=
  buildInstr_operand op (by rw [assemble_mode]; exact descriptor_mode_mem op)

/-- The encoder answers the opcode byte an instruction was decoded from. -/
theorem opcodeOf_instrOf (op b1 b2 : Byte) : opcodeOf (instrOf op b1 b2) = some op := by
  by_cases h : (descriptor op).mnemonic = .ill
  · simp [instrOf, h, buildInstr, opcodeOf]
  · rw [opcodeOf_documented (by rw [instrOf_mnemonic]; exact h), instrOf_mnemonic, instrOf_operand, assemble_mode]
    exact encodings_descriptor op h

end Sys2Proof
end

