-- ==== Sys2Proof/Laws/State.lean ====
section
/-! SUPPORT. One lemma per field per update of State, so that no later proof unfolds a record update; and, for the
updates that leave memory, the coming answers or the status alone, the same for reading a byte, an answer, a pointer and
a flag. -/

namespace Sys2Proof.Machine

@[simp] theorem tail_tail (l : List Byte) : l.tail.tail = l.drop 2 := by cases l <;> simp

@[simp] theorem State.setA_a (s : State) (v : Byte) : (s.setA v).a = v := rfl
@[simp] theorem State.setA_x (s : State) (v : Byte) : (s.setA v).x = s.x := rfl
@[simp] theorem State.setA_y (s : State) (v : Byte) : (s.setA v).y = s.y := rfl
@[simp] theorem State.setA_sp (s : State) (v : Byte) : (s.setA v).sp = s.sp := rfl
@[simp] theorem State.setA_pc (s : State) (v : Byte) : (s.setA v).pc = s.pc := rfl
@[simp] theorem State.setA_p (s : State) (v : Byte) : (s.setA v).p = s.p := rfl
@[simp] theorem State.setA_fetched (s : State) (v : Byte) : (s.setA v).fetched = s.fetched := rfl
@[simp] theorem State.setA_addrAbs (s : State) (v : Byte) : (s.setA v).addrAbs = s.addrAbs := rfl
@[simp] theorem State.setA_addrRel (s : State) (v : Byte) : (s.setA v).addrRel = s.addrRel := rfl
@[simp] theorem State.setA_opcode (s : State) (v : Byte) : (s.setA v).opcode = s.opcode := rfl
@[simp] theorem State.setA_cycles (s : State) (v : Byte) : (s.setA v).cycles = s.cycles := rfl
@[simp] theorem State.setA_irqPending (s : State) (v : Byte) : (s.setA v).irqPending = s.irqPending := rfl
@[simp] theorem State.setA_nmiPending (s : State) (v : Byte) : (s.setA v).nmiPending = s.nmiPending := rfl
@[simp] theorem State.setA_mem (s : State) (v : Byte) : (s.setA v).mem = s.mem := rfl
@[simp] theorem State.setA_bus (s : State) (v : Byte) : (s.setA v).bus = s.bus := rfl
@[simp] theorem State.setA_answers (s : State) (v : Byte) : (s.setA v).answers = s.answers := rfl
@[simp] theorem State.setA_peek (s : State) (v : Byte) (q : Addr) : (s.setA v).peek q = s.peek q := rfl
@[simp] theorem State.setA_answerAt (s : State) (v : Byte) (j : Nat) (q : Addr) :
    (s.setA v).answerAt j q = s.answerAt j q := rfl
@[simp] theorem State.setA_wordAnswer (s : State) (v : Byte) (q : Addr) : (s.setA v).wordAnswer q = s.wordAnswer q := rfl
@[simp] theorem State.setA_zeroPageWord (s : State) (v : Byte) (q : Byte) : (s.setA v).zeroPageWord q = s.zeroPageWord q := rfl
@[simp] theorem State.setA_popValue (s : State) (v : Byte) : (s.setA v).popValue = s.popValue := rfl
@[simp] theorem State.setA_flag (s : State) (v : Byte) (g : Flag) : (s.setA v).flag g = s.flag g := rfl

@[simp] theorem State.setX_a (s : State) (v : Byte) : (s.setX v).a = s.a := rfl
@[simp] theorem State.setX_x (s : State) (v : Byte) : (s.setX v).x = v := rfl
@[simp] theorem State.setX_y (s : State) (v : Byte) : (s.setX v).y = s.y := rfl
@[simp] theorem State.setX_sp (s : State) (v : Byte) : (s.setX v).sp = s.sp := rfl
@[simp] theorem State.setX_pc (s : State) (v : Byte) : (s.setX v).pc = s.pc := rfl
@[simp] theorem State.setX_p (s : State) (v : Byte) : (s.setX v).p = s.p := rfl
@[simp] theorem State.setX_fetched (s : State) (v : Byte) : (s.setX v).fetched = s.fetched := rfl
@[simp] theorem State.setX_addrAbs (s : State) (v : Byte) : (s.setX v).addrAbs = s.addrAbs := rfl
@[simp] theorem State.setX_addrRel (s : State) (v : Byte) : (s.setX v).addrRel = s.addrRel := rfl
@[simp] theorem State.setX_opcode (s : State) (v : Byte) : (s.setX v).opcode = s.opcode := rfl
@[simp] theorem State.setX_cycles (s : State) (v : Byte) : (s.setX v).cycles = s.cycles := rfl
@[simp] theorem State.setX_irqPending (s : State) (v : Byte) : (s.setX v).irqPending = s.irqPending := rfl
@[simp] theorem State.setX_nmiPending (s : State) (v : Byte) : (s.setX v).nmiPending = s.nmiPending := rfl
@[simp] theorem State.setX_mem (s : State) (v : Byte) : (s.setX v).mem = s.mem := rfl
@[simp] theorem State.setX_bus (s : State) (v : Byte) : (s.setX v).bus = s.bus := rfl
@[simp] theorem State.setX_answers (s : State) (v : Byte) : (s.setX v).answers = s.answers := rfl
@[simp] theorem State.setX_peek (s : State) (v : Byte) (q : Addr) : (s.setX v).peek q = s.peek q := rfl
@[simp] theorem State.setX_answerAt (s : State) (v : Byte) (j : Nat) (q : Addr) :
    (s.setX v).answerAt j q = s.answerAt j q := rfl
@[simp] theorem State.setX_wordAnswer (s : State) (v : Byte) (q : Addr) : (s.setX v).wordAnswer q = s.wordAnswer q := rfl
@[simp] theorem State.setX_zeroPageWord (s : State) (v : Byte) (q : Byte) : (s.setX v).zeroPageWord q = s.zeroPageWord q := rfl
@[simp] theorem State.setX_popValue (s : State) (v : Byte) : (s.setX v).popValue = s.popValue := rfl
@[simp] theorem State.setX_flag (s : State) (v : Byte) (g : Flag) : (s.setX v).flag g = s.flag g := rfl

@[simp] theorem State.setY_a (s : State) (v : Byte) : (s.setY v).a = s.a := rfl
@[simp] theorem State.setY_x (s : State) (v : Byte) : (s.setY v).x = s.x := rfl
@[simp] theorem State.setY_y (s : State) (v : Byte) : (s.setY v).y = v := rfl
@[simp] theorem State.setY_sp (s : State) (v : Byte) : (s.setY v).sp = s.sp := rfl
@[simp] theorem State.setY_pc (s : State) (v : Byte) : (s.setY v).pc = s.pc := rfl
@[simp] theorem State.setY_p (s : State) (v : Byte) : (s.setY v).p = s.p := rfl
@[simp] theorem State.setY_fetched (s : State) (v : Byte) : (s.setY v).fetched = s.fetched := rfl
@[simp] theorem State.setY_addrAbs (s : State) (v : Byte) : (s.setY v).addrAbs = s.addrAbs := rfl
@[simp] theorem State.setY_addrRel (s : State) (v : Byte) : (s.setY v).addrRel = s.addrRel := rfl
@[simp] theorem State.setY_opcode (s : State) (v : Byte) : (s.setY v).opcode = s.opcode := rfl
@[simp] theorem State.setY_cycles (s : State) (v : Byte) : (s.setY v).cycles = s.cycles := rfl
@[simp] theorem State.setY_irqPending (s : State) (v : Byte) : (s.setY v).irqPending = s.irqPending := rfl
@[simp] theorem State.setY_nmiPending (s : State) (v : Byte) : (s.setY v).nmiPending = s.nmiPending := rfl
@[simp] theorem State.setY_mem (s : State) (v : Byte) : (s.setY v).mem = s.mem := rfl
@[simp] theorem State.setY_bus (s : State) (v : Byte) : (s.setY v).bus = s.bus := rfl
@[simp] theorem State.setY_answers (s : State) (v : Byte) : (s.setY v).answers = s.answers := rfl
@[simp] theorem State.setY_peek (s : State) (v : Byte) (q : Addr) : (s.setY v).peek q = s.peek q := rfl
@[simp] theorem State.setY_answerAt (s : State) (v : Byte) (j : Nat) (q : Addr) :
    (s.setY v).answerAt j q = s.answerAt j q := rfl
@[simp] theorem State.setY_wordAnswer (s : State) (v : Byte) (q : Addr) : (s.setY v).wordAnswer q = s.wordAnswer q := rfl
@[simp] theorem State.setY_zeroPageWord (s : State) (v : Byte) (q : Byte) : (s.setY v).zeroPageWord q = s.zeroPageWord q := rfl
@[simp] theorem State.setY_popValue (s : State) (v : Byte) : (s.setY v).popValue = s.popValue := rfl
@[simp] theorem State.setY_flag (s : State) (v : Byte) (g : Flag) : (s.setY v).flag g = s.flag g := rfl

@[simp] theorem State.setSp_a (s : State) (v : Byte) : (s.setSp v).a = s.a := rfl
@[simp] theorem State.setSp_x (s : State) (v : Byte) : (s.setSp v).x = s.x := rfl
@[simp] theorem State.setSp_y (s : State) (v : Byte) : (s.setSp v).y = s.y := rfl
@[simp] theorem State.setSp_sp (s : State) (v : Byte) : (s.setSp v).sp = v := rfl
@[simp] theorem State.setSp_pc (s : State) (v : Byte) : (s.setSp v).pc = s.pc := rfl
@[simp] theorem State.setSp_p (s : State) (v : Byte) : (s.setSp v).p = s.p := rfl
@[simp] theorem State.setSp_fetched (s : State) (v : Byte) : (s.setSp v).fetched = s.fetched := rfl
@[simp] theorem State.setSp_addrAbs (s : State) (v : Byte) : (s.setSp v).addrAbs = s.addrAbs := rfl
@[simp] theorem State.setSp_addrRel (s : State) (v : Byte) : (s.setSp v).addrRel = s.addrRel := rfl
@[simp] theorem State.setSp_opcode (s : State) (v : Byte) : (s.setSp v).opcode = s.opcode := rfl
@[simp] theorem State.setSp_cycles (s : State) (v : Byte) : (s.setSp v).cycles = s.cycles := rfl
@[simp] theorem State.setSp_irqPending (s : State) (v : Byte) : (s.setSp v).irqPending = s.irqPending := rfl
@[simp] theorem State.setSp_nmiPending (s : State) (v : Byte) : (s.setSp v).nmiPending = s.nmiPending := rfl
@[simp] theorem State.setSp_mem (s : State) (v : Byte) : (s.setSp v).mem = s.mem := rfl
@[simp] theorem State.setSp_bus (s : State) (v : Byte) : (s.setSp v).bus = s.bus := rfl
@[simp] theorem State.setSp_answers (s : State) (v : Byte) : (s.setSp v).answers = s.answers := rfl
@[simp] theorem State.setSp_peek (s : State) (v : Byte) (q : Addr) : (s.setSp v).peek q = s.peek q := rfl
@[simp] theorem State.setSp_answerAt (s : State) (v : Byte) (j : Nat) (q : Addr) :
    (s.setSp v).answerAt j q = s.answerAt j q := rfl
@[simp] theorem State.setSp_wordAnswer (s : State) (v : Byte) (q : Addr) : (s.setSp v).wordAnswer q = s.wordAnswer q := rfl
@[simp] theorem State.setSp_zeroPageWord (s : State) (v : Byte) (q : Byte) : (s.setSp v).zeroPageWord q = s.zeroPageWord q := rfl
@[simp] theorem State.setSp_flag (s : State) (v : Byte) (g : Flag) : (s.setSp v).flag g = s.flag g := rfl

@[simp] theorem State.setPc_a (s : State) (v : Addr) : (s.setPc v).a = s.a := rfl
@[simp] theorem State.setPc_x (s : State) (v : Addr) : (s.setPc v).x = s.x := rfl
@[simp] theorem State.setPc_y (s : State) (v : Addr) : (s.setPc v).y = s.y := rfl
@[simp] theorem State.setPc_sp (s : State) (v : Addr) : (s.setPc v).sp = s.sp := rfl
@[simp] theorem State.setPc_pc (s : State) (v : Addr) : (s.setPc v).pc = v := rfl
@[simp] theorem State.setPc_p (s : State) (v : Addr) : (s.setPc v).p = s.p := rfl
@[simp] theorem State.setPc_fetched (s : State) (v : Addr) : (s.setPc v).fetched = s.fetched := rfl
@[simp] theorem State.setPc_addrAbs (s : State) (v : Addr) : (s.setPc v).addrAbs = s.addrAbs := rfl
@[simp] theorem State.setPc_addrRel (s : State) (v : Addr) : (s.setPc v).addrRel = s.addrRel := rfl
@[simp] theorem State.setPc_opcode (s : State) (v : Addr) : (s.setPc v).opcode = s.opcode := rfl
@[simp] theorem State.setPc_cycles (s : State) (v : Addr) : (s.setPc v).cycles = s.cycles := rfl
@[simp] theorem State.setPc_irqPending (s : State) (v : Addr) : (s.setPc v).irqPending = s.irqPending := rfl
@[simp] theorem State.setPc_nmiPending (s : State) (v : Addr) : (s.setPc v).nmiPending = s.nmiPending := rfl
@[simp] theorem State.setPc_mem (s : State) (v : Addr) : (s.setPc v).mem = s.mem := rfl
@[simp] theorem State.setPc_bus (s : State) (v : Addr) : (s.setPc v).bus = s.bus := rfl
@[simp] theorem State.setPc_answers (s : State) (v : Addr) : (s.setPc v).answers = s.answers := rfl
@[simp] theorem State.setPc_peek (s : State) (v : Addr) (q : Addr) : (s.setPc v).peek q = s.peek q := rfl
@[simp] theorem State.setPc_answerAt (s : State) (v : Addr) (j : Nat) (q : Addr) :
    (s.setPc v).answerAt j q = s.answerAt j q := rfl
@[simp] theorem State.setPc_wordAnswer (s : State) (v : Addr) (q : Addr) : (s.setPc v).wordAnswer q = s.wordAnswer q := rfl
@[simp] theorem State.setPc_zeroPageWord (s : State) (v : Addr) (q : Byte) : (s.setPc v).zeroPageWord q = s.zeroPageWord q := rfl
@[simp] theorem State.setPc_popValue (s : State) (v : Addr) : (s.setPc v).popValue = s.popValue := rfl
@[simp] theorem State.setPc_flag (s : State) (v : Addr) (g : Flag) : (s.setPc v).flag g = s.flag g := rfl

@[simp] theorem State.setP_a (s : State) (v : Byte) : (s.setP v).a = s.a := rfl
@[simp] theorem State.setP_x (s : State) (v : Byte) : (s.setP v).x = s.x := rfl
@[simp] theorem State.setP_y (s : State) (v : Byte) : (s.setP v).y = s.y := rfl
@[simp] theorem State.setP_sp (s : State) (v : Byte) : (s.setP v).sp = s.sp := rfl
@[simp] theorem State.setP_pc (s : State) (v : Byte) : (s.setP v).pc = s.pc := rfl
@[simp] theorem State.setP_p (s : State) (v : Byte) : (s.setP v).p = v := rfl
@[simp] theorem State.setP_fetched (s : State) (v : Byte) : (s.setP v).fetched = s.fetched := rfl
@[simp] theorem State.setP_addrAbs (s : State) (v : Byte) : (s.setP v).addrAbs = s.addrAbs := rfl
@[simp] theorem State.setP_addrRel (s : State) (v : Byte) : (s.setP v).addrRel = s.addrRel := rfl
@[simp] theorem State.setP_opcode (s : State) (v : Byte) : (s.setP v).opcode = s.opcode := rfl
@[simp] theorem State.setP_cycles (s : State) (v : Byte) : (s.setP v).cycles = s.cycles := rfl
@[simp] theorem State.setP_irqPending (s : State) (v : Byte) : (s.setP v).irqPending = s.irqPending := rfl
@[simp] theorem State.setP_nmiPending (s : State) (v : Byte) : (s.setP v).nmiPending = s.nmiPending := rfl
@[simp] theorem State.setP_mem (s : State) (v : Byte) : (s.setP v).mem = s.mem := rfl
@[simp] theorem State.setP_bus (s : State) (v : Byte) : (s.setP v).bus = s.bus := rfl
@[simp] theorem State.setP_answers (s : State) (v : Byte) : (s.setP v).answers = s.answers := rfl
@[simp] theorem State.setP_peek (s : State) (v : Byte) (q : Addr) : (s.setP v).peek q = s.peek q := rfl
@[simp] theorem State.setP_answerAt (s : State) (v : Byte) (j : Nat) (q : Addr) :
    (s.setP v).answerAt j q = s.answerAt j q := rfl
@[simp] theorem State.setP_wordAnswer (s : State) (v : Byte) (q : Addr) : (s.setP v).wordAnswer q = s.wordAnswer q := rfl
@[simp] theorem State.setP_zeroPageWord (s : State) (v : Byte) (q : Byte) : (s.setP v).zeroPageWord q = s.zeroPageWord q := rfl
@[simp] theorem State.setP_popValue (s : State) (v : Byte) : (s.setP v).popValue = s.popValue := rfl

@[simp] theorem State.setFetched_a (s : State) (v : Byte) : (s.setFetched v).a = s.a := rfl
@[simp] theorem State.setFetched_x (s : State) (v : Byte) : (s.setFetched v).x = s.x := rfl
@[simp] theorem State.setFetched_y (s : State) (v : Byte) : (s.setFetched v).y = s.y := rfl
@[simp] theorem State.setFetched_sp (s : State) (v : Byte) : (s.setFetched v).sp = s.sp := rfl
@[simp] theorem State.setFetched_pc (s : State) (v : Byte) : (s.setFetched v).pc = s.pc := rfl
@[simp] theorem State.setFetched_p (s : State) (v : Byte) : (s.setFetched v).p = s.p := rfl
@[simp] theorem State.setFetched_fetched (s : State) (v : Byte) : (s.setFetched v).fetched = v := rfl
@[simp] theorem State.setFetched_addrAbs (s : State) (v : Byte) : (s.setFetched v).addrAbs = s.addrAbs := rfl
@[simp] theorem State.setFetched_addrRel (s : State) (v : Byte) : (s.setFetched v).addrRel = s.addrRel := rfl
@[simp] theorem State.setFetched_opcode (s : State) (v : Byte) : (s.setFetched v).opcode = s.opcode := rfl
@[simp] theorem State.setFetched_cycles (s : State) (v : Byte) : (s.setFetched v).cycles = s.cycles := rfl
@[simp] theorem State.setFetched_irqPending (s : State) (v : Byte) : (s.setFetched v).irqPending = s.irqPending := rfl
@[simp] theorem State.setFetched_nmiPending (s : State) (v : Byte) : (s.setFetched v).nmiPending = s.nmiPending := rfl
@[simp] theorem State.setFetched_mem (s : State) (v : Byte) : (s.setFetched v).mem = s.mem := rfl
@[simp] theorem State.setFetched_bus (s : State) (v : Byte) : (s.setFetched v).bus = s.bus := rfl
@[simp] theorem State.setFetched_answers (s : State) (v : Byte) : (s.setFetched v).answers = s.answers := rfl
@[simp] theorem State.setFetched_peek (s : State) (v : Byte) (q : Addr) : (s.setFetched v).peek q = s.peek q := rfl
@[simp] theorem State.setFetched_answerAt (s : State) (v : Byte) (j : Nat) (q : Addr) :
    (s.setFetched v).answerAt j q = s.answerAt j q := rfl
@[simp] theorem State.setFetched_wordAnswer (s : State) (v : Byte) (q : Addr) : (s.setFetched v).wordAnswer q = s.wordAnswer q := rfl
@[simp] theorem State.setFetched_zeroPageWord (s : State) (v : Byte) (q : Byte) : (s.setFetched v).zeroPageWord q = s.zeroPageWord q := rfl
@[simp] theorem State.setFetched_popValue (s : State) (v : Byte) : (s.setFetched v).popValue = s.popValue := rfl
@[simp] theorem State.setFetched_flag (s : State) (v : Byte) (g : Flag) : (s.setFetched v).flag g = s.flag g := rfl

@[simp] theorem State.setAddrAbs_a (s : State) (v : Addr) : (s.setAddrAbs v).a = s.a := rfl
@[simp] theorem State.setAddrAbs_x (s : State) (v : Addr) : (s.setAddrAbs v).x = s.x := rfl
@[simp] theorem State.setAddrAbs_y (s : State) (v : Addr) : (s.setAddrAbs v).y = s.y := rfl
@[simp] theorem State.setAddrAbs_sp (s : State) (v : Addr) : (s.setAddrAbs v).sp = s.sp := rfl
@[simp] theorem State.setAddrAbs_pc (s : State) (v : Addr) : (s.setAddrAbs v).pc = s.pc := rfl
@[simp] theorem State.setAddrAbs_p (s : State) (v : Addr) : (s.setAddrAbs v).p = s.p := rfl
@[simp] theorem State.setAddrAbs_fetched (s : State) (v : Addr) : (s.setAddrAbs v).fetched = s.fetched := rfl
@[simp] theorem State.setAddrAbs_addrAbs (s : State) (v : Addr) : (s.setAddrAbs v).addrAbs = v := rfl
@[simp] theorem State.setAddrAbs_addrRel (s : State) (v : Addr) : (s.setAddrAbs v).addrRel = s.addrRel := rfl
@[simp] theorem State.setAddrAbs_opcode (s : State) (v : Addr) : (s.setAddrAbs v).opcode = s.opcode := rfl
@[simp] theorem State.setAddrAbs_cycles (s : State) (v : Addr) : (s.setAddrAbs v).cycles = s.cycles := rfl
@[simp] theorem State.setAddrAbs_irqPending (s : State) (v : Addr) : (s.setAddrAbs v).irqPending = s.irqPending := rfl
@[simp] theorem State.setAddrAbs_nmiPending (s : State) (v : Addr) : (s.setAddrAbs v).nmiPending = s.nmiPending := rfl
@[simp] theorem State.setAddrAbs_mem (s : State) (v : Addr) : (s.setAddrAbs v).mem = s.mem := rfl
@[simp] theorem State.setAddrAbs_bus (s : State) (v : Addr) : (s.setAddrAbs v).bus = s.bus := rfl
@[simp] theorem State.setAddrAbs_answers (s : State) (v : Addr) : (s.setAddrAbs v).answers = s.answers := rfl
@[simp] theorem State.setAddrAbs_peek (s : State) (v : Addr) (q : Addr) : (s.setAddrAbs v).peek q = s.peek q := rfl
@[simp] theorem State.setAddrAbs_answerAt (s : State) (v : Addr) (j : Nat) (q : Addr) :
    (s.setAddrAbs v).answerAt j q = s.answerAt j q := rfl
@[simp] theorem State.setAddrAbs_wordAnswer (s : State) (v : Addr) (q : Addr) : (s.setAddrAbs v).wordAnswer q = s.wordAnswer q := rfl
@[simp] theorem State.setAddrAbs_zeroPageWord (s : State) (v : Addr) (q : Byte) : (s.setAddrAbs v).zeroPageWord q = s.zeroPageWord q := rfl
@[simp] theorem State.setAddrAbs_popValue (s : State) (v : Addr) : (s.setAddrAbs v).popValue = s.popValue := rfl
@[simp] theorem State.setAddrAbs_flag (s : State) (v : Addr) (g : Flag) : (s.setAddrAbs v).flag g = s.flag g := rfl

@[simp] theorem State.setAddrRel_a (s : State) (v : Addr) : (s.setAddrRel v).a = s.a := rfl
@[simp] theorem State.setAddrRel_x (s : State) (v : Addr) : (s.setAddrRel v).x = s.x := rfl
@[simp] theorem State.setAddrRel_y (s : State) (v : Addr) : (s.setAddrRel v).y = s.y := rfl
@[simp] theorem State.setAddrRel_sp (s : State) (v : Addr) : (s.setAddrRel v).sp = s.sp := rfl
@[simp] theorem State.setAddrRel_pc (s : State) (v : Addr) : (s.setAddrRel v).pc = s.pc := rfl
@[simp] theorem State.setAddrRel_p (s : State) (v : Addr) : (s.setAddrRel v).p = s.p := rfl
@[simp] theorem State.setAddrRel_fetched (s : State) (v : Addr) : (s.setAddrRel v).fetched = s.fetched := rfl
@[simp] theorem State.setAddrRel_addrAbs (s : State) (v : Addr) : (s.setAddrRel v).addrAbs = s.addrAbs := rfl
@[simp] theorem State.setAddrRel_addrRel (s : State) (v : Addr) : (s.setAddrRel v).addrRel = v := rfl
@[simp] theorem State.setAddrRel_opcode (s : State) (v : Addr) : (s.setAddrRel v).opcode = s.opcode := rfl
@[simp] theorem State.setAddrRel_cycles (s : State) (v : Addr) : (s.setAddrRel v).cycles = s.cycles := rfl
@[simp] theorem State.setAddrRel_irqPending (s : State) (v : Addr) : (s.setAddrRel v).irqPending = s.irqPending := rfl
@[simp] theorem State.setAddrRel_nmiPending (s : State) (v : Addr) : (s.setAddrRel v).nmiPending = s.nmiPending := rfl
@[simp] theorem State.setAddrRel_mem (s : State) (v : Addr) : (s.setAddrRel v).mem = s.mem := rfl
@[simp] theorem State.setAddrRel_bus (s : State) (v : Addr) : (s.setAddrRel v).bus = s.bus := rfl
@[simp] theorem State.setAddrRel_answers (s : State) (v : Addr) : (s.setAddrRel v).answers = s.answers := rfl
@[simp] theorem State.setAddrRel_peek (s : State) (v : Addr) (q : Addr) : (s.setAddrRel v).peek q = s.peek q := rfl
@[simp] theorem State.setAddrRel_answerAt (s : State) (v : Addr) (j : Nat) (q : Addr) :
    (s.setAddrRel v).answerAt j q = s.answerAt j q := rfl
@[simp] theorem State.setAddrRel_wordAnswer (s : State) (v : Addr) (q : Addr) : (s.setAddrRel v).wordAnswer q = s.wordAnswer q := rfl
@[simp] theorem State.setAddrRel_zeroPageWord (s : State) (v : Addr) (q : Byte) : (s.setAddrRel v).zeroPageWord q = s.zeroPageWord q := rfl
@[simp] theorem State.setAddrRel_popValue (s : State) (v : Addr) : (s.setAddrRel v).popValue = s.popValue := rfl
@[simp] theorem State.setAddrRel_flag (s : State) (v : Addr) (g : Flag) : (s.setAddrRel v).flag g = s.flag g := rfl

@[simp] theorem State.setOpcode_a (s : State) (v : Byte) : (s.setOpcode v).a = s.a := rfl
@[simp] theorem State.setOpcode_x (s : State) (v : Byte) : (s.setOpcode v).x = s.x := rfl
@[simp] theorem State.setOpcode_y (s : State) (v : Byte) : (s.setOpcode v).y = s.y := rfl
@[simp] theorem State.setOpcode_sp (s : State) (v : Byte) : (s.setOpcode v).sp = s.sp := rfl
@[simp] theorem State.setOpcode_pc (s : State) (v : Byte) : (s.setOpcode v).pc = s.pc := rfl
@[simp] theorem State.setOpcode_p (s : State) (v : Byte) : (s.setOpcode v).p = s.p := rfl
@[simp] theorem State.setOpcode_fetched (s : State) (v : Byte) : (s.setOpcode v).fetched = s.fetched := rfl
@[simp] theorem State.setOpcode_addrAbs (s : State) (v : Byte) : (s.setOpcode v).addrAbs = s.addrAbs := rfl
@[simp] theorem State.setOpcode_addrRel (s : State) (v : Byte) : (s.setOpcode v).addrRel = s.addrRel := rfl
@[simp] theorem State.setOpcode_opcode (s : State) (v : Byte) : (s.setOpcode v).opcode = v := rfl
@[simp] theorem State.setOpcode_cycles (s : State) (v : Byte) : (s.setOpcode v).cycles = s.cycles := rfl
@[simp] theorem State.setOpcode_irqPending (s : State) (v : Byte) : (s.setOpcode v).irqPending = s.irqPending := rfl
@[simp] theorem State.setOpcode_nmiPending (s : State) (v : Byte) : (s.setOpcode v).nmiPending = s.nmiPending := rfl
@[simp] theorem State.setOpcode_mem (s : State) (v : Byte) : (s.setOpcode v).mem = s.mem := rfl
@[simp] theorem State.setOpcode_bus (s : State) (v : Byte) : (s.setOpcode v).bus = s.bus := rfl
@[simp] theorem State.setOpcode_answers (s : State) (v : Byte) : (s.setOpcode v).answers = s.answers := rfl
@[simp] theorem State.setOpcode_peek (s : State) (v : Byte) (q : Addr) : (s.setOpcode v).peek q = s.peek q := rfl
@[simp] theorem State.setOpcode_answerAt (s : State) (v : Byte) (j : Nat) (q : Addr) :
    (s.setOpcode v).answerAt j q = s.answerAt j q := rfl
@[simp] theorem State.setOpcode_wordAnswer (s : State) (v : Byte) (q : Addr) : (s.setOpcode v).wordAnswer q = s.wordAnswer q := rfl
@[simp] theorem State.setOpcode_zeroPageWord (s : State) (v : Byte) (q : Byte) : (s.setOpcode v).zeroPageWord q = s.zeroPageWord q := rfl
@[simp] theorem State.setOpcode_popValue (s : State) (v : Byte) : (s.setOpcode v).popValue = s.popValue := rfl
@[simp] theorem State.setOpcode_flag (s : State) (v : Byte) (g : Flag) : (s.setOpcode v).flag g = s.flag g := rfl

@[simp] theorem State.setCycles_a (s : State) (n : Nat) : (s.setCycles n).a = s.a := rfl
@[simp] theorem State.setCycles_x (s : State) (n : Nat) : (s.setCycles n).x = s.x := rfl
@[simp] theorem State.setCycles_y (s : State) (n : Nat) : (s.setCycles n).y = s.y := rfl
@[simp] theorem State.setCycles_sp (s : State) (n : Nat) : (s.setCycles n).sp = s.sp := rfl
@[simp] theorem State.setCycles_pc (s : State) (n : Nat) : (s.setCycles n).pc = s.pc := rfl
@[simp] theorem State.setCycles_p (s : State) (n : Nat) : (s.setCycles n).p = s.p := rfl
@[simp] theorem State.setCycles_fetched (s : State) (n : Nat) : (s.setCycles n).fetched = s.fetched := rfl
@[simp] theorem State.setCycles_addrAbs (s : State) (n : Nat) : (s.setCycles n).addrAbs = s.addrAbs := rfl
@[simp] theorem State.setCycles_addrRel (s : State) (n : Nat) : (s.setCycles n).addrRel = s.addrRel := rfl
@[simp] theorem State.setCycles_opcode (s : State) (n : Nat) : (s.setCycles n).opcode = s.opcode := rfl
@[simp] theorem State.setCycles_cycles (s : State) (n : Nat) : (s.setCycles n).cycles = n := rfl
@[simp] theorem State.setCycles_irqPending (s : State) (n : Nat) : (s.setCycles n).irqPending = s.irqPending := rfl
@[simp] theorem State.setCycles_nmiPending (s : State) (n : Nat) : (s.setCycles n).nmiPending = s.nmiPending := rfl
@[simp] theorem State.setCycles_mem (s : State) (n : Nat) : (s.setCycles n).mem = s.mem := rfl
@[simp] theorem State.setCycles_bus (s : State) (n : Nat) : (s.setCycles n).bus = s.bus := rfl
@[simp] theorem State.setCycles_answers (s : State) (n : Nat) : (s.setCycles n).answers = s.answers := rfl
@[simp] theorem State.setCycles_peek (s : State) (n : Nat) (q : Addr) : (s.setCycles n).peek q = s.peek q := rfl
@[simp] theorem State.setCycles_answerAt (s : State) (n : Nat) (j : Nat) (q : Addr) :
    (s.setCycles n).answerAt j q = s.answerAt j q := rfl
@[simp] theorem State.setCycles_wordAnswer (s : State) (n : Nat) (q : Addr) : (s.setCycles n).wordAnswer q = s.wordAnswer q := rfl
@[simp] theorem State.setCycles_zeroPageWord (s : State) (n : Nat) (q : Byte) : (s.setCycles n).zeroPageWord q = s.zeroPageWord q := rfl
@[simp] theorem State.setCycles_popValue (s : State) (n : Nat) : (s.setCycles n).popValue = s.popValue := rfl
@[simp] theorem State.setCycles_flag (s : State) (n : Nat) (g : Flag) : (s.setCycles n).flag g = s.flag g := rfl

@[simp] theorem State.setIrq_a (s : State) (v : Bool) : (s.setIrq v).a = s.a := rfl
@[simp] theorem State.setIrq_x (s : State) (v : Bool) : (s.setIrq v).x = s.x := rfl
@[simp] theorem State.setIrq_y (s : State) (v : Bool) : (s.setIrq v).y = s.y := rfl
@[simp] theorem State.setIrq_sp (s : State) (v : Bool) : (s.setIrq v).sp = s.sp := rfl
@[simp] theorem State.setIrq_pc (s : State) (v : Bool) : (s.setIrq v).pc = s.pc := rfl
@[simp] theorem State.setIrq_p (s : State) (v : Bool) : (s.setIrq v).p = s.p := rfl
@[simp] theorem State.setIrq_fetched (s : State) (v : Bool) : (s.setIrq v).fetched = s.fetched := rfl
@[simp] theorem State.setIrq_addrAbs (s : State) (v : Bool) : (s.setIrq v).addrAbs = s.addrAbs := rfl
@[simp] theorem State.setIrq_addrRel (s : State) (v : Bool) : (s.setIrq v).addrRel = s.addrRel := rfl
@[simp] theorem State.setIrq_opcode (s : State) (v : Bool) : (s.setIrq v).opcode = s.opcode := rfl
@[simp] theorem State.setIrq_cycles (s : State) (v : Bool) : (s.setIrq v).cycles = s.cycles := rfl
@[simp] theorem State.setIrq_irqPending (s : State) (v : Bool) : (s.setIrq v).irqPending = v := rfl
@[simp] theorem State.setIrq_nmiPending (s : State) (v : Bool) : (s.setIrq v).nmiPending = s.nmiPending := rfl
@[simp] theorem State.setIrq_mem (s : State) (v : Bool) : (s.setIrq v).mem = s.mem := rfl
@[simp] theorem State.setIrq_bus (s : State) (v : Bool) : (s.setIrq v).bus = s.bus := rfl
@[simp] theorem State.setIrq_answers (s : State) (v : Bool) : (s.setIrq v).answers = s.answers := rfl
@[simp] theorem State.setIrq_peek (s : State) (v : Bool) (q : Addr) : (s.setIrq v).peek q = s.peek q := rfl
@[simp] theorem State.setIrq_answerAt (s : State) (v : Bool) (j : Nat) (q : Addr) :
    (s.setIrq v).answerAt j q = s.answerAt j q := rfl
@[simp] theorem State.setIrq_wordAnswer (s : State) (v : Bool) (q : Addr) : (s.setIrq v).wordAnswer q = s.wordAnswer q := rfl
@[simp] theorem State.setIrq_zeroPageWord (s : State) (v : Bool) (q : Byte) : (s.setIrq v).zeroPageWord q = s.zeroPageWord q := rfl
@[simp] theorem State.setIrq_popValue (s : State) (v : Bool) : (s.setIrq v).popValue = s.popValue := rfl
@[simp] theorem State.setIrq_flag (s : State) (v : Bool) (g : Flag) : (s.setIrq v).flag g = s.flag g := rfl

@[simp] theorem State.setNmi_a (s : State) (v : Bool) : (s.setNmi v).a = s.a := rfl
@[simp] theorem State.setNmi_x (s : State) (v : Bool) : (s.setNmi v).x = s.x := rfl
@[simp] theorem State.setNmi_y (s : State) (v : Bool) : (s.setNmi v).y = s.y := rfl
@[simp] theorem State.setNmi_sp (s : State) (v : Bool) : (s.setNmi v).sp = s.sp := rfl
@[simp] theorem State.setNmi_pc (s : State) (v : Bool) : (s.setNmi v).pc = s.pc := rfl
@[simp] theorem State.setNmi_p (s : State) (v : Bool) : (s.setNmi v).p = s.p := rfl
@[simp] theorem State.setNmi_fetched (s : State) (v : Bool) : (s.setNmi v).fetched = s.fetched := rfl
@[simp] theorem State.setNmi_addrAbs (s : State) (v : Bool) : (s.setNmi v).addrAbs = s.addrAbs := rfl
@[simp] theorem State.setNmi_addrRel (s : State) (v : Bool) : (s.setNmi v).addrRel = s.addrRel := rfl
@[simp] theorem State.setNmi_opcode (s : State) (v : Bool) : (s.setNmi v).opcode = s.opcode := rfl
@[simp] theorem State.setNmi_cycles (s : State) (v : Bool) : (s.setNmi v).cycles = s.cycles := rfl
@[simp] theorem State.setNmi_irqPending (s : State) (v : Bool) : (s.setNmi v).irqPending = s.irqPending := rfl
@[simp] theorem State.setNmi_nmiPending (s : State) (v : Bool) : (s.setNmi v).nmiPending = v := rfl
@[simp] theorem State.setNmi_mem (s : State) (v : Bool) : (s.setNmi v).mem = s.mem := rfl
@[simp] theorem State.setNmi_bus (s : State) (v : Bool) : (s.setNmi v).bus = s.bus := rfl
@[simp] theorem State.setNmi_answers (s : State) (v : Bool) : (s.setNmi v).answers = s.answers := rfl
@[simp] theorem State.setNmi_peek (s : State) (v : Bool) (q : Addr) : (s.setNmi v).peek q = s.peek q := rfl
@[simp] theorem State.setNmi_answerAt (s : State) (v : Bool) (j : Nat) (q : Addr) :
    (s.setNmi v).answerAt j q = s.answerAt j q := rfl
@[simp] theorem State.setNmi_wordAnswer (s : State) (v : Bool) (q : Addr) : (s.setNmi v).wordAnswer q = s.wordAnswer q := rfl
@[simp] theorem State.setNmi_zeroPageWord (s : State) (v : Bool) (q : Byte) : (s.setNmi v).zeroPageWord q = s.zeroPageWord q := rfl
@[simp] theorem State.setNmi_popValue (s : State) (v : Bool) : (s.setNmi v).popValue = s.popValue := rfl
@[simp] theorem State.setNmi_flag (s : State) (v : Bool) (g : Flag) : (s.setNmi v).flag g = s.flag g := rfl

@[simp] theorem State.setBus_a (s : State) (l : List BusCall) : (s.setBus l).a = s.a := rfl
@[simp] theorem State.setBus_x (s : State) (l : List BusCall) : (s.setBus l).x = s.x := rfl
@[simp] theorem State.setBus_y (s : State) (l : List BusCall) : (s.setBus l).y = s.y := rfl
@[simp] theorem State.setBus_sp (s : State) (l : List BusCall) : (s.setBus l).sp = s.sp := rfl
@[simp] theorem State.setBus_pc (s : State) (l : List BusCall) : (s.setBus l).pc = s.pc := rfl
@[simp] theorem State.setBus_p (s : State) (l : List BusCall) : (s.setBus l).p = s.p := rfl
@[simp] theorem State.setBus_fetched (s : State) (l : List BusCall) : (s.setBus l).fetched = s.fetched := rfl
@[simp] theorem State.setBus_addrAbs (s : State) (l : List BusCall) : (s.setBus l).addrAbs = s.addrAbs := rfl
@[simp] theorem State.setBus_addrRel (s : State) (l : List BusCall) : (s.setBus l).addrRel = s.addrRel := rfl
@[simp] theorem State.setBus_opcode (s : State) (l : List BusCall) : (s.setBus l).opcode = s.opcode := rfl
@[simp] theorem State.setBus_cycles (s : State) (l : List BusCall) : (s.setBus l).cycles = s.cycles := rfl
@[simp] theorem State.setBus_irqPending (s : State) (l : List BusCall) : (s.setBus l).irqPending = s.irqPending := rfl
@[simp] theorem State.setBus_nmiPending (s : State) (l : List BusCall) : (s.setBus l).nmiPending = s.nmiPending := rfl
@[simp] theorem State.setBus_mem (s : State) (l : List BusCall) : (s.setBus l).mem = s.mem := rfl
@[simp] theorem State.setBus_bus (s : State) (l : List BusCall) : (s.setBus l).bus = l := rfl
@[simp] theorem State.setBus_answers (s : State) (l : List BusCall) : (s.setBus l).answers = s.answers := rfl
@[simp] theorem State.setBus_peek (s : State) (l : List BusCall) (q : Addr) : (s.setBus l).peek q = s.peek q := rfl
@[simp] theorem State.setBus_answerAt (s : State) (l : List BusCall) (j : Nat) (q : Addr) :
    (s.setBus l).answerAt j q = s.answerAt j q := rfl
@[simp] theorem State.setBus_wordAnswer (s : State) (l : List BusCall) (q : Addr) : (s.setBus l).wordAnswer q = s.wordAnswer q := rfl
@[simp] theorem State.setBus_zeroPageWord (s : State) (l : List BusCall) (q : Byte) : (s.setBus l).zeroPageWord q = s.zeroPageWord q := rfl
@[simp] theorem State.setBus_popValue (s : State) (l : List BusCall) : (s.setBus l).popValue = s.popValue := rfl
@[simp] theorem State.setBus_flag (s : State) (l : List BusCall) (g : Flag) : (s.setBus l).flag g = s.flag g := rfl

@[simp] theorem State.setMem_a (s : State) (m : Memory) : (s.setMem m).a = s.a := rfl
@[simp] theorem State.setMem_x (s : State) (m : Memory) : (s.setMem m).x = s.x := rfl
@[simp] theorem State.setMem_y (s : State) (m : Memory) : (s.setMem m).y = s.y := rfl
@[simp] theorem State.setMem_sp (s : State) (m : Memory) : (s.setMem m).sp = s.sp := rfl
@[simp] theorem State.setMem_pc (s : State) (m : Memory) : (s.setMem m).pc = s.pc := rfl
@[simp] theorem State.setMem_p (s : State) (m : Memory) : (s.setMem m).p = s.p := rfl
@[simp] theorem State.setMem_fetched (s : State) (m : Memory) : (s.setMem m).fetched = s.fetched := rfl
@[simp] theorem State.setMem_addrAbs (s : State) (m : Memory) : (s.setMem m).addrAbs = s.addrAbs := rfl
@[simp] theorem State.setMem_addrRel (s : State) (m : Memory) : (s.setMem m).addrRel = s.addrRel := rfl
@[simp] theorem State.setMem_opcode (s : State) (m : Memory) : (s.setMem m).opcode = s.opcode := rfl
@[simp] theorem State.setMem_cycles (s : State) (m : Memory) : (s.setMem m).cycles = s.cycles := rfl
@[simp] theorem State.setMem_irqPending (s : State) (m : Memory) : (s.setMem m).irqPending = s.irqPending := rfl
@[simp] theorem State.setMem_nmiPending (s : State) (m : Memory) : (s.setMem m).nmiPending = s.nmiPending := rfl
@[simp] theorem State.setMem_mem (s : State) (m : Memory) : (s.setMem m).mem = m := rfl
@[simp] theorem State.setMem_bus (s : State) (m : Memory) : (s.setMem m).bus = s.bus := rfl
@[simp] theorem State.setMem_answers (s : State) (m : Memory) : (s.setMem m).answers = s.answers := rfl
@[simp] theorem State.setMem_flag (s : State) (m : Memory) (g : Flag) : (s.setMem m).flag g = s.flag g := rfl

@[simp] theorem State.setAnswers_a (s : State) (l : List Byte) : (s.setAnswers l).a = s.a := rfl
@[simp] theorem State.setAnswers_x (s : State) (l : List Byte) : (s.setAnswers l).x = s.x := rfl
@[simp] theorem State.setAnswers_y (s : State) (l : List Byte) : (s.setAnswers l).y = s.y := rfl
@[simp] theorem State.setAnswers_sp (s : State) (l : List Byte) : (s.setAnswers l).sp = s.sp := rfl
@[simp] theorem State.setAnswers_pc (s : State) (l : List Byte) : (s.setAnswers l).pc = s.pc := rfl
@[simp] theorem State.setAnswers_p (s : State) (l : List Byte) : (s.setAnswers l).p = s.p := rfl
@[simp] theorem State.setAnswers_fetched (s : State) (l : List Byte) : (s.setAnswers l).fetched = s.fetched := rfl
@[simp] theorem State.setAnswers_addrAbs (s : State) (l : List Byte) : (s.setAnswers l).addrAbs = s.addrAbs := rfl
@[simp] theorem State.setAnswers_addrRel (s : State) (l : List Byte) : (s.setAnswers l).addrRel = s.addrRel := rfl
@[simp] theorem State.setAnswers_opcode (s : State) (l : List Byte) : (s.setAnswers l).opcode = s.opcode := rfl
@[simp] theorem State.setAnswers_cycles (s : State) (l : List Byte) : (s.setAnswers l).cycles = s.cycles := rfl
@[simp] theorem State.setAnswers_irqPending (s : State) (l : List Byte) : (s.setAnswers l).irqPending = s.irqPending := rfl
@[simp] theorem State.setAnswers_nmiPending (s : State) (l : List Byte) : (s.setAnswers l).nmiPending = s.nmiPending := rfl
@[simp] theorem State.setAnswers_mem (s : State) (l : List Byte) : (s.setAnswers l).mem = s.mem := rfl
@[simp] theorem State.setAnswers_bus (s : State) (l : List Byte) : (s.setAnswers l).bus = s.bus := rfl
@[simp] theorem State.setAnswers_answers (s : State) (l : List Byte) : (s.setAnswers l).answers = l := rfl
@[simp] theorem State.setAnswers_peek (s : State) (l : List Byte) (q : Addr) : (s.setAnswers l).peek q = s.peek q := rfl
@[simp] theorem State.setAnswers_flag (s : State) (l : List Byte) (g : Flag) : (s.setAnswers l).flag g = s.flag g := rfl

@[simp] theorem State.setFlag_a (s : State) (f : Flag) (v : Bool) : (s.setFlag f v).a = s.a := by simp [State.setFlag]
@[simp] theorem State.setFlag_x (s : State) (f : Flag) (v : Bool) : (s.setFlag f v).x = s.x := by simp [State.setFlag]
@[simp] theorem State.setFlag_y (s : State) (f : Flag) (v : Bool) : (s.setFlag f v).y = s.y := by simp [State.setFlag]
@[simp] theorem State.setFlag_sp (s : State) (f : Flag) (v : Bool) : (s.setFlag f v).sp = s.sp := by simp [State.setFlag]
@[simp] theorem State.setFlag_pc (s : State) (f : Flag) (v : Bool) : (s.setFlag f v).pc = s.pc := by simp [State.setFlag]
@[simp] theorem State.setFlag_p (s : State) (f : Flag) (v : Bool) : (s.setFlag f v).p = putFlag s.p f v := by simp [State.setFlag]
@[simp] theorem State.setFlag_fetched (s : State) (f : Flag) (v : Bool) : (s.setFlag f v).fetched = s.fetched := by simp [State.setFlag]
@[simp] theorem State.setFlag_addrAbs (s : State) (f : Flag) (v : Bool) : (s.setFlag f v).addrAbs = s.addrAbs := by simp [State.setFlag]
@[simp] theorem State.setFlag_addrRel (s : State) (f : Flag) (v : Bool) : (s.setFlag f v).addrRel = s.addrRel := by simp [State.setFlag]
@[simp] theorem State.setFlag_opcode (s : State) (f : Flag) (v : Bool) : (s.setFlag f v).opcode = s.opcode := by simp [State.setFlag]
@[simp] theorem State.setFlag_cycles (s : State) (f : Flag) (v : Bool) : (s.setFlag f v).cycles = s.cycles := by simp [State.setFlag]
@[simp] theorem State.setFlag_irqPending (s : State) (f : Flag) (v : Bool) : (s.setFlag f v).irqPending = s.irqPending := by simp [State.setFlag]
@[simp] theorem State.setFlag_nmiPending (s : State) (f : Flag) (v : Bool) : (s.setFlag f v).nmiPending = s.nmiPending := by simp [State.setFlag]
@[simp] theorem State.setFlag_mem (s : State) (f : Flag) (v : Bool) : (s.setFlag f v).mem = s.mem := by simp [State.setFlag]
@[simp] theorem State.setFlag_bus (s : State) (f : Flag) (v : Bool) : (s.setFlag f v).bus = s.bus := by simp [State.setFlag]
@[simp] theorem State.setFlag_answers (s : State) (f : Flag) (v : Bool) : (s.setFlag f v).answers = s.answers := by simp [State.setFlag]
@[simp] theorem State.setFlag_peek (s : State) (f : Flag) (v : Bool) (q : Addr) : (s.setFlag f v).peek q = s.peek q := by simp [State.peek]
@[simp] theorem State.setFlag_answerAt (s : State) (f : Flag) (v : Bool) (j : Nat) (q : Addr) :
    (s.setFlag f v).answerAt j q = s.answerAt j q := by simp [State.answerAt]
@[simp] theorem State.setFlag_wordAnswer (s : State) (f : Flag) (v : Bool) (q : Addr) : (s.setFlag f v).wordAnswer q = s.wordAnswer q := by simp [State.wordAnswer]
@[simp] theorem State.setFlag_zeroPageWord (s : State) (f : Flag) (v : Bool) (q : Byte) : (s.setFlag f v).zeroPageWord q = s.zeroPageWord q := by simp [State.zeroPageWord]
@[simp] theorem State.setFlag_popValue (s : State) (f : Flag) (v : Bool) : (s.setFlag f v).popValue = s.popValue := by simp [State.popValue]

@[simp] theorem State.setZN_a (s : State) (v : Byte) : (s.setZN v).a = s.a := by simp [State.setZN]
@[simp] theorem State.setZN_x (s : State) (v : Byte) : (s.setZN v).x = s.x := by simp [State.setZN]
@[simp] theorem State.setZN_y (s : State) (v : Byte) : (s.setZN v).y = s.y := by simp [State.setZN]
@[simp] theorem State.setZN_sp (s : State) (v : Byte) : (s.setZN v).sp = s.sp := by simp [State.setZN]
@[simp] theorem State.setZN_pc (s : State) (v : Byte) : (s.setZN v).pc = s.pc := by simp [State.setZN]
@[simp] theorem State.setZN_p (s : State) (v : Byte) : (s.setZN v).p = putFlag (putFlag s.p .z (decide (v = 0))) .n (v.getLsbD 7) := by simp [State.setZN]
@[simp] theorem State.setZN_fetched (s : State) (v : Byte) : (s.setZN v).fetched = s.fetched := by simp [State.setZN]
@[simp] theorem State.setZN_addrAbs (s : State) (v : Byte) : (s.setZN v).addrAbs = s.addrAbs := by simp [State.setZN]
@[simp] theorem State.setZN_addrRel (s : State) (v : Byte) : (s.setZN v).addrRel = s.addrRel := by simp [State.setZN]
@[simp] theorem State.setZN_opcode (s : State) (v : Byte) : (s.setZN v).opcode = s.opcode := by simp [State.setZN]
@[simp] theorem State.setZN_cycles (s : State) (v : Byte) : (s.setZN v).cycles = s.cycles := by simp [State.setZN]
@[simp] theorem State.setZN_irqPending (s : State) (v : Byte) : (s.setZN v).irqPending = s.irqPending := by simp [State.setZN]
@[simp] theorem State.setZN_nmiPending (s : State) (v : Byte) : (s.setZN v).nmiPending = s.nmiPending := by simp [State.setZN]
@[simp] theorem State.setZN_mem (s : State) (v : Byte) : (s.setZN v).mem = s.mem := by simp [State.setZN]
@[simp] theorem State.setZN_bus (s : State) (v : Byte) : (s.setZN v).bus = s.bus := by simp [State.setZN]
@[simp] theorem State.setZN_answers (s : State) (v : Byte) : (s.setZN v).answers = s.answers := by simp [State.setZN]
@[simp] theorem State.setZN_peek (s : State) (v : Byte) (q : Addr) : (s.setZN v).peek q = s.peek q := by simp [State.peek]
@[simp] theorem State.setZN_answerAt (s : State) (v : Byte) (j : Nat) (q : Addr) :
    (s.setZN v).answerAt j q = s.answerAt j q := by simp [State.answerAt]
@[simp] theorem State.setZN_wordAnswer (s : State) (v : Byte) (q : Addr) : (s.setZN v).wordAnswer q = s.wordAnswer q := by simp [State.wordAnswer]
@[simp] theorem State.setZN_zeroPageWord (s : State) (v : Byte) (q : Byte) : (s.setZN v).zeroPageWord q = s.zeroPageWord q := by simp [State.zeroPageWord]
@[simp] theorem State.setZN_popValue (s : State) (v : Byte) : (s.setZN v).popValue = s.popValue := by simp [State.popValue]

@[simp] theorem State.recordRead_a (s : State) (k : Addr) (b : Byte) : (s.recordRead k b).a = s.a := by simp [State.recordRead]
@[simp] theorem State.recordRead_x (s : State) (k : Addr) (b : Byte) : (s.recordRead k b).x = s.x := by simp [State.recordRead]
@[simp] theorem State.recordRead_y (s : State) (k : Addr) (b : Byte) : (s.recordRead k b).y = s.y := by simp [State.recordRead]
@[simp] theorem State.recordRead_sp (s : State) (k : Addr) (b : Byte) : (s.recordRead k b).sp = s.sp := by simp [State.recordRead]
@[simp] theorem State.recordRead_pc (s : State) (k : Addr) (b : Byte) : (s.recordRead k b).pc = s.pc := by simp [State.recordRead]
@[simp] theorem State.recordRead_p (s : State) (k : Addr) (b : Byte) : (s.recordRead k b).p = s.p := by simp [State.recordRead]
@[simp] theorem State.recordRead_fetched (s : State) (k : Addr) (b : Byte) : (s.recordRead k b).fetched = s.fetched := by simp [State.recordRead]
@[simp] theorem State.recordRead_addrAbs (s : State) (k : Addr) (b : Byte) : (s.recordRead k b).addrAbs = s.addrAbs := by simp [State.recordRead]
@[simp] theorem State.recordRead_addrRel (s : State) (k : Addr) (b : Byte) : (s.recordRead k b).addrRel = s.addrRel := by simp [State.recordRead]
@[simp] theorem State.recordRead_opcode (s : State) (k : Addr) (b : Byte) : (s.recordRead k b).opcode = s.opcode := by simp [State.recordRead]
@[simp] theorem State.recordRead_cycles (s : State) (k : Addr) (b : Byte) : (s.recordRead k b).cycles = s.cycles := by simp [State.recordRead]
@[simp] theorem State.recordRead_irqPending (s : State) (k : Addr) (b : Byte) : (s.recordRead k b).irqPending = s.irqPending := by simp [State.recordRead]
@[simp] theorem State.recordRead_nmiPending (s : State) (k : Addr) (b : Byte) : (s.recordRead k b).nmiPending = s.nmiPending := by simp [State.recordRead]
@[simp] theorem State.recordRead_mem (s : State) (k : Addr) (b : Byte) : (s.recordRead k b).mem = s.mem := by simp [State.recordRead]
@[simp] theorem State.recordRead_bus (s : State) (k : Addr) (b : Byte) : (s.recordRead k b).bus = s.bus ++ [.read k b] := by simp [State.recordRead]
@[simp] theorem State.recordRead_answers (s : State) (k : Addr) (b : Byte) : (s.recordRead k b).answers = s.answers.drop 1 := by simp [State.recordRead]
@[simp] theorem State.recordRead_peek (s : State) (k : Addr) (b : Byte) (q : Addr) : (s.recordRead k b).peek q = s.peek q := by simp [State.peek]
@[simp] theorem State.recordRead_answerAt (s : State) (k : Addr) (b : Byte) (j : Nat) (q : Addr) :
    (s.recordRead k b).answerAt j q = s.answerAt (j + 1) q := by
  simp [State.answerAt]
@[simp] theorem State.recordRead_flag (s : State) (k : Addr) (b : Byte) (g : Flag) : (s.recordRead k b).flag g = s.flag g := by simp [State.flag]

@[simp] theorem State.noteRead_a (s : State) (k : Addr) : (s.noteRead k).a = s.a := by simp [State.noteRead]
@[simp] theorem State.noteRead_x (s : State) (k : Addr) : (s.noteRead k).x = s.x := by simp [State.noteRead]
@[simp] theorem State.noteRead_y (s : State) (k : Addr) : (s.noteRead k).y = s.y := by simp [State.noteRead]
@[simp] theorem State.noteRead_sp (s : State) (k : Addr) : (s.noteRead k).sp = s.sp := by simp [State.noteRead]
@[simp] theorem State.noteRead_pc (s : State) (k : Addr) : (s.noteRead k).pc = s.pc := by simp [State.noteRead]
@[simp] theorem State.noteRead_p (s : State) (k : Addr) : (s.noteRead k).p = s.p := by simp [State.noteRead]
@[simp] theorem State.noteRead_fetched (s : State) (k : Addr) : (s.noteRead k).fetched = s.fetched := by simp [State.noteRead]
@[simp] theorem State.noteRead_addrAbs (s : State) (k : Addr) : (s.noteRead k).addrAbs = s.addrAbs := by simp [State.noteRead]
@[simp] theorem State.noteRead_addrRel (s : State) (k : Addr) : (s.noteRead k).addrRel = s.addrRel := by simp [State.noteRead]
@[simp] theorem State.noteRead_opcode (s : State) (k : Addr) : (s.noteRead k).opcode = s.opcode := by simp [State.noteRead]
@[simp] theorem State.noteRead_cycles (s : State) (k : Addr) : (s.noteRead k).cycles = s.cycles := by simp [State.noteRead]
@[simp] theorem State.noteRead_irqPending (s : State) (k : Addr) : (s.noteRead k).irqPending = s.irqPending := by simp [State.noteRead]
@[simp] theorem State.noteRead_nmiPending (s : State) (k : Addr) : (s.noteRead k).nmiPending = s.nmiPending := by simp [State.noteRead]
@[simp] theorem State.noteRead_mem (s : State) (k : Addr) : (s.noteRead k).mem = s.mem := by simp [State.noteRead]
@[simp] theorem State.noteRead_bus (s : State) (k : Addr) : (s.noteRead k).bus = s.bus ++ [.read k (s.answerAt 0 k)] := by simp [State.noteRead]
@[simp] theorem State.noteRead_answers (s : State) (k : Addr) : (s.noteRead k).answers = s.answers.drop 1 := by simp [State.noteRead]
@[simp] theorem State.noteRead_peek (s : State) (k : Addr) (q : Addr) : (s.noteRead k).peek q = s.peek q := by simp [State.peek]
@[simp] theorem State.noteRead_answerAt (s : State) (k : Addr) (j : Nat) (q : Addr) :
    (s.noteRead k).answerAt j q = s.answerAt (j + 1) q := by
  simp [State.answerAt]
@[simp] theorem State.noteRead_flag (s : State) (k : Addr) (g : Flag) : (s.noteRead k).flag g = s.flag g := by simp [State.flag]

@[simp] theorem State.noteReadWord_a (s : State) (k : Addr) : (s.noteReadWord k).a = s.a := by simp [State.noteReadWord]
@[simp] theorem State.noteReadWord_x (s : State) (k : Addr) : (s.noteReadWord k).x = s.x := by simp [State.noteReadWord]
@[simp] theorem State.noteReadWord_y (s : State) (k : Addr) : (s.noteReadWord k).y = s.y := by simp [State.noteReadWord]
@[simp] theorem State.noteReadWord_sp (s : State) (k : Addr) : (s.noteReadWord k).sp = s.sp := by simp [State.noteReadWord]
@[simp] theorem State.noteReadWord_pc (s : State) (k : Addr) : (s.noteReadWord k).pc = s.pc := by simp [State.noteReadWord]
@[simp] theorem State.noteReadWord_p (s : State) (k : Addr) : (s.noteReadWord k).p = s.p := by simp [State.noteReadWord]
@[simp] theorem State.noteReadWord_fetched (s : State) (k : Addr) : (s.noteReadWord k).fetched = s.fetched := by simp [State.noteReadWord]
@[simp] theorem State.noteReadWord_addrAbs (s : State) (k : Addr) : (s.noteReadWord k).addrAbs = s.addrAbs := by simp [State.noteReadWord]
@[simp] theorem State.noteReadWord_addrRel (s : State) (k : Addr) : (s.noteReadWord k).addrRel = s.addrRel := by simp [State.noteReadWord]
@[simp] theorem State.noteReadWord_opcode (s : State) (k : Addr) : (s.noteReadWord k).opcode = s.opcode := by simp [State.noteReadWord]
@[simp] theorem State.noteReadWord_cycles (s : State) (k : Addr) : (s.noteReadWord k).cycles = s.cycles := by simp [State.noteReadWord]
@[simp] theorem State.noteReadWord_irqPending (s : State) (k : Addr) : (s.noteReadWord k).irqPending = s.irqPending := by simp [State.noteReadWord]
@[simp] theorem State.noteReadWord_nmiPending (s : State) (k : Addr) : (s.noteReadWord k).nmiPending = s.nmiPending := by simp [State.noteReadWord]
@[simp] theorem State.noteReadWord_mem (s : State) (k : Addr) : (s.noteReadWord k).mem = s.mem := by simp [State.noteReadWord]
@[simp] theorem State.noteReadWord_bus (s : State) (k : Addr) : (s.noteReadWord k).bus = (s.bus ++ [.read k (s.answerAt 0 k)]) ++ [.read (k + 1) (s.answerAt 1 (k + 1))] := by simp [State.noteReadWord, State.answerAt, State.peek]
@[simp] theorem State.noteReadWord_answers (s : State) (k : Addr) : (s.noteReadWord k).answers = s.answers.drop 2 := by simp [State.noteReadWord]
@[simp] theorem State.noteReadWord_peek (s : State) (k : Addr) (q : Addr) : (s.noteReadWord k).peek q = s.peek q := by simp [State.peek]
@[simp] theorem State.noteReadWord_answerAt (s : State) (k : Addr) (j : Nat) (q : Addr) :
    (s.noteReadWord k).answerAt j q = s.answerAt (j + 2) q := by
  simp [State.answerAt, Nat.add_comm]
@[simp] theorem State.noteReadWord_flag (s : State) (k : Addr) (g : Flag) : (s.noteReadWord k).flag g = s.flag g := by simp [State.flag]

@[simp] theorem State.noteZeroPageWord_a (s : State) (z : Byte) : (s.noteZeroPageWord z).a = s.a := by simp [State.noteZeroPageWord]
@[simp] theorem State.noteZeroPageWord_x (s : State) (z : Byte) : (s.noteZeroPageWord z).x = s.x := by simp [State.noteZeroPageWord]
@[simp] theorem State.noteZeroPageWord_y (s : State) (z : Byte) : (s.noteZeroPageWord z).y = s.y := by simp [State.noteZeroPageWord]
@[simp] theorem State.noteZeroPageWord_sp (s : State) (z : Byte) : (s.noteZeroPageWord z).sp = s.sp := by simp [State.noteZeroPageWord]
@[simp] theorem State.noteZeroPageWord_pc (s : State) (z : Byte) : (s.noteZeroPageWord z).pc = s.pc := by simp [State.noteZeroPageWord]
@[simp] theorem State.noteZeroPageWord_p (s : State) (z : Byte) : (s.noteZeroPageWord z).p = s.p := by simp [State.noteZeroPageWord]
@[simp] theorem State.noteZeroPageWord_fetched (s : State) (z : Byte) : (s.noteZeroPageWord z).fetched = s.fetched := by simp [State.noteZeroPageWord]
@[simp] theorem State.noteZeroPageWord_addrAbs (s : State) (z : Byte) : (s.noteZeroPageWord z).addrAbs = s.addrAbs := by simp [State.noteZeroPageWord]
@[simp] theorem State.noteZeroPageWord_addrRel (s : State) (z : Byte) : (s.noteZeroPageWord z).addrRel = s.addrRel := by simp [State.noteZeroPageWord]
@[simp] theorem State.noteZeroPageWord_opcode (s : State) (z : Byte) : (s.noteZeroPageWord z).opcode = s.opcode := by simp [State.noteZeroPageWord]
@[simp] theorem State.noteZeroPageWord_cycles (s : State) (z : Byte) : (s.noteZeroPageWord z).cycles = s.cycles := by simp [State.noteZeroPageWord]
@[simp] theorem State.noteZeroPageWord_irqPending (s : State) (z : Byte) : (s.noteZeroPageWord z).irqPending = s.irqPending := by simp [State.noteZeroPageWord]
@[simp] theorem State.noteZeroPageWord_nmiPending (s : State) (z : Byte) : (s.noteZeroPageWord z).nmiPending = s.nmiPending := by simp [State.noteZeroPageWord]
@[simp] theorem State.noteZeroPageWord_mem (s : State) (z : Byte) : (s.noteZeroPageWord z).mem = s.mem := by simp [State.noteZeroPageWord]
@[simp] theorem State.noteZeroPageWord_bus (s : State) (z : Byte) : (s.noteZeroPageWord z).bus = (s.bus ++ [.read (zext16 z) (s.answerAt 0 (zext16 z))]) ++
      [.read (zext16 (z + 1)) (s.answerAt 1 (zext16 (z + 1)))] := by simp [State.noteZeroPageWord, State.answerAt, State.peek]
@[simp] theorem State.noteZeroPageWord_answers (s : State) (z : Byte) : (s.noteZeroPageWord z).answers = s.answers.drop 2 := by simp [State.noteZeroPageWord]
@[simp] theorem State.noteZeroPageWord_peek (s : State) (z : Byte) (q : Addr) : (s.noteZeroPageWord z).peek q = s.peek q := by simp [State.peek]
@[simp] theorem State.noteZeroPageWord_answerAt (s : State) (z : Byte) (j : Nat) (q : Addr) :
    (s.noteZeroPageWord z).answerAt j q = s.answerAt (j + 2) q := by
  simp [State.answerAt, Nat.add_comm]
@[simp] theorem State.noteZeroPageWord_flag (s : State) (z : Byte) (g : Flag) : (s.noteZeroPageWord z).flag g = s.flag g := by simp [State.flag]

@[simp] theorem State.takeByte_a (s : State) (b : Byte) : (s.takeByte b).a = s.a := by simp [State.takeByte]
@[simp] theorem State.takeByte_x (s : State) (b : Byte) : (s.takeByte b).x = s.x := by simp [State.takeByte]
@[simp] theorem State.takeByte_y (s : State) (b : Byte) : (s.takeByte b).y = s.y := by simp [State.takeByte]
@[simp] theorem State.takeByte_sp (s : State) (b : Byte) : (s.takeByte b).sp = s.sp := by simp [State.takeByte]
@[simp] theorem State.takeByte_pc (s : State) (b : Byte) : (s.takeByte b).pc = s.pc + 1 := by simp [State.takeByte]
@[simp] theorem State.takeByte_p (s : State) (b : Byte) : (s.takeByte b).p = s.p := by simp [State.takeByte]
@[simp] theorem State.takeByte_fetched (s : State) (b : Byte) : (s.takeByte b).fetched = s.fetched := by simp [State.takeByte]
@[simp] theorem State.takeByte_addrAbs (s : State) (b : Byte) : (s.takeByte b).addrAbs = s.addrAbs := by simp [State.takeByte]
@[simp] theorem State.takeByte_addrRel (s : State) (b : Byte) : (s.takeByte b).addrRel = s.addrRel := by simp [State.takeByte]
@[simp] theorem State.takeByte_opcode (s : State) (b : Byte) : (s.takeByte b).opcode = s.opcode := by simp [State.takeByte]
@[simp] theorem State.takeByte_cycles (s : State) (b : Byte) : (s.takeByte b).cycles = s.cycles := by simp [State.takeByte]
@[simp] theorem State.takeByte_irqPending (s : State) (b : Byte) : (s.takeByte b).irqPending = s.irqPending := by simp [State.takeByte]
@[simp] theorem State.takeByte_nmiPending (s : State) (b : Byte) : (s.takeByte b).nmiPending = s.nmiPending := by simp [State.takeByte]
@[simp] theorem State.takeByte_mem (s : State) (b : Byte) : (s.takeByte b).mem = s.mem := by simp [State.takeByte]
@[simp] theorem State.takeByte_bus (s : State) (b : Byte) : (s.takeByte b).bus = s.bus ++ [.read s.pc b] := by simp [State.takeByte]
@[simp] theorem State.takeByte_answers (s : State) (b : Byte) : (s.takeByte b).answers = s.answers.drop 1 := by simp [State.takeByte]
@[simp] theorem State.takeByte_peek (s : State) (b : Byte) (q : Addr) : (s.takeByte b).peek q = s.peek q := by simp [State.peek]
@[simp] theorem State.takeByte_answerAt (s : State) (b : Byte) (j : Nat) (q : Addr) :
    (s.takeByte b).answerAt j q = s.answerAt (j + 1) q := by
  simp [State.answerAt]
@[simp] theorem State.takeByte_flag (s : State) (b : Byte) (g : Flag) : (s.takeByte b).flag g = s.flag g := by simp [State.flag]

@[simp] theorem State.takeWord_a (s : State) (w : Addr) : (s.takeWord w).a = s.a := by simp [State.takeWord]
@[simp] theorem State.takeWord_x (s : State) (w : Addr) : (s.takeWord w).x = s.x := by simp [State.takeWord]
@[simp] theorem State.takeWord_y (s : State) (w : Addr) : (s.takeWord w).y = s.y := by simp [State.takeWord]
@[simp] theorem State.takeWord_sp (s : State) (w : Addr) : (s.takeWord w).sp = s.sp := by simp [State.takeWord]
@[simp] theorem State.takeWord_pc (s : State) (w : Addr) : (s.takeWord w).pc = s.pc + 1 + 1 := by simp [State.takeWord]
@[simp] theorem State.takeWord_p (s : State) (w : Addr) : (s.takeWord w).p = s.p := by simp [State.takeWord]
@[simp] theorem State.takeWord_fetched (s : State) (w : Addr) : (s.takeWord w).fetched = s.fetched := by simp [State.takeWord]
@[simp] theorem State.takeWord_addrAbs (s : State) (w : Addr) : (s.takeWord w).addrAbs = s.addrAbs := by simp [State.takeWord]
@[simp] theorem State.takeWord_addrRel (s : State) (w : Addr) : (s.takeWord w).addrRel = s.addrRel := by simp [State.takeWord]
@[simp] theorem State.takeWord_opcode (s : State) (w : Addr) : (s.takeWord w).opcode = s.opcode := by simp [State.takeWord]
@[simp] theorem State.takeWord_cycles (s : State) (w : Addr) : (s.takeWord w).cycles = s.cycles := by simp [State.takeWord]
@[simp] theorem State.takeWord_irqPending (s : State) (w : Addr) : (s.takeWord w).irqPending = s.irqPending := by simp [State.takeWord]
@[simp] theorem State.takeWord_nmiPending (s : State) (w : Addr) : (s.takeWord w).nmiPending = s.nmiPending := by simp [State.takeWord]
@[simp] theorem State.takeWord_mem (s : State) (w : Addr) : (s.takeWord w).mem = s.mem := by simp [State.takeWord]
@[simp] theorem State.takeWord_bus (s : State) (w : Addr) : (s.takeWord w).bus = (s.bus ++ [.read s.pc (lo8 w)]) ++ [.read (s.pc + 1) (hi8 w)] := by simp [State.takeWord]
@[simp] theorem State.takeWord_answers (s : State) (w : Addr) : (s.takeWord w).answers = s.answers.drop 2 := by simp [State.takeWord]
@[simp] theorem State.takeWord_peek (s : State) (w : Addr) (q : Addr) : (s.takeWord w).peek q = s.peek q := by simp [State.peek]
@[simp] theorem State.takeWord_answerAt (s : State) (w : Addr) (j : Nat) (q : Addr) :
    (s.takeWord w).answerAt j q = s.answerAt (j + 2) q := by
  simp [State.answerAt, Nat.add_comm]
@[simp] theorem State.takeWord_flag (s : State) (w : Addr) (g : Flag) : (s.takeWord w).flag g = s.flag g := by simp [State.flag]

@[simp] theorem State.store_a (s : State) (k : Addr) (v : Byte) : (s.store k v).a = s.a := by simp [State.store]
@[simp] theorem State.store_x (s : State) (k : Addr) (v : Byte) : (s.store k v).x = s.x := by simp [State.store]
@[simp] theorem State.store_y (s : State) (k : Addr) (v : Byte) : (s.store k v).y = s.y := by simp [State.store]
@[simp] theorem State.store_sp (s : State) (k : Addr) (v : Byte) : (s.store k v).sp = s.sp := by simp [State.store]
@[simp] theorem State.store_pc (s : State) (k : Addr) (v : Byte) : (s.store k v).pc = s.pc := by simp [State.store]
@[simp] theorem State.store_p (s : State) (k : Addr) (v : Byte) : (s.store k v).p = s.p := by simp [State.store]
@[simp] theorem State.store_fetched (s : State) (k : Addr) (v : Byte) : (s.store k v).fetched = s.fetched := by simp [State.store]
@[simp] theorem State.store_addrAbs (s : State) (k : Addr) (v : Byte) : (s.store k v).addrAbs = s.addrAbs := by simp [State.store]
@[simp] theorem State.store_addrRel (s : State) (k : Addr) (v : Byte) : (s.store k v).addrRel = s.addrRel := by simp [State.store]
@[simp] theorem State.store_opcode (s : State) (k : Addr) (v : Byte) : (s.store k v).opcode = s.opcode := by simp [State.store]
@[simp] theorem State.store_cycles (s : State) (k : Addr) (v : Byte) : (s.store k v).cycles = s.cycles := by simp [State.store]
@[simp] theorem State.store_irqPending (s : State) (k : Addr) (v : Byte) : (s.store k v).irqPending = s.irqPending := by simp [State.store]
@[simp] theorem State.store_nmiPending (s : State) (k : Addr) (v : Byte) : (s.store k v).nmiPending = s.nmiPending := by simp [State.store]
@[simp] theorem State.store_mem (s : State) (k : Addr) (v : Byte) : (s.store k v).mem = s.mem.write k.toNat v := by simp [State.store]
@[simp] theorem State.store_bus (s : State) (k : Addr) (v : Byte) : (s.store k v).bus = s.bus ++ [.write k v] := by simp [State.store]
@[simp] theorem State.store_answers (s : State) (k : Addr) (v : Byte) : (s.store k v).answers = s.answers := by simp [State.store]
@[simp] theorem State.store_flag (s : State) (k : Addr) (v : Byte) (g : Flag) : (s.store k v).flag g = s.flag g := by simp [State.flag]

@[simp] theorem State.push_a (s : State) (v : Byte) : (s.push v).a = s.a := by simp [State.push]
@[simp] theorem State.push_x (s : State) (v : Byte) : (s.push v).x = s.x := by simp [State.push]
@[simp] theorem State.push_y (s : State) (v : Byte) : (s.push v).y = s.y := by simp [State.push]
@[simp] theorem State.push_sp (s : State) (v : Byte) : (s.push v).sp = s.sp - 1 := by simp [State.push]
@[simp] theorem State.push_pc (s : State) (v : Byte) : (s.push v).pc = s.pc := by simp [State.push]
@[simp] theorem State.push_p (s : State) (v : Byte) : (s.push v).p = s.p := by simp [State.push]
@[simp] theorem State.push_fetched (s : State) (v : Byte) : (s.push v).fetched = s.fetched := by simp [State.push]
@[simp] theorem State.push_addrAbs (s : State) (v : Byte) : (s.push v).addrAbs = s.addrAbs := by simp [State.push]
@[simp] theorem State.push_addrRel (s : State) (v : Byte) : (s.push v).addrRel = s.addrRel := by simp [State.push]
@[simp] theorem State.push_opcode (s : State) (v : Byte) : (s.push v).opcode = s.opcode := by simp [State.push]
@[simp] theorem State.push_cycles (s : State) (v : Byte) : (s.push v).cycles = s.cycles := by simp [State.push]
@[simp] theorem State.push_irqPending (s : State) (v : Byte) : (s.push v).irqPending = s.irqPending := by simp [State.push]
@[simp] theorem State.push_nmiPending (s : State) (v : Byte) : (s.push v).nmiPending = s.nmiPending := by simp [State.push]
@[simp] theorem State.push_mem (s : State) (v : Byte) : (s.push v).mem = s.mem.write (stackAddr s.sp).toNat v := by simp [State.push]
@[simp] theorem State.push_bus (s : State) (v : Byte) : (s.push v).bus = s.bus ++ [.write (stackAddr s.sp) v] := by simp [State.push]
@[simp] theorem State.push_answers (s : State) (v : Byte) : (s.push v).answers = s.answers := by simp [State.push]
@[simp] theorem State.push_flag (s : State) (v : Byte) (g : Flag) : (s.push v).flag g = s.flag g := by simp [State.flag]

@[simp] theorem State.pop_a (s : State) : (s.pop).a = s.a := by simp [State.pop]
@[simp] theorem State.pop_x (s : State) : (s.pop).x = s.x := by simp [State.pop]
@[simp] theorem State.pop_y (s : State) : (s.pop).y = s.y := by simp [State.pop]
@[simp] theorem State.pop_sp (s : State) : (s.pop).sp = s.sp + 1 := by simp [State.pop]
@[simp] theorem State.pop_pc (s : State) : (s.pop).pc = s.pc := by simp [State.pop]
@[simp] theorem State.pop_p (s : State) : (s.pop).p = s.p := by simp [State.pop]
@[simp] theorem State.pop_fetched (s : State) : (s.pop).fetched = s.fetched := by simp [State.pop]
@[simp] theorem State.pop_addrAbs (s : State) : (s.pop).addrAbs = s.addrAbs := by simp [State.pop]
@[simp] theorem State.pop_addrRel (s : State) : (s.pop).addrRel = s.addrRel := by simp [State.pop]
@[simp] theorem State.pop_opcode (s : State) : (s.pop).opcode = s.opcode := by simp [State.pop]
@[simp] theorem State.pop_cycles (s : State) : (s.pop).cycles = s.cycles := by simp [State.pop]
@[simp] theorem State.pop_irqPending (s : State) : (s.pop).irqPending = s.irqPending := by simp [State.pop]
@[simp] theorem State.pop_nmiPending (s : State) : (s.pop).nmiPending = s.nmiPending := by simp [State.pop]
@[simp] theorem State.pop_mem (s : State) : (s.pop).mem = s.mem := by simp [State.pop]
@[simp] theorem State.pop_bus (s : State) : (s.pop).bus = s.bus ++ [.read (stackAddr (s.sp + 1)) (s.answerAt 0 (stackAddr (s.sp + 1)))] := by simp [State.pop]
@[simp] theorem State.pop_answers (s : State) : (s.pop).answers = s.answers.drop 1 := by simp [State.pop]
@[simp] theorem State.pop_peek (s : State) (q : Addr) : (s.pop).peek q = s.peek q := by simp [State.peek]
@[simp] theorem State.pop_answerAt (s : State) (j : Nat) (q : Addr) :
    (s.pop).answerAt j q = s.answerAt (j + 1) q := by
  simp [State.answerAt]
@[simp] theorem State.pop_flag (s : State) (g : Flag) : (s.pop).flag g = s.flag g := by simp [State.flag]

@[simp] theorem State.setAnswers_answerAt (s : State) (l : List Byte) (j : Nat) (q : Addr) :
    (s.setAnswers l).answerAt j q = l.getD j (s.peek q) := rfl

end Sys2Proof.Machine
end

