-- ==== Sys2Proof/Laws/Flags.lean ====
section
/-! SUPPORT. The status byte: a flag write changes one bit (10_state.md R19), and what each whole-byte form of `P`
holds flag by flag. -/

namespace Sys2Proof.Machine

theorem flagBit_injective {f g : Flag} (h : flagBit f = flagBit g) : f = g := by
  cases f <;> cases g <;> first | rfl | exact absurd h (by decide)

theorem flagBit_lt (f : Flag) : flagBit f < 8 := by cases f <;> decide

theorem getLsbD_flagMask (f g : Flag) : (flagMask f).getLsbD (flagBit g) = decide (g = f) := by
  cases f <;> cases g <;> decide

/-- Writing a flag changes that flag and no other (R19). -/
@[simp] theorem getFlag_putFlag (p : Byte) (f g : Flag) (v : Bool) :
    getFlag (putFlag p f v) g = if g = f then v else getFlag p g := by
  have hg := flagBit_lt g
  unfold getFlag putFlag
  cases v
  · simp only [Bool.false_eq_true, if_false, BitVec.getLsbD_and, BitVec.getLsbD_not, getLsbD_flagMask, hg]
    split <;> simp_all
  · simp only [if_true, BitVec.getLsbD_or, getLsbD_flagMask]
    split <;> simp_all

/-- A status byte is its eight flags. -/
theorem eq_of_getFlag {p q : Byte} (h : ∀ f, getFlag p f = getFlag q f) : p = q := by
  apply BitVec.eq_of_getLsbD_eq
  intro i hi
  have h0 := h .c; have h1 := h .z; have h2 := h .i; have h3 := h .d
  have h4 := h .b; have h5 := h .u; have h6 := h .v; have h7 := h .n
  simp only [getFlag, flagBit] at h0 h1 h2 h3 h4 h5 h6 h7
  interval_cases i <;> assumption

/-- Writes of two flags commute. -/
theorem putFlag_comm (p : Byte) {f g : Flag} (h : f ≠ g) (v w : Bool) :
    putFlag (putFlag p f v) g w = putFlag (putFlag p g w) f v := by
  apply eq_of_getFlag
  intro k
  simp only [getFlag_putFlag]
  by_cases h1 : k = f <;> by_cases h2 : k = g <;> simp_all

@[simp] theorem getFlag_statusWithBreak (p : Byte) (f : Flag) :
    getFlag (statusWithBreak p) f = (decide (f = .b) || decide (f = .u) || getFlag p f) := by
  simp only [getFlag, statusWithBreak, BitVec.getLsbD_or, getLsbD_flagMask]
  rw [Bool.or_comm]

@[simp] theorem getFlag_statusWithoutBreak (p : Byte) (f : Flag) :
    getFlag (statusWithoutBreak p) f = (decide (f = .u) || (!decide (f = .b) && getFlag p f)) := by
  have hf := flagBit_lt f
  simp only [getFlag, statusWithoutBreak, BitVec.getLsbD_or, BitVec.getLsbD_and, BitVec.getLsbD_not, getLsbD_flagMask, hf]
  cases f <;> simp

@[simp] theorem getFlag_statusLive (p : Byte) (f : Flag) :
    getFlag (statusLive p) f = (!decide (f = .b) && !decide (f = .u) && getFlag p f) := by
  have hf := flagBit_lt f
  simp only [getFlag, statusLive, BitVec.getLsbD_or, BitVec.getLsbD_and, BitVec.getLsbD_not, getLsbD_flagMask, hf]
  cases f <;> simp

@[simp] theorem getFlag_statusPulled (p : Byte) (f : Flag) :
    getFlag (statusPulled p) f = (decide (f = .u) || getFlag p f) := by
  simp only [getFlag, statusPulled, BitVec.getLsbD_or, getLsbD_flagMask]
  rw [Bool.or_comm]

/-- The live status after an entry: I set, B and U cleared (60_exceptions.md R204). -/
@[simp] theorem getFlag_entryStatus (p : Byte) (f : Flag) :
    getFlag (statusLive p ||| flagMask .i) f = (decide (f = .i) || (!decide (f = .b) && !decide (f = .u) && getFlag p f)) := by
  have h := getFlag_statusLive p f
  simp only [getFlag, BitVec.getLsbD_or, getLsbD_flagMask] at h ⊢
  rw [h, Bool.or_comm]

theorem State.flag_eq (s : State) (f : Flag) : s.flag f = getFlag s.p f := rfl

@[simp] theorem State.getFlag_p (s : State) (f : Flag) : getFlag s.p f = s.flag f := rfl

@[simp] theorem State.setFlag_flag (s : State) (f g : Flag) (v : Bool) :
    (s.setFlag f v).flag g = if g = f then v else s.flag g := getFlag_putFlag s.p f g v

@[simp] theorem State.setP_flag (s : State) (v : Byte) (g : Flag) : (s.setP v).flag g = getFlag v g := rfl

/-- `SetZN` writes Z and N only (R20). -/
@[simp] theorem State.setZN_flag (s : State) (v : Byte) (g : Flag) :
    (s.setZN v).flag g = if g = .n then v.getLsbD 7 else if g = .z then decide (v = 0) else s.flag g := by
  simp [State.setZN]

/-! ### The flag computations as numbers -/

/-- Bit 7 of a byte as a number. -/
theorem byte_bit7 (v : Byte) : v.getLsbD 7 = decide (v.toNat ≥ 128) := by
  have := v.isLt
  rw [BitVec.getLsbD, Nat.testBit_eq_decide_div_mod_eq]
  congr 1
  simp
  omega

/-- Bit 0 of a byte as a number. -/
theorem byte_bit0 (v : Byte) : v.getLsbD 0 = decide (v.toNat % 2 = 1) := by
  rw [BitVec.getLsbD, Nat.testBit_eq_decide_div_mod_eq]
  simp

theorem byte_eq_iff (v w : Byte) : v = w ↔ v.toNat = w.toNat := BitVec.toNat_inj.symm

theorem sumByte_toNat (a m : Byte) (c : Bool) : (sumByte a m c).toNat = (a.toNat + m.toNat + c.toNat) % 256 := by
  simp [sumByte, sumNat]

theorem aslByte_toNat (v : Byte) : (aslByte v).toNat = v.toNat * 2 % 256 := by
  simp [aslByte, Nat.shiftLeft_eq]

theorem lsrByte_toNat (v : Byte) : (lsrByte v).toNat = v.toNat / 2 := by
  simp [lsrByte, Nat.shiftRight_eq_div_pow]

/-- ROL as a number: the old carry is added at bit 0 (R122). -/
theorem rolByte_toNat (v : Byte) (c : Bool) : (rolByte v c).toNat = (v.toNat * 2 + c.toNat) % 256 := by
  revert c
  revert v
  decide

/-- ROR as a number: the old carry is added at bit 7 (R123). -/
theorem rorByte_toNat (v : Byte) (c : Bool) : (rorByte v c).toNat = v.toNat / 2 + 128 * c.toNat := by
  revert c
  revert v
  decide

end Sys2Proof.Machine
end

