-- ==== Sys2Proof/Laws/Ops.lean ====
section
/-! SUPPORT. The shared operations over memory, the stack and interrupt entry: one lemma for what each leaves in every
place a later proof reads. -/

namespace Sys2Proof.Machine

/-- A store is seen at its address and nowhere else (20_memory.md R40, R51). -/
theorem State.store_peek (s : State) (k q : Addr) (v : Byte) :
    (s.store k v).peek q = if q = k then v else s.peek q := by
  simp [State.peek, Memory.read_write, BitVec.toNat_inj]

@[simp] theorem State.setMem_peek (s : State) (m : Memory) (q : Addr) : (s.setMem m).peek q = m.read q.toNat := rfl

/-- A read with no answer queued is answered by the flat array (20_memory.md R40). -/
theorem State.answerAt_of_empty {s : State} (h : s.answers = []) (k : Nat) (q : Addr) : s.answerAt k q = s.peek q := by
  simp [State.answerAt, h]

/-- A store changes what later reads are answered at its address only, and only where no answer is queued. -/
theorem State.store_answerAt (s : State) (k q : Addr) (v : Byte) (j : Nat) :
    (s.store k v).answerAt j q = if q = k then s.answers.getD j v else s.answerAt j q := by
  simp only [State.answerAt, State.store_answers, State.store_peek]
  split <;> rfl

/-- The stack address as a number: inside 0x0100..0x01FF (10_state.md R13). -/
theorem stackAddr_toNat (sp : Byte) : (stackAddr sp).toNat = 256 + sp.toNat := by
  have := sp.isLt
  simp only [stackAddr, params, BitVec.toNat_add, zext16_toNat]
  simp
  omega

/-- The stack address as the number 256 plus the offset. -/
theorem stackAddr_eq_ofNat (sp : Byte) : stackAddr sp = BitVec.ofNat 16 (256 + sp.toNat) := by
  apply BitVec.eq_of_toNat_eq
  have := sp.isLt
  rw [stackAddr_toNat, BitVec.toNat_ofNat, Nat.mod_eq_of_lt (by omega)]

theorem stackAddr_injective {b c : Byte} (h : stackAddr b = stackAddr c) : b = c := by
  apply BitVec.eq_of_toNat_eq
  have := congrArg BitVec.toNat h
  rw [stackAddr_toNat, stackAddr_toNat] at this
  omega

@[simp] theorem stackAddr_inj (b c : Byte) : stackAddr b = stackAddr c ↔ b = c :=
  ⟨stackAddr_injective, fun h => by rw [h]⟩

/-- A push is a store at the stack address the pointer names (40_addressing_modes.md R96). -/
theorem State.push_peek (s : State) (v : Byte) (q : Addr) :
    (s.push v).peek q = if q = stackAddr s.sp then v else s.peek q := State.store_peek s _ q v

theorem State.push_answerAt (s : State) (v : Byte) (j : Nat) (q : Addr) :
    (s.push v).answerAt j q = if q = stackAddr s.sp then s.answers.getD j v else s.answerAt j q :=
  State.store_answerAt s _ q v j

/-- Pop after push answers the pushed byte, where the flat array answers (R97). -/
theorem State.push_popValue {s : State} (h : s.answers = []) (v : Byte) : (s.push v).popValue = v := by
  simp [State.popValue, State.push_answerAt, h]

theorem State.pop_popValue (s : State) : s.pop.popValue = s.answerAt 1 (stackAddr (s.sp + 1 + 1)) := by
  simp [State.popValue]

/-- A byte of the stack page, read by its number. -/
theorem State.read_stack (s : State) (sp : Byte) : s.mem.read (256 + sp.toNat) = s.peek (stackAddr sp) := by
  simp [State.peek, stackAddr_toNat]

/-- Everything an interrupt entry does, field by field (60_exceptions.md R204). -/
theorem interruptEntry_fields (vec : Addr) (lat : Nat) (brk : Bool) (s : State) :
    (interruptEntry vec lat brk s).a = s.a ∧ (interruptEntry vec lat brk s).x = s.x ∧
    (interruptEntry vec lat brk s).y = s.y ∧ (interruptEntry vec lat brk s).sp = s.sp - 3 ∧
    (interruptEntry vec lat brk s).p = (statusLive s.p ||| flagMask .i) ∧
    (interruptEntry vec lat brk s).fetched = s.fetched ∧ (interruptEntry vec lat brk s).addrAbs = s.addrAbs ∧
    (interruptEntry vec lat brk s).addrRel = s.addrRel ∧ (interruptEntry vec lat brk s).opcode = s.opcode ∧
    (interruptEntry vec lat brk s).cycles = (if brk then s.cycles else lat) ∧
    (interruptEntry vec lat brk s).irqPending = s.irqPending ∧
    (interruptEntry vec lat brk s).nmiPending = s.nmiPending := by
  have h : s.sp - 1#8 - 1#8 - 1#8 = s.sp - 3#8 := by bv_omega
  cases brk <;> simp [interruptEntry, h]

/-- Memory after an interrupt entry: the three pushed bytes (R204). -/
theorem interruptEntry_peek (vec : Addr) (lat : Nat) (brk : Bool) (s : State) (q : Addr) :
    (interruptEntry vec lat brk s).peek q =
      if q = stackAddr (s.sp - 2) then (if brk then statusWithBreak s.p else statusWithoutBreak s.p)
      else if q = stackAddr (s.sp - 1) then lo8 s.pc
      else if q = stackAddr s.sp then hi8 s.pc else s.peek q := by
  have h : s.sp - 1#8 - 1#8 = s.sp - 2#8 := by bv_omega
  cases brk <;> simp [interruptEntry, State.push_peek, h]

/-- The three bytes of the frame: the program counter, its high byte at the higher address, and the status copy
(R204). -/
theorem interruptEntry_frame (vec : Addr) (lat : Nat) (brk : Bool) (s : State) :
    (interruptEntry vec lat brk s).peek (stackAddr s.sp) = hi8 s.pc ∧
    (interruptEntry vec lat brk s).peek (stackAddr (s.sp - 1)) = lo8 s.pc ∧
    (interruptEntry vec lat brk s).peek (stackAddr (s.sp - 2)) =
      (if brk then statusWithBreak s.p else statusWithoutBreak s.p) := by
  have h1 : s.sp ≠ s.sp - 1#8 := by bv_omega
  have h2 : s.sp ≠ s.sp - 2#8 := by bv_omega
  have h3 : s.sp - 1#8 ≠ s.sp - 2#8 := by bv_omega
  simp [interruptEntry_peek, h1, h2, h3]

/-- The memory field after an interrupt entry, as the three writes in order. -/
theorem interruptEntry_mem (vec : Addr) (lat : Nat) (brk : Bool) (s : State) :
    (interruptEntry vec lat brk s).mem =
      ((s.mem.write (stackAddr s.sp).toNat (hi8 s.pc)).write (stackAddr (s.sp - 1)).toNat (lo8 s.pc)).write
        (stackAddr (s.sp - 2)).toNat (if brk then statusWithBreak s.p else statusWithoutBreak s.p) := by
  have h : s.sp - 1#8 - 1#8 = s.sp - 2#8 := by bv_omega
  cases brk <;> simp [interruptEntry, h]

/-- The flags after an interrupt entry: I set, B and U cleared, the others as before (R204). -/
theorem interruptEntry_flag (vec : Addr) (lat : Nat) (brk : Bool) (s : State) (f : Flag) :
    (interruptEntry vec lat brk s).flag f =
      (decide (f = .i) || (!decide (f = .b) && !decide (f = .u) && s.flag f)) := by
  rw [State.flag_eq, (interruptEntry_fields vec lat brk s).2.2.2.2.1, getFlag_entryStatus, State.flag_eq]

/-- The five bus calls of an interrupt entry: three pushes, then the vector, low byte first (R204). -/
theorem interruptEntry_bus (vec : Addr) (lat : Nat) (brk : Bool) (s : State) :
    (interruptEntry vec lat brk s).bus = s.bus ++
      [.write (stackAddr s.sp) (hi8 s.pc), .write (stackAddr (s.sp - 1)) (lo8 s.pc),
        .write (stackAddr (s.sp - 2)) (if brk then statusWithBreak s.p else statusWithoutBreak s.p),
        .read vec (s.answers.getD 0 ((interruptEntry vec lat brk s).peek vec)),
        .read (vec + 1) (s.answers.getD 1 ((interruptEntry vec lat brk s).peek (vec + 1)))] := by
  have h : s.sp - 1#8 - 1#8 = s.sp - 2#8 := by bv_omega
  cases brk <;> simp [interruptEntry, State.answerAt, h]

/-- The two vector reads use two answers up. -/
@[simp] theorem interruptEntry_answers (vec : Addr) (lat : Nat) (brk : Bool) (s : State) :
    (interruptEntry vec lat brk s).answers = s.answers.drop 2 := by
  cases brk <;> simp [interruptEntry]

/-- A vector outside the stack page is read as it was before the pushes (R204). -/
theorem interruptEntry_pc (vec : Addr) (lat : Nat) (brk : Bool) (s : State)
    (h : 512 ≤ vec.toNat) (h' : 512 ≤ (vec + 1).toNat) :
    (interruptEntry vec lat brk s).pc = s.wordAnswer vec := by
  have far : ∀ (q : Addr) (sp : Byte), 512 ≤ q.toNat → q ≠ stackAddr sp := by
    intro q sp hq he
    have := sp.isLt
    rw [he, stackAddr_toNat] at hq
    omega
  cases brk <;>
    simp [interruptEntry, State.wordAnswer, State.push_answerAt, far vec _ h, far (vec + 1#16) _ h']

end Sys2Proof.Machine
end

