-- ==== Sys2Proof/Laws/Operands.lean ====
section
/-! SUPPORT. What a resolver, an operand fetch, a write-back and the frame of an instruction leave in every field. -/

namespace Sys2Proof.Machine

/-! ### The resolver touches only the program counter, the scratch and the record of bus calls
(40_addressing_modes.md R98) -/

@[simp] theorem resolve_a (o : Operand) (s : State) : (resolve o s).a = s.a := by cases o <;> simp [resolve]
@[simp] theorem resolve_x (o : Operand) (s : State) : (resolve o s).x = s.x := by cases o <;> simp [resolve]
@[simp] theorem resolve_y (o : Operand) (s : State) : (resolve o s).y = s.y := by cases o <;> simp [resolve]
@[simp] theorem resolve_sp (o : Operand) (s : State) : (resolve o s).sp = s.sp := by cases o <;> simp [resolve]
@[simp] theorem resolve_p (o : Operand) (s : State) : (resolve o s).p = s.p := by cases o <;> simp [resolve]
@[simp] theorem resolve_opcode (o : Operand) (s : State) : (resolve o s).opcode = s.opcode := by cases o <;> simp [resolve]
@[simp] theorem resolve_cycles (o : Operand) (s : State) : (resolve o s).cycles = s.cycles := by cases o <;> simp [resolve]
@[simp] theorem resolve_irqPending (o : Operand) (s : State) : (resolve o s).irqPending = s.irqPending := by cases o <;> simp [resolve]
@[simp] theorem resolve_nmiPending (o : Operand) (s : State) : (resolve o s).nmiPending = s.nmiPending := by cases o <;> simp [resolve]
@[simp] theorem resolve_mem (o : Operand) (s : State) : (resolve o s).mem = s.mem := by cases o <;> simp [resolve]
@[simp] theorem resolve_flag (o : Operand) (s : State) (g : Flag) : (resolve o s).flag g = s.flag g := by cases o <;> simp [resolve]
@[simp] theorem resolve_peek (o : Operand) (s : State) (q : Addr) : (resolve o s).peek q = s.peek q := by cases o <;> simp [resolve]

/-- The resolver uses as many answers up as it makes reads. -/
@[simp] theorem resolve_answers (o : Operand) (s : State) : (resolve o s).answers = s.answers.drop (resolverReads o) := by
  cases o <;> simp [resolve, resolverReads]

@[simp] theorem resolve_answerAt (o : Operand) (s : State) (j : Nat) (q : Addr) :
    (resolve o s).answerAt j q = s.answerAt (resolverReads o + j) q := by
  simp [State.answerAt]

/-- The program counter is at the byte after the instruction (10_state.md R14). -/
@[simp] theorem resolve_pc (o : Operand) (s : State) :
    (resolve o s).pc = s.pc + BitVec.ofNat 16 o.mode.operandBytes := by
  cases o <;> simp [resolve, Operand.mode, Mode.operandBytes, BitVec.add_assoc]

/-- The resolver leaves the effective address in `addr_abs`. -/
@[simp] theorem resolve_addrAbs (o : Operand) (s : State) : (resolve o s).addrAbs = effAddr o s := by
  cases o <;> simp [resolve, effAddr]

/-- Only Relative writes `addr_rel` (R86). -/
theorem resolve_addrRel (o : Operand) (s : State) :
    (resolve o s).addrRel = match o with
      | .rel d => sext16 d
      | _ => s.addrRel := by
  cases o <;> simp [resolve]

/-- Only Implied writes `fetched` (R81). -/
theorem resolve_fetched (o : Operand) (s : State) :
    (resolve o s).fetched = if o = .imp then s.a else s.fetched := by
  cases o <;> simp [resolve]

theorem resolve_imp (s : State) : resolve .imp s = s.setFetched s.a := rfl

@[simp] theorem fetch_a (o : Operand) (s : State) : (fetch o s).a = s.a := by cases o <;> simp [fetch]
@[simp] theorem fetch_x (o : Operand) (s : State) : (fetch o s).x = s.x := by cases o <;> simp [fetch]
@[simp] theorem fetch_y (o : Operand) (s : State) : (fetch o s).y = s.y := by cases o <;> simp [fetch]
@[simp] theorem fetch_sp (o : Operand) (s : State) : (fetch o s).sp = s.sp := by cases o <;> simp [fetch]
@[simp] theorem fetch_pc (o : Operand) (s : State) : (fetch o s).pc = s.pc := by cases o <;> simp [fetch]
@[simp] theorem fetch_p (o : Operand) (s : State) : (fetch o s).p = s.p := by cases o <;> simp [fetch]
@[simp] theorem fetch_addrAbs (o : Operand) (s : State) : (fetch o s).addrAbs = s.addrAbs := by cases o <;> simp [fetch]
@[simp] theorem fetch_addrRel (o : Operand) (s : State) : (fetch o s).addrRel = s.addrRel := by cases o <;> simp [fetch]
@[simp] theorem fetch_opcode (o : Operand) (s : State) : (fetch o s).opcode = s.opcode := by cases o <;> simp [fetch]
@[simp] theorem fetch_cycles (o : Operand) (s : State) : (fetch o s).cycles = s.cycles := by cases o <;> simp [fetch]
@[simp] theorem fetch_irqPending (o : Operand) (s : State) : (fetch o s).irqPending = s.irqPending := by cases o <;> simp [fetch]
@[simp] theorem fetch_nmiPending (o : Operand) (s : State) : (fetch o s).nmiPending = s.nmiPending := by cases o <;> simp [fetch]
@[simp] theorem fetch_mem (o : Operand) (s : State) : (fetch o s).mem = s.mem := by cases o <;> simp [fetch]
@[simp] theorem fetch_flag (o : Operand) (s : State) (g : Flag) : (fetch o s).flag g = s.flag g := by cases o <;> simp [fetch]
@[simp] theorem fetch_peek (o : Operand) (s : State) (q : Addr) : (fetch o s).peek q = s.peek q := by cases o <;> simp [fetch]

/-- `Fetch()` uses one answer up, and none in Implied mode. -/
@[simp] theorem fetch_answers (o : Operand) (s : State) :
    (fetch o s).answers = s.answers.drop (if o = .imp then 0 else 1) := by
  cases o <;> simp [fetch]

/-- After the resolver, `Fetch()` answers the operand byte (R93). -/
@[simp] theorem fetch_resolve_fetched (o : Operand) (s : State) :
    (fetch o (resolve o s)).fetched = operandByte o s := by
  cases o <;> simp [fetch, resolve, operandByte, effAddr, resolverReads, State.zeroPageWord]

/-- A write-back goes to the accumulator in Implied mode and to `addr_abs` otherwise (R94). -/
theorem writeBack_imp (v : Byte) (s : State) : writeBack .imp v s = s.setA v := rfl

theorem writeBack_memory {o : Operand} (h : o ≠ .imp) (v : Byte) (s : State) :
    writeBack o v s = s.store s.addrAbs v := by
  cases o <;> first | rfl | exact absurd rfl h

@[simp] theorem runInstr_a (o : Operand) (g : Bool) (h : State → State) (s : State) :
    (runInstr o g h s).a = (h (resolve o s)).a := rfl
@[simp] theorem runInstr_x (o : Operand) (g : Bool) (h : State → State) (s : State) :
    (runInstr o g h s).x = (h (resolve o s)).x := rfl
@[simp] theorem runInstr_y (o : Operand) (g : Bool) (h : State → State) (s : State) :
    (runInstr o g h s).y = (h (resolve o s)).y := rfl
@[simp] theorem runInstr_sp (o : Operand) (g : Bool) (h : State → State) (s : State) :
    (runInstr o g h s).sp = (h (resolve o s)).sp := rfl
@[simp] theorem runInstr_pc (o : Operand) (g : Bool) (h : State → State) (s : State) :
    (runInstr o g h s).pc = (h (resolve o s)).pc := rfl
@[simp] theorem runInstr_p (o : Operand) (g : Bool) (h : State → State) (s : State) :
    (runInstr o g h s).p = (h (resolve o s)).p := rfl
@[simp] theorem runInstr_fetched (o : Operand) (g : Bool) (h : State → State) (s : State) :
    (runInstr o g h s).fetched = (h (resolve o s)).fetched := rfl
@[simp] theorem runInstr_addrAbs (o : Operand) (g : Bool) (h : State → State) (s : State) :
    (runInstr o g h s).addrAbs = (h (resolve o s)).addrAbs := rfl
@[simp] theorem runInstr_addrRel (o : Operand) (g : Bool) (h : State → State) (s : State) :
    (runInstr o g h s).addrRel = (h (resolve o s)).addrRel := rfl
@[simp] theorem runInstr_opcode (o : Operand) (g : Bool) (h : State → State) (s : State) :
    (runInstr o g h s).opcode = (h (resolve o s)).opcode := rfl
@[simp] theorem runInstr_irqPending (o : Operand) (g : Bool) (h : State → State) (s : State) :
    (runInstr o g h s).irqPending = (h (resolve o s)).irqPending := rfl
@[simp] theorem runInstr_nmiPending (o : Operand) (g : Bool) (h : State → State) (s : State) :
    (runInstr o g h s).nmiPending = (h (resolve o s)).nmiPending := rfl
@[simp] theorem runInstr_mem (o : Operand) (g : Bool) (h : State → State) (s : State) :
    (runInstr o g h s).mem = (h (resolve o s)).mem := rfl
@[simp] theorem runInstr_bus (o : Operand) (g : Bool) (h : State → State) (s : State) :
    (runInstr o g h s).bus = (h (resolve o s)).bus := rfl
@[simp] theorem runInstr_answers (o : Operand) (g : Bool) (h : State → State) (s : State) :
    (runInstr o g h s).answers = (h (resolve o s)).answers := rfl
@[simp] theorem runInstr_flag (o : Operand) (g : Bool) (h : State → State) (s : State) (f : Flag) :
    (runInstr o g h s).flag f = (h (resolve o s)).flag f := rfl
@[simp] theorem runInstr_peek (o : Operand) (g : Bool) (h : State → State) (s : State) (q : Addr) :
    (runInstr o g h s).peek q = (h (resolve o s)).peek q := rfl

/-- The extra cycle is the conjunction of the two signals (R95). -/
@[simp] theorem runInstr_cycles (o : Operand) (g : Bool) (h : State → State) (s : State) :
    (runInstr o g h s).cycles = (h (resolve o s)).cycles + (pageCross o s && g).toNat := rfl

end Sys2Proof.Machine
end

