-- ==== Sys2Proof/Laws/Handlers.lean ====
section
/-! SUPPORT. The shared ends of the handlers, one lemma per field: what each writes, and that it leaves the rest as it
was. -/

namespace Sys2Proof.Machine


/-! ### The addition of ADC and SBC (42_arithmetic_logical.md R110) -/

@[simp] theorem addToA_a (m : Byte) (s : State) :
    (addToA m s).a = sumByte s.a m (s.flag .c) := by simp [addToA]
@[simp] theorem addToA_x (m : Byte) (s : State) : (addToA m s).x = s.x := by simp [addToA]
@[simp] theorem addToA_y (m : Byte) (s : State) : (addToA m s).y = s.y := by simp [addToA]
@[simp] theorem addToA_sp (m : Byte) (s : State) : (addToA m s).sp = s.sp := by simp [addToA]
@[simp] theorem addToA_pc (m : Byte) (s : State) : (addToA m s).pc = s.pc := by simp [addToA]
@[simp] theorem addToA_fetched (m : Byte) (s : State) : (addToA m s).fetched = s.fetched := by simp [addToA]
@[simp] theorem addToA_addrAbs (m : Byte) (s : State) : (addToA m s).addrAbs = s.addrAbs := by simp [addToA]
@[simp] theorem addToA_addrRel (m : Byte) (s : State) : (addToA m s).addrRel = s.addrRel := by simp [addToA]
@[simp] theorem addToA_opcode (m : Byte) (s : State) : (addToA m s).opcode = s.opcode := by simp [addToA]
@[simp] theorem addToA_cycles (m : Byte) (s : State) : (addToA m s).cycles = s.cycles := by simp [addToA]
@[simp] theorem addToA_irqPending (m : Byte) (s : State) : (addToA m s).irqPending = s.irqPending := by simp [addToA]
@[simp] theorem addToA_nmiPending (m : Byte) (s : State) : (addToA m s).nmiPending = s.nmiPending := by simp [addToA]
@[simp] theorem addToA_mem (m : Byte) (s : State) : (addToA m s).mem = s.mem := by simp [addToA]
@[simp] theorem addToA_bus (m : Byte) (s : State) : (addToA m s).bus = s.bus := by simp [addToA]
@[simp] theorem addToA_answers (m : Byte) (s : State) : (addToA m s).answers = s.answers := by simp [addToA]
@[simp] theorem addToA_peek (m : Byte) (s : State) (q : Addr) : (addToA m s).peek q = s.peek q := by simp [addToA]
@[simp] theorem addToA_flag (m : Byte) (s : State) (g : Flag) :
    (addToA m s).flag g =
      if g = .n then (sumByte s.a m (s.flag .c)).getLsbD 7
      else if g = .z then decide (sumByte s.a m (s.flag .c) = 0)
      else if g = .v then sumOverflow s.a m (s.flag .c)
      else if g = .c then sumCarry s.a m (s.flag .c) else s.flag g := by
  simp [addToA]

/-! ### AND, ORA, EOR (R112 to R114) -/

@[simp] theorem logicToA_a (r : Byte) (s : State) :
    (logicToA r s).a = r := by simp [logicToA]
@[simp] theorem logicToA_x (r : Byte) (s : State) : (logicToA r s).x = s.x := by simp [logicToA]
@[simp] theorem logicToA_y (r : Byte) (s : State) : (logicToA r s).y = s.y := by simp [logicToA]
@[simp] theorem logicToA_sp (r : Byte) (s : State) : (logicToA r s).sp = s.sp := by simp [logicToA]
@[simp] theorem logicToA_pc (r : Byte) (s : State) : (logicToA r s).pc = s.pc := by simp [logicToA]
@[simp] theorem logicToA_fetched (r : Byte) (s : State) : (logicToA r s).fetched = s.fetched := by simp [logicToA]
@[simp] theorem logicToA_addrAbs (r : Byte) (s : State) : (logicToA r s).addrAbs = s.addrAbs := by simp [logicToA]
@[simp] theorem logicToA_addrRel (r : Byte) (s : State) : (logicToA r s).addrRel = s.addrRel := by simp [logicToA]
@[simp] theorem logicToA_opcode (r : Byte) (s : State) : (logicToA r s).opcode = s.opcode := by simp [logicToA]
@[simp] theorem logicToA_cycles (r : Byte) (s : State) : (logicToA r s).cycles = s.cycles := by simp [logicToA]
@[simp] theorem logicToA_irqPending (r : Byte) (s : State) : (logicToA r s).irqPending = s.irqPending := by simp [logicToA]
@[simp] theorem logicToA_nmiPending (r : Byte) (s : State) : (logicToA r s).nmiPending = s.nmiPending := by simp [logicToA]
@[simp] theorem logicToA_mem (r : Byte) (s : State) : (logicToA r s).mem = s.mem := by simp [logicToA]
@[simp] theorem logicToA_bus (r : Byte) (s : State) : (logicToA r s).bus = s.bus := by simp [logicToA]
@[simp] theorem logicToA_answers (r : Byte) (s : State) : (logicToA r s).answers = s.answers := by simp [logicToA]
@[simp] theorem logicToA_peek (r : Byte) (s : State) (q : Addr) : (logicToA r s).peek q = s.peek q := by simp [logicToA]
@[simp] theorem logicToA_flag (r : Byte) (s : State) (g : Flag) :
    (logicToA r s).flag g =
      if g = .n then r.getLsbD 7 else if g = .z then decide (r = 0) else s.flag g := by
  simp [logicToA]

/-! ### BIT (R115) -/

@[simp] theorem bitTest_a (m : Byte) (s : State) : (bitTest m s).a = s.a := by simp [bitTest]
@[simp] theorem bitTest_x (m : Byte) (s : State) : (bitTest m s).x = s.x := by simp [bitTest]
@[simp] theorem bitTest_y (m : Byte) (s : State) : (bitTest m s).y = s.y := by simp [bitTest]
@[simp] theorem bitTest_sp (m : Byte) (s : State) : (bitTest m s).sp = s.sp := by simp [bitTest]
@[simp] theorem bitTest_pc (m : Byte) (s : State) : (bitTest m s).pc = s.pc := by simp [bitTest]
@[simp] theorem bitTest_fetched (m : Byte) (s : State) : (bitTest m s).fetched = s.fetched := by simp [bitTest]
@[simp] theorem bitTest_addrAbs (m : Byte) (s : State) : (bitTest m s).addrAbs = s.addrAbs := by simp [bitTest]
@[simp] theorem bitTest_addrRel (m : Byte) (s : State) : (bitTest m s).addrRel = s.addrRel := by simp [bitTest]
@[simp] theorem bitTest_opcode (m : Byte) (s : State) : (bitTest m s).opcode = s.opcode := by simp [bitTest]
@[simp] theorem bitTest_cycles (m : Byte) (s : State) : (bitTest m s).cycles = s.cycles := by simp [bitTest]
@[simp] theorem bitTest_irqPending (m : Byte) (s : State) : (bitTest m s).irqPending = s.irqPending := by simp [bitTest]
@[simp] theorem bitTest_nmiPending (m : Byte) (s : State) : (bitTest m s).nmiPending = s.nmiPending := by simp [bitTest]
@[simp] theorem bitTest_mem (m : Byte) (s : State) : (bitTest m s).mem = s.mem := by simp [bitTest]
@[simp] theorem bitTest_bus (m : Byte) (s : State) : (bitTest m s).bus = s.bus := by simp [bitTest]
@[simp] theorem bitTest_answers (m : Byte) (s : State) : (bitTest m s).answers = s.answers := by simp [bitTest]
@[simp] theorem bitTest_peek (m : Byte) (s : State) (q : Addr) : (bitTest m s).peek q = s.peek q := by simp [bitTest]
@[simp] theorem bitTest_flag (m : Byte) (s : State) (g : Flag) :
    (bitTest m s).flag g =
      if g = .v then m.getLsbD 6 else if g = .n then m.getLsbD 7
      else if g = .z then decide (s.a &&& m = 0) else s.flag g := by
  simp [bitTest]

/-! ### Write-back (40_addressing_modes.md R94) and the shifts (43_shift_rotate.md R120 to R123) -/

@[simp] theorem writeBack_x (o : Operand) (v : Byte) (s : State) : (writeBack o v s).x = s.x := by cases o <;> simp [writeBack]
@[simp] theorem writeBack_y (o : Operand) (v : Byte) (s : State) : (writeBack o v s).y = s.y := by cases o <;> simp [writeBack]
@[simp] theorem writeBack_sp (o : Operand) (v : Byte) (s : State) : (writeBack o v s).sp = s.sp := by cases o <;> simp [writeBack]
@[simp] theorem writeBack_pc (o : Operand) (v : Byte) (s : State) : (writeBack o v s).pc = s.pc := by cases o <;> simp [writeBack]
@[simp] theorem writeBack_fetched (o : Operand) (v : Byte) (s : State) : (writeBack o v s).fetched = s.fetched := by cases o <;> simp [writeBack]
@[simp] theorem writeBack_addrAbs (o : Operand) (v : Byte) (s : State) : (writeBack o v s).addrAbs = s.addrAbs := by cases o <;> simp [writeBack]
@[simp] theorem writeBack_addrRel (o : Operand) (v : Byte) (s : State) : (writeBack o v s).addrRel = s.addrRel := by cases o <;> simp [writeBack]
@[simp] theorem writeBack_opcode (o : Operand) (v : Byte) (s : State) : (writeBack o v s).opcode = s.opcode := by cases o <;> simp [writeBack]
@[simp] theorem writeBack_cycles (o : Operand) (v : Byte) (s : State) : (writeBack o v s).cycles = s.cycles := by cases o <;> simp [writeBack]
@[simp] theorem writeBack_irqPending (o : Operand) (v : Byte) (s : State) : (writeBack o v s).irqPending = s.irqPending := by cases o <;> simp [writeBack]
@[simp] theorem writeBack_nmiPending (o : Operand) (v : Byte) (s : State) : (writeBack o v s).nmiPending = s.nmiPending := by cases o <;> simp [writeBack]
@[simp] theorem writeBack_answers (o : Operand) (v : Byte) (s : State) : (writeBack o v s).answers = s.answers := by cases o <;> simp [writeBack]
@[simp] theorem writeBack_flag (o : Operand) (v : Byte) (s : State) (g : Flag) :
    (writeBack o v s).flag g = s.flag g := by cases o <;> simp [writeBack]
@[simp] theorem writeBack_p (o : Operand) (v : Byte) (s : State) :
    (writeBack o v s).p = s.p := by cases o <;> simp [writeBack]
@[simp] theorem writeBack_a (o : Operand) (v : Byte) (s : State) :
    (writeBack o v s).a = if o = .imp then v else s.a := by cases o <;> simp [writeBack]
@[simp] theorem writeBack_mem (o : Operand) (v : Byte) (s : State) :
    (writeBack o v s).mem = if o = .imp then s.mem else s.mem.write s.addrAbs.toNat v := by cases o <;> simp [writeBack]
@[simp] theorem writeBack_bus (o : Operand) (v : Byte) (s : State) :
    (writeBack o v s).bus = if o = .imp then s.bus else s.bus ++ [.write s.addrAbs v] := by cases o <;> simp [writeBack]
theorem writeBack_peek (o : Operand) (v : Byte) (s : State) (q : Addr) :
    (writeBack o v s).peek q = if o ≠ .imp ∧ q = s.addrAbs then v else s.peek q := by
  by_cases h : o = .imp
  · subst h; rfl
  · simp [writeBack_memory h, State.store_peek, h]
@[simp] theorem shiftResult_x (o : Operand) (c : Bool) (r : Byte) (s : State) : (shiftResult o c r s).x = s.x := by simp [shiftResult]
@[simp] theorem shiftResult_y (o : Operand) (c : Bool) (r : Byte) (s : State) : (shiftResult o c r s).y = s.y := by simp [shiftResult]
@[simp] theorem shiftResult_sp (o : Operand) (c : Bool) (r : Byte) (s : State) : (shiftResult o c r s).sp = s.sp := by simp [shiftResult]
@[simp] theorem shiftResult_pc (o : Operand) (c : Bool) (r : Byte) (s : State) : (shiftResult o c r s).pc = s.pc := by simp [shiftResult]
@[simp] theorem shiftResult_fetched (o : Operand) (c : Bool) (r : Byte) (s : State) : (shiftResult o c r s).fetched = s.fetched := by simp [shiftResult]
@[simp] theorem shiftResult_addrAbs (o : Operand) (c : Bool) (r : Byte) (s : State) : (shiftResult o c r s).addrAbs = s.addrAbs := by simp [shiftResult]
@[simp] theorem shiftResult_addrRel (o : Operand) (c : Bool) (r : Byte) (s : State) : (shiftResult o c r s).addrRel = s.addrRel := by simp [shiftResult]
@[simp] theorem shiftResult_opcode (o : Operand) (c : Bool) (r : Byte) (s : State) : (shiftResult o c r s).opcode = s.opcode := by simp [shiftResult]
@[simp] theorem shiftResult_cycles (o : Operand) (c : Bool) (r : Byte) (s : State) : (shiftResult o c r s).cycles = s.cycles := by simp [shiftResult]
@[simp] theorem shiftResult_irqPending (o : Operand) (c : Bool) (r : Byte) (s : State) : (shiftResult o c r s).irqPending = s.irqPending := by simp [shiftResult]
@[simp] theorem shiftResult_nmiPending (o : Operand) (c : Bool) (r : Byte) (s : State) : (shiftResult o c r s).nmiPending = s.nmiPending := by simp [shiftResult]
@[simp] theorem shiftResult_answers (o : Operand) (c : Bool) (r : Byte) (s : State) : (shiftResult o c r s).answers = s.answers := by simp [shiftResult]
@[simp] theorem shiftResult_a (o : Operand) (c : Bool) (r : Byte) (s : State) :
    (shiftResult o c r s).a = if o = .imp then r else s.a := by simp [shiftResult]
@[simp] theorem shiftResult_mem (o : Operand) (c : Bool) (r : Byte) (s : State) :
    (shiftResult o c r s).mem = if o = .imp then s.mem else s.mem.write s.addrAbs.toNat r := by simp [shiftResult]
@[simp] theorem shiftResult_bus (o : Operand) (c : Bool) (r : Byte) (s : State) :
    (shiftResult o c r s).bus = if o = .imp then s.bus else s.bus ++ [.write s.addrAbs r] := by simp [shiftResult]
@[simp] theorem shiftResult_flag (o : Operand) (c : Bool) (r : Byte) (s : State) (g : Flag) :
    (shiftResult o c r s).flag g =
      if g = .n then r.getLsbD 7 else if g = .z then decide (r = 0) else if g = .c then c else s.flag g := by
  simp [shiftResult]
theorem shiftResult_peek (o : Operand) (c : Bool) (r : Byte) (s : State) (q : Addr) :
    (shiftResult o c r s).peek q = if o ≠ .imp ∧ q = s.addrAbs then r else s.peek q :=
  writeBack_peek o r _ q

/-! ### INC and DEC (44_incdec_compare.md R130, R131) -/

@[simp] theorem memoryResult_a (r : Byte) (s : State) : (memoryResult r s).a = s.a := by simp [memoryResult]
@[simp] theorem memoryResult_x (r : Byte) (s : State) : (memoryResult r s).x = s.x := by simp [memoryResult]
@[simp] theorem memoryResult_y (r : Byte) (s : State) : (memoryResult r s).y = s.y := by simp [memoryResult]
@[simp] theorem memoryResult_sp (r : Byte) (s : State) : (memoryResult r s).sp = s.sp := by simp [memoryResult]
@[simp] theorem memoryResult_pc (r : Byte) (s : State) : (memoryResult r s).pc = s.pc := by simp [memoryResult]
@[simp] theorem memoryResult_fetched (r : Byte) (s : State) : (memoryResult r s).fetched = s.fetched := by simp [memoryResult]
@[simp] theorem memoryResult_addrAbs (r : Byte) (s : State) : (memoryResult r s).addrAbs = s.addrAbs := by simp [memoryResult]
@[simp] theorem memoryResult_addrRel (r : Byte) (s : State) : (memoryResult r s).addrRel = s.addrRel := by simp [memoryResult]
@[simp] theorem memoryResult_opcode (r : Byte) (s : State) : (memoryResult r s).opcode = s.opcode := by simp [memoryResult]
@[simp] theorem memoryResult_cycles (r : Byte) (s : State) : (memoryResult r s).cycles = s.cycles := by simp [memoryResult]
@[simp] theorem memoryResult_irqPending (r : Byte) (s : State) : (memoryResult r s).irqPending = s.irqPending := by simp [memoryResult]
@[simp] theorem memoryResult_nmiPending (r : Byte) (s : State) : (memoryResult r s).nmiPending = s.nmiPending := by simp [memoryResult]
@[simp] theorem memoryResult_answers (r : Byte) (s : State) : (memoryResult r s).answers = s.answers := by simp [memoryResult]
@[simp] theorem memoryResult_mem (r : Byte) (s : State) :
    (memoryResult r s).mem = s.mem.write s.addrAbs.toNat r := by simp [memoryResult]
@[simp] theorem memoryResult_bus (r : Byte) (s : State) :
    (memoryResult r s).bus = s.bus ++ [.write s.addrAbs r] := by simp [memoryResult]
@[simp] theorem memoryResult_flag (r : Byte) (s : State) (g : Flag) :
    (memoryResult r s).flag g =
      if g = .n then r.getLsbD 7 else if g = .z then decide (r = 0) else s.flag g := by
  simp [memoryResult]
theorem memoryResult_peek (r : Byte) (s : State) (q : Addr) :
    (memoryResult r s).peek q = if q = s.addrAbs then r else s.peek q := State.store_peek s _ q r

/-! ### Comparisons (R136) -/

@[simp] theorem compareFlags_a (r m : Byte) (s : State) : (compareFlags r m s).a = s.a := by simp [compareFlags]
@[simp] theorem compareFlags_x (r m : Byte) (s : State) : (compareFlags r m s).x = s.x := by simp [compareFlags]
@[simp] theorem compareFlags_y (r m : Byte) (s : State) : (compareFlags r m s).y = s.y := by simp [compareFlags]
@[simp] theorem compareFlags_sp (r m : Byte) (s : State) : (compareFlags r m s).sp = s.sp := by simp [compareFlags]
@[simp] theorem compareFlags_pc (r m : Byte) (s : State) : (compareFlags r m s).pc = s.pc := by simp [compareFlags]
@[simp] theorem compareFlags_fetched (r m : Byte) (s : State) : (compareFlags r m s).fetched = s.fetched := by simp [compareFlags]
@[simp] theorem compareFlags_addrAbs (r m : Byte) (s : State) : (compareFlags r m s).addrAbs = s.addrAbs := by simp [compareFlags]
@[simp] theorem compareFlags_addrRel (r m : Byte) (s : State) : (compareFlags r m s).addrRel = s.addrRel := by simp [compareFlags]
@[simp] theorem compareFlags_opcode (r m : Byte) (s : State) : (compareFlags r m s).opcode = s.opcode := by simp [compareFlags]
@[simp] theorem compareFlags_cycles (r m : Byte) (s : State) : (compareFlags r m s).cycles = s.cycles := by simp [compareFlags]
@[simp] theorem compareFlags_irqPending (r m : Byte) (s : State) : (compareFlags r m s).irqPending = s.irqPending := by simp [compareFlags]
@[simp] theorem compareFlags_nmiPending (r m : Byte) (s : State) : (compareFlags r m s).nmiPending = s.nmiPending := by simp [compareFlags]
@[simp] theorem compareFlags_mem (r m : Byte) (s : State) : (compareFlags r m s).mem = s.mem := by simp [compareFlags]
@[simp] theorem compareFlags_bus (r m : Byte) (s : State) : (compareFlags r m s).bus = s.bus := by simp [compareFlags]
@[simp] theorem compareFlags_answers (r m : Byte) (s : State) : (compareFlags r m s).answers = s.answers := by simp [compareFlags]
@[simp] theorem compareFlags_peek (r m : Byte) (s : State) (q : Addr) : (compareFlags r m s).peek q = s.peek q := by simp [compareFlags]
@[simp] theorem compareFlags_flag (r m : Byte) (s : State) (g : Flag) :
    (compareFlags r m s).flag g =
      if g = .n then (compareDiff r m).getLsbD 7 else if g = .z then decide (compareDiff r m = 0)
      else if g = .c then compareCarry r m else s.flag g := by
  simp [compareFlags]

/-! ### Branches (45_branches.md R140) -/

@[simp] theorem branch_a (c : Bool) (s : State) : (branch c s).a = s.a := by cases c <;> simp [branch]
@[simp] theorem branch_x (c : Bool) (s : State) : (branch c s).x = s.x := by cases c <;> simp [branch]
@[simp] theorem branch_y (c : Bool) (s : State) : (branch c s).y = s.y := by cases c <;> simp [branch]
@[simp] theorem branch_sp (c : Bool) (s : State) : (branch c s).sp = s.sp := by cases c <;> simp [branch]
@[simp] theorem branch_fetched (c : Bool) (s : State) : (branch c s).fetched = s.fetched := by cases c <;> simp [branch]
@[simp] theorem branch_addrAbs (c : Bool) (s : State) : (branch c s).addrAbs = s.addrAbs := by cases c <;> simp [branch]
@[simp] theorem branch_addrRel (c : Bool) (s : State) : (branch c s).addrRel = s.addrRel := by cases c <;> simp [branch]
@[simp] theorem branch_opcode (c : Bool) (s : State) : (branch c s).opcode = s.opcode := by cases c <;> simp [branch]
@[simp] theorem branch_irqPending (c : Bool) (s : State) : (branch c s).irqPending = s.irqPending := by cases c <;> simp [branch]
@[simp] theorem branch_nmiPending (c : Bool) (s : State) : (branch c s).nmiPending = s.nmiPending := by cases c <;> simp [branch]
@[simp] theorem branch_mem (c : Bool) (s : State) : (branch c s).mem = s.mem := by cases c <;> simp [branch]
@[simp] theorem branch_bus (c : Bool) (s : State) : (branch c s).bus = s.bus := by cases c <;> simp [branch]
@[simp] theorem branch_answers (c : Bool) (s : State) : (branch c s).answers = s.answers := by cases c <;> simp [branch]
@[simp] theorem branch_peek (c : Bool) (s : State) (q : Addr) : (branch c s).peek q = s.peek q := by cases c <;> simp [branch]
@[simp] theorem branch_flag (c : Bool) (s : State) (g : Flag) :
    (branch c s).flag g = s.flag g := by cases c <;> simp [branch]
@[simp] theorem branch_p (c : Bool) (s : State) :
    (branch c s).p = s.p := by cases c <;> simp [branch]
@[simp] theorem branch_pc (c : Bool) (s : State) :
    (branch c s).pc = if c then branchTarget s else s.pc := by cases c <;> simp [branch]
@[simp] theorem branch_cycles (c : Bool) (s : State) :
    (branch c s).cycles =
      s.cycles + if c then (if hi8 (branchTarget s) = hi8 s.pc then 1 else 2) else 0 := by
  cases c
  · rfl
  · by_cases h : hi8 (branchTarget s) = hi8 s.pc
    · simp [branch, h]
    · simp [branch, h, bne_iff_ne.mpr h]

/-! ### Return from an interrupt (48_system.md R181) -/

@[simp] theorem interruptReturn_a (s : State) : (interruptReturn s).a = s.a := by simp [interruptReturn]
@[simp] theorem interruptReturn_x (s : State) : (interruptReturn s).x = s.x := by simp [interruptReturn]
@[simp] theorem interruptReturn_y (s : State) : (interruptReturn s).y = s.y := by simp [interruptReturn]
@[simp] theorem interruptReturn_fetched (s : State) : (interruptReturn s).fetched = s.fetched := by simp [interruptReturn]
@[simp] theorem interruptReturn_addrAbs (s : State) : (interruptReturn s).addrAbs = s.addrAbs := by simp [interruptReturn]
@[simp] theorem interruptReturn_addrRel (s : State) : (interruptReturn s).addrRel = s.addrRel := by simp [interruptReturn]
@[simp] theorem interruptReturn_opcode (s : State) : (interruptReturn s).opcode = s.opcode := by simp [interruptReturn]
@[simp] theorem interruptReturn_cycles (s : State) : (interruptReturn s).cycles = s.cycles := by simp [interruptReturn]
@[simp] theorem interruptReturn_irqPending (s : State) : (interruptReturn s).irqPending = s.irqPending := by simp [interruptReturn]
@[simp] theorem interruptReturn_nmiPending (s : State) : (interruptReturn s).nmiPending = s.nmiPending := by simp [interruptReturn]
@[simp] theorem interruptReturn_mem (s : State) : (interruptReturn s).mem = s.mem := by simp [interruptReturn]
@[simp] theorem interruptReturn_peek (s : State) (q : Addr) : (interruptReturn s).peek q = s.peek q := by simp [interruptReturn]
@[simp] theorem interruptReturn_sp (s : State) :
    (interruptReturn s).sp = s.sp + 3 := by
  have h : s.sp + 1#8 + 1#8 + 1#8 = s.sp + 3#8 := by bv_omega
  simp [interruptReturn, h]
@[simp] theorem interruptReturn_p (s : State) :
    (interruptReturn s).p = statusLive s.popValue := by simp [interruptReturn]
@[simp] theorem interruptReturn_flag (s : State) (g : Flag) :
    (interruptReturn s).flag g = (!decide (g = .b) && !decide (g = .u) && getFlag s.popValue g) := by
  rw [State.flag_eq, interruptReturn_p, getFlag_statusLive]
@[simp] theorem interruptReturn_answers (s : State) :
    (interruptReturn s).answers = s.answers.drop 3 := by
  simp [interruptReturn]
@[simp] theorem interruptReturn_pc (s : State) :
    (interruptReturn s).pc =
      joinBytes (s.answerAt 2 (stackAddr (s.sp + 3))) (s.answerAt 1 (stackAddr (s.sp + 2))) := by
  have h : s.sp + 1#8 + 1#8 = s.sp + 2#8 := by bv_omega
  have h' : s.sp + 2#8 + 1#8 = s.sp + 3#8 := by bv_omega
  simp only [interruptReturn, State.setPc_pc, State.popValue]
  simp [h, h']
@[simp] theorem interruptReturn_bus (s : State) :
    (interruptReturn s).bus = s.bus ++
      [.read (stackAddr (s.sp + 1)) (s.answerAt 0 (stackAddr (s.sp + 1))),
        .read (stackAddr (s.sp + 2)) (s.answerAt 1 (stackAddr (s.sp + 2))),
        .read (stackAddr (s.sp + 3)) (s.answerAt 2 (stackAddr (s.sp + 3)))] := by
  have h : s.sp + 1#8 + 1#8 = s.sp + 2#8 := by bv_omega
  have h' : s.sp + 2#8 + 1#8 = s.sp + 3#8 := by bv_omega
  simp [interruptReturn, h, h']

end Sys2Proof.Machine
end

