-- ==== Sys2Proof/Laws/Step.lean ====
section
/-! SUPPORT. What a step can do, said once: an idle tick, an interrupt entry, or one instruction; and the fields of the
state after an opcode fetch. -/

namespace Sys2Proof.Machine

@[simp] theorem beginInstr_a (s : State) : (beginInstr s).a = s.a := by simp [beginInstr]
@[simp] theorem beginInstr_x (s : State) : (beginInstr s).x = s.x := by simp [beginInstr]
@[simp] theorem beginInstr_y (s : State) : (beginInstr s).y = s.y := by simp [beginInstr]
@[simp] theorem beginInstr_sp (s : State) : (beginInstr s).sp = s.sp := by simp [beginInstr]
@[simp] theorem beginInstr_pc (s : State) : (beginInstr s).pc = s.pc + 1 := by simp [beginInstr]
@[simp] theorem beginInstr_p (s : State) : (beginInstr s).p = s.p := by simp [beginInstr]
@[simp] theorem beginInstr_opcode (s : State) : (beginInstr s).opcode = s.answerAt 0 s.pc := by simp [beginInstr]
@[simp] theorem beginInstr_cycles (s : State) : (beginInstr s).cycles = baseCycles (s.answerAt 0 s.pc) := by simp [beginInstr]
@[simp] theorem beginInstr_irqPending (s : State) : (beginInstr s).irqPending = s.irqPending := by simp [beginInstr]
@[simp] theorem beginInstr_nmiPending (s : State) : (beginInstr s).nmiPending = s.nmiPending := by simp [beginInstr]
@[simp] theorem beginInstr_mem (s : State) : (beginInstr s).mem = s.mem := by simp [beginInstr]
@[simp] theorem beginInstr_bus (s : State) : (beginInstr s).bus = s.bus ++ [.read s.pc (s.answerAt 0 s.pc)] := by simp [beginInstr]
@[simp] theorem beginInstr_answers (s : State) : (beginInstr s).answers = s.answers.drop 1 := by simp [beginInstr]
@[simp] theorem beginInstr_answerAt (s : State) (j : Nat) (q : Addr) :
    (beginInstr s).answerAt j q = s.answerAt (j + 1) q := by
  simp [beginInstr]
@[simp] theorem beginInstr_flag (s : State) (f : Flag) : (beginInstr s).flag f = s.flag f := by simp [beginInstr]
@[simp] theorem beginInstr_peek (s : State) (q : Addr) : (beginInstr s).peek q = s.peek q := by simp [beginInstr]

/-- The host's loading of bytes keeps the canonical form. -/
theorem Memory.load_wf (bytes : List Byte) (m : Memory) (a : Addr) (h : m.wf = true) :
    (Memory.load m a bytes).wf = true := by
  induction bytes generalizing m a with
  | nil => exact h
  | cons b rest ih => exact ih _ _ (Memory.write_wf b a.isLt h)

@[simp] theorem countDown_a (s : State) : (countDown s).a = s.a := by simp [countDown]
@[simp] theorem countDown_x (s : State) : (countDown s).x = s.x := by simp [countDown]
@[simp] theorem countDown_y (s : State) : (countDown s).y = s.y := by simp [countDown]
@[simp] theorem countDown_sp (s : State) : (countDown s).sp = s.sp := by simp [countDown]
@[simp] theorem countDown_pc (s : State) : (countDown s).pc = s.pc := by simp [countDown]
@[simp] theorem countDown_p (s : State) : (countDown s).p = s.p := by simp [countDown]
@[simp] theorem countDown_fetched (s : State) : (countDown s).fetched = s.fetched := by simp [countDown]
@[simp] theorem countDown_addrAbs (s : State) : (countDown s).addrAbs = s.addrAbs := by simp [countDown]
@[simp] theorem countDown_addrRel (s : State) : (countDown s).addrRel = s.addrRel := by simp [countDown]
@[simp] theorem countDown_opcode (s : State) : (countDown s).opcode = s.opcode := by simp [countDown]
@[simp] theorem countDown_irqPending (s : State) : (countDown s).irqPending = s.irqPending := by simp [countDown]
@[simp] theorem countDown_nmiPending (s : State) : (countDown s).nmiPending = s.nmiPending := by simp [countDown]
@[simp] theorem countDown_mem (s : State) : (countDown s).mem = s.mem := by simp [countDown]
@[simp] theorem countDown_bus (s : State) : (countDown s).bus = s.bus := by simp [countDown]
@[simp] theorem countDown_answers (s : State) : (countDown s).answers = s.answers := by simp [countDown]
@[simp] theorem countDown_flag (s : State) (f : Flag) : (countDown s).flag f = s.flag f := by simp [countDown]
@[simp] theorem countDown_peek (s : State) (q : Addr) : (countDown s).peek q = s.peek q := by simp [countDown]
@[simp] theorem countDown_cycles (s : State) : (countDown s).cycles = s.cycles - 1 := by simp [countDown]

/-- Every instruction is its resolver, a handler and the extra cycle (30_encoding.md R70, 40_addressing_modes.md
R95). -/
theorem exec_eq_runInstr (i : Instr) (s : State) :
    ∃ (signal : Bool) (handler : State → State), exec i s = .next (runInstr i.operand signal handler s) := by
  cases i <;> exact ⟨_, _, rfl⟩

/-- A tick inside a window. -/
theorem step_idle {s : State} (h : s.cycles ≠ 0) : step s = .next (countDown (s.setBus [])) := by
  simp [step, tick, h]

/-- A tick at a boundary with an NMI latched. -/
theorem step_nmi {s : State} (h : s.cycles = 0) (hn : s.nmiPending = true) :
    step s = .next (countDown (takeNmi (s.setBus []))) := by
  simp [step, tick, boundary, h, hn]

/-- A tick at a boundary with an unmasked IRQ and no NMI latched. -/
theorem step_irq {s : State} (h : s.cycles = 0) (hn : s.nmiPending = false) (hq : s.irqPending = true)
    (hi : s.flag .i = false) : step s = .next (countDown (takeIrq (s.setBus []))) := by
  simp [step, tick, boundary, h, hn, hq, hi]

/-- A tick at a boundary that takes no interrupt: the opcode fetch, the instruction, the countdown. -/
theorem step_exec {s t : State} (h : s.cycles = 0) (hn : s.nmiPending = false)
    (hq : (s.irqPending && !s.flag .i) = false)
    (ht : exec s.nextInstr (beginInstr ((s.setBus []).setIrq false)) = .next t) : step s = .next (countDown t) := by
  have e : (s.setBus []).nextInstr = s.nextInstr := rfl
  simp [step, tick, boundary, h, hn, hq, e, ht]

/-- Everything a step can do (30_encoding.md R70, 60_exceptions.md R206). -/
theorem step_cases {s t : State} (h : step s = .next t) :
    (s.cycles ≠ 0 ∧ t = countDown (s.setBus [])) ∨
    (s.cycles = 0 ∧ s.nmiPending = true ∧ t = countDown (takeNmi (s.setBus []))) ∨
    (s.cycles = 0 ∧ s.nmiPending = false ∧ s.irqPending = true ∧ s.flag .i = false ∧
      t = countDown (takeIrq (s.setBus []))) ∨
    (s.cycles = 0 ∧ s.nmiPending = false ∧ (s.irqPending && !s.flag .i) = false ∧
      ∃ u, exec s.nextInstr (beginInstr ((s.setBus []).setIrq false)) = .next u ∧ t = countDown u) := by
  by_cases hc : s.cycles = 0
  · cases hn : s.nmiPending
    · cases hq : s.irqPending && !s.flag .i
      · obtain ⟨g, f, e⟩ := exec_eq_runInstr s.nextInstr (beginInstr ((s.setBus []).setIrq false))
        rw [step_exec hc hn hq e, Host.Outcome.next.injEq] at h
        exact .inr (.inr (.inr ⟨hc, rfl, rfl, _, e, h.symm⟩))
      · simp only [Bool.and_eq_true, Bool.not_eq_true'] at hq
        rw [step_irq hc hn hq.1 hq.2, Host.Outcome.next.injEq] at h
        exact .inr (.inr (.inl ⟨hc, rfl, hq.1, hq.2, h.symm⟩))
    · rw [step_nmi hc hn, Host.Outcome.next.injEq] at h
      exact .inr (.inl ⟨hc, rfl, h.symm⟩)
  · rw [step_idle hc, Host.Outcome.next.injEq] at h
    exact .inl ⟨hc, h.symm⟩

/-- No instruction touches a request latch or the opcode register (10_state.md R25, R27). -/
theorem exec_latches {i : Instr} {s t : State} (h : exec i s = .next t) :
    t.irqPending = s.irqPending ∧ t.nmiPending = s.nmiPending ∧ t.opcode = s.opcode := by
  cases i <;> simp only [exec] at h <;> injection h with h <;> subst h <;> simp [interruptEntry_fields]

/-- One more step of a run. -/
theorem run_succ {s u : State} (h : step s = .next u) (k : Nat) :
    Host.Core.run Sys2Proof.core (k + 1) s = Host.Core.run Sys2Proof.core k u := by
  have h' : Sys2Proof.core.step s = .next u := h
  refine (Host.Core.run.eq_2 Sys2Proof.core s k).trans ?_
  rw [h']

end Sys2Proof.Machine
end

