-- ==== Sys2Proof/Laws/Bus.lean ====
section
/-! SUPPORT. A step reads its answers one after the other: it follows a script, in which the address of the next read
depends on the bytes read so far and on nothing of the answers after them. From that, what a script does on a bus given
as a parameter (20_memory.md R40, R41, R46). -/

namespace Sys2Proof.Machine

/-- An operation as an interaction with a bus: it reads, goes on with the byte read, or writes, and ends in a state.
`flat` is the byte of the flat array, taken when no answer is queued. -/
inductive Script where
  | done (t : State)
  | read (a : Addr) (flat : Byte) (next : Byte → Script)
  | write (a : Addr) (v : Byte) (next : Script)

namespace Script

/-- The state a script ends in and the answers left over. -/
def leaf (σ : Script) (l : List Byte) : State × List Byte :=
  match σ with
  | .done t => (t, l)
  | .read _ flat next => (next (l.headD flat)).leaf l.tail
  | .write _ _ next => next.leaf l

/-- The calls a script makes with given answers. -/
def calls (σ : Script) (l : List Byte) : List BusCall :=
  match σ with
  | .done _ => []
  | .read a flat next => .read a (l.headD flat) :: (next (l.headD flat)).calls l.tail
  | .write a v next => .write a v :: next.calls l

/-- At most `n` reads, whatever is read. -/
def AtMost (σ : Script) (n : Nat) : Prop :=
  match σ with
  | .done _ => True
  | .read _ _ next => ∃ m, n = m + 1 ∧ ∀ v, (next v).AtMost m
  | .write _ _ next => next.AtMost n

/-- Go on with another script. -/
def bind (σ : Script) (g : State → Script) : Script :=
  match σ with
  | .done t => g t
  | .read a flat next => .read a flat fun v => (next v).bind g
  | .write a v next => .write a v (next.bind g)

theorem leaf_bind (σ : Script) (g : State → Script) (l : List Byte) :
    (σ.bind g).leaf l = (g (σ.leaf l).1).leaf (σ.leaf l).2 := by
  induction σ generalizing l with
  | done t => rfl
  | read a flat next ih => exact ih _ _
  | write a v next ih => exact ih l

theorem calls_bind (σ : Script) (g : State → Script) (l : List Byte) :
    (σ.bind g).calls l = σ.calls l ++ (g (σ.leaf l).1).calls (σ.leaf l).2 := by
  induction σ generalizing l with
  | done t => rfl
  | read a flat next ih => simp [bind, calls, leaf, ih]
  | write a v next ih => simp [bind, calls, leaf, ih]

theorem AtMost.mono {σ : Script} {m n : Nat} (h : σ.AtMost m) (hm : m ≤ n) : σ.AtMost n := by
  induction σ generalizing m n with
  | done t => trivial
  | read a flat next ih =>
    obtain ⟨j, rfl, hj⟩ := h
    exact ⟨n - 1, by omega, fun v => ih v (hj v) (by omega)⟩
  | write a v next ih => exact ih (m := m) h hm

theorem AtMost.bind {σ : Script} {g : State → Script} {m n : Nat} (h : σ.AtMost m) (hg : ∀ t, (g t).AtMost n) :
    (σ.bind g).AtMost (m + n) := by
  induction σ generalizing m with
  | done t => exact (hg t).mono (by omega)
  | read a flat next ih =>
    obtain ⟨j, rfl, hj⟩ := h
    exact ⟨j + n, by omega, fun v => ih v (hj v)⟩
  | write a v next ih => exact ih (m := m) h

/-- The bytes a bus answers to the reads of a script, and the bus after it. -/
def onBus (σ : Script) (B : Bus) (c : B.Carrier) : List Byte × B.Carrier :=
  match σ with
  | .done _ => ([], c)
  | .read a _ next =>
    ((B.read c a).1 :: ((next (B.read c a).1).onBus B (B.read c a).2).1,
      ((next (B.read c a).1).onBus B (B.read c a).2).2)
  | .write a v next => next.onBus B (B.write c a v)

/-- With the bytes a bus answers as answers, a script makes calls that the bus answers so, and no answer is left. -/
theorem serve_onBus (σ : Script) (B : Bus) (c : B.Carrier) :
    B.serve (σ.calls (σ.onBus B c).1) c = σ.onBus B c ∧
      readBytes (σ.calls (σ.onBus B c).1) = (σ.onBus B c).1 ∧ (σ.leaf (σ.onBus B c).1).2 = [] := by
  induction σ generalizing c with
  | done t => exact ⟨rfl, rfl, rfl⟩
  | read a flat next ih =>
    obtain ⟨h1, h2, h3⟩ := ih (B.read c a).1 (B.read c a).2
    refine ⟨?_, ?_, ?_⟩
    · simp only [onBus, calls, List.headD_cons, List.tail_cons, Bus.serve, h1]
    · simp only [onBus, calls, List.headD_cons, List.tail_cons]
      simpa [readBytes] using h2
    · simpa [onBus, leaf] using h3
  | write a v next ih =>
    obtain ⟨h1, h2, h3⟩ := ih (B.write c a v)
    exact ⟨by simpa [onBus, calls, Bus.serve] using h1, by simpa [onBus, calls, readBytes] using h2, h3⟩

/-- Answers that the bus gives to the very calls they lead to are the bytes of `onBus`. -/
theorem eq_onBus (σ : Script) (B : Bus) (c : B.Carrier) (l : List Byte)
    (h : readBytes (σ.calls l) = l) (hB : (B.serve (σ.calls l) c).1 = l) : l = (σ.onBus B c).1 := by
  induction σ generalizing c l with
  | done t => simpa [calls, readBytes, onBus] using h.symm
  | read a flat next ih =>
    cases l with
    | nil => simp [calls, Bus.serve] at hB
    | cons b r =>
      simp only [calls, List.headD_cons, List.tail_cons, Bus.serve, List.cons.injEq] at hB
      have h' : readBytes ((next b).calls r) = r := by simpa [calls, readBytes] using h
      obtain ⟨hb, hr⟩ := hB
      rw [← hb] at h'
      rw [← hb] at hr
      simp only [onBus, List.cons.injEq]
      exact ⟨hb.symm, ih _ _ _ h' hr⟩
  | write a v next ih =>
    exact ih _ _ (by simpa [calls, readBytes] using h) (by simpa [calls, Bus.serve] using hB)

/-- Given the very bytes it reads from the flat array, a script does the same. -/
theorem leaf_own (σ : Script) : σ.leaf (readBytes (σ.calls [])) = σ.leaf [] ∧ (σ.leaf []).2 = [] ∧
    σ.calls (readBytes (σ.calls [])) = σ.calls [] := by
  induction σ with
  | done t => exact ⟨rfl, rfl, rfl⟩
  | read a flat next ih => simpa [leaf, calls, readBytes] using ih flat
  | write a v next ih => simpa [leaf, calls, readBytes] using ih

/-- One more round of asking settles one more read. -/
theorem serve_take (σ : Script) (B : Bus) (c : B.Carrier) (l : List Byte) (k : Nat)
    (h : l.take k = (σ.onBus B c).1.take k) :
    (B.serve (σ.calls l) c).1.take (k + 1) = (σ.onBus B c).1.take (k + 1) := by
  induction σ generalizing c l k with
  | done t => rfl
  | read a flat next ih =>
    simp only [calls, Bus.serve, onBus, List.take_succ_cons]
    cases k with
    | zero => simp
    | succ k =>
      cases l with
      | nil => simp [onBus] at h
      | cons b r =>
        simp only [onBus, List.take_succ_cons, List.cons.injEq] at h
        obtain ⟨rfl, hr⟩ := h
        simpa using ih _ _ _ _ hr
  | write a v next ih => simpa [calls, Bus.serve, onBus] using ih _ _ _ h

theorem AtMost.serve_zero {σ : Script} (h : σ.AtMost 0) (B : Bus) (c : B.Carrier) (l : List Byte) :
    (B.serve (σ.calls l) c).1 = [] := by
  induction σ generalizing c with
  | done t => rfl
  | read a flat next ih => obtain ⟨m, hm, -⟩ := h; omega
  | write a v next ih => exact ih h _

theorem AtMost.onBus_zero {σ : Script} (h : σ.AtMost 0) (B : Bus) (c : B.Carrier) : (σ.onBus B c).1 = [] := by
  induction σ generalizing c with
  | done t => rfl
  | read a flat next ih => obtain ⟨m, hm, -⟩ := h; omega
  | write a v next ih => exact ih h _

/-- The last round settles all of them. -/
theorem serve_all {σ : Script} {k : Nat} (hk : σ.AtMost (k + 1)) (B : Bus) (c : B.Carrier) (l : List Byte)
    (h : l.take k = (σ.onBus B c).1.take k) : (B.serve (σ.calls l) c).1 = (σ.onBus B c).1 := by
  induction σ generalizing c l k with
  | done t => rfl
  | read a flat next ih =>
    obtain ⟨m, hm, hn⟩ := hk
    obtain rfl : k = m := by omega
    simp only [calls, Bus.serve, onBus, List.cons.injEq, true_and]
    cases k with
    | zero => simp [(hn _).serve_zero B, (hn _).onBus_zero B]
    | succ k =>
      cases l with
      | nil => simp [onBus] at h
      | cons b r =>
        simp only [onBus, List.take_succ_cons, List.cons.injEq] at h
        obtain ⟨rfl, hr⟩ := h
        simpa using ih _ (hn _) _ _ hr
  | write a v next ih => exact ih hk _ _ h

end Script

/-- `f` follows a script of at most `n` reads, from every state and whatever the answers are. -/
def Follows (n : Nat) (f : State → State) : Prop :=
  ∀ s : State, ∃ σ : Script, σ.AtMost n ∧ ∀ l,
    f (s.setAnswers l) = (σ.leaf l).1.setAnswers (σ.leaf l).2 ∧ (σ.leaf l).1.bus = s.bus ++ σ.calls l

namespace Follows

theorem mono {m n : Nat} {f : State → State} (h : Follows m f) (hm : m ≤ n) : Follows n f := fun s =>
  let ⟨σ, hσ, h⟩ := h s
  ⟨σ, hσ.mono hm, h⟩

/-- An operation that makes no call and looks at no answer. -/
theorem quiet {f : State → State} (h : ∀ s l, f (s.setAnswers l) = (f s).setAnswers l)
    (hb : ∀ s, (f s).bus = s.bus) : Follows 0 f := fun s => ⟨.done
        (f s), trivial, fun l => ⟨h s l, by simp [Script.leaf, Script.calls, hb]⟩⟩

/-- One operation after another. -/
theorem comp {m n : Nat} {f g : State → State} (hf : Follows m f) (hg : Follows n g) :
    Follows (m + n) fun s => g (f s) := by
  intro s
  obtain ⟨σ, hσ, h⟩ := hf s
  choose τ hτ h' using hg
  refine ⟨σ.bind τ, hσ.bind hτ, fun l => ?_⟩
  obtain ⟨e, b⟩ := h l
  obtain ⟨e', b'⟩ := h' (σ.leaf l).1 (σ.leaf l).2
  refine ⟨?_, ?_⟩
  · show g (f (s.setAnswers l)) = _
    rw [e, e', Script.leaf_bind]
  · rw [Script.leaf_bind, Script.calls_bind, b', b, List.append_assoc]

/-- A read whose address no answer decides, and what is done with the byte. -/
theorem read {n : Nat} {a : State → Addr} {k : Byte → State → State} (ha : ∀ s l, a (s.setAnswers l) = a s)
    (hk : ∀ v, Follows n (k v)) : Follows (n + 1) fun s => k (s.answerAt 0 (a s)) (s.noteRead (a s)) := by
  intro s
  choose τ hτ h using fun v => hk v (s.setBus (s.bus ++ [.read (a s) v]))
  refine ⟨.read (a s) (s.peek (a s)) τ, ⟨n, rfl, hτ⟩, fun l => ?_⟩
  obtain ⟨e, b⟩ := h (l.headD (s.peek (a s))) l.tail
  refine ⟨?_, ?_⟩
  · simp only [Script.leaf, ha]
    rw [← e]
    have h0 : (s.setAnswers l).answerAt 0 (a s) = l.headD (s.peek (a s)) := by cases l <;> rfl
    rw [h0]
    congr 1
    simp only [State.noteRead, State.recordRead, h0]
    simp [State.setBus, State.setAnswers]
  · simp only [Script.leaf, Script.calls]
    rw [b]
    simp

/-- A store that no answer decides. -/
theorem store {a : State → Addr} {v : State → Byte} (ha : ∀ s l, a (s.setAnswers l) = a s)
    (hv : ∀ s l, v (s.setAnswers l) = v s) : Follows 0 fun s => s.store (a s) (v s) := fun s =>
  ⟨.write (a s) (v s) (.done (s.store (a s) (v s))), trivial, fun l => by
    simp only [ha, hv]
    exact ⟨rfl, by simp [Script.leaf, Script.calls]⟩⟩

/-- A silent preparation, then an operation with a value that no answer decides. -/
theorem prepare {n : Nat} {ι : Type} {k : ι → State → State} (hk : ∀ c, Follows n (k c)) {c : State → ι}
    {f : State → State} (hc : ∀ s l, c (s.setAnswers l) = c s)
    (hf : ∀ s l, f (s.setAnswers l) = (f s).setAnswers l) (hb : ∀ s, (f s).bus = s.bus) :
    Follows n fun s => k (c s) (f s) := by
  intro s
  obtain ⟨σ, hσ, h⟩ := hk (c s) (f s)
  refine ⟨σ, hσ, fun l => ?_⟩
  simp only [hc, hf]
  exact ⟨(h l).1, by rw [(h l).2, hb]⟩

/-- An operand byte at the program counter, and what is done with it. -/
theorem operand {n : Nat} {k : Byte → State → State} (hk : ∀ b, Follows n (k b)) :
    Follows (n + 1) fun s => k (s.answerAt 0 s.pc) (s.takeByte (s.answerAt 0 s.pc)) :=
  read (a := fun s => s.pc) (k := fun b s => k b (s.setPc (s.pc + 1))) (fun _ _ => rfl) fun b =>
    prepare (k := fun (_ : Unit) => k b) (c := fun _ => ()) (fun _ => hk b) (fun _ _ => rfl) (fun _ _ => rfl)
      fun _ => rfl

/-- Two operand bytes at the program counter, and what is done with their word. -/
theorem operandWord {n : Nat} {k : Addr → State → State} (hk : ∀ w, Follows n (k w)) :
    Follows (n + 2) fun s => k (joinBytes (s.answerAt 1 (s.pc + 1)) (s.answerAt 0 s.pc))
      (s.takeWord (joinBytes (s.answerAt 1 (s.pc + 1)) (s.answerAt 0 s.pc))) := by
  have e := operand (k := fun lo s => k (joinBytes (s.answerAt 0 s.pc) lo) (s.takeByte (s.answerAt 0 s.pc)))
    fun lo => operand (k := fun hi => k (joinBytes hi lo)) fun hi => hk _
  simpa [State.takeWord] using e

/-- Two reads of a pointer, low byte first, and what is done with their word. -/
theorem pointer {n : Nat} {lo hi : State → Addr} {k : Addr → State → State}
    (hlo : ∀ s l, lo (s.setAnswers l) = lo s)
    (hhi : ∀ s l, hi (s.setAnswers l) = hi s) (hn : ∀ s a, hi (s.noteRead a) = hi s) (hk : ∀ w, Follows n (k w)) :
    Follows (n + 2) fun s => k (joinBytes (s.answerAt 1 (hi s)) (s.answerAt 0 (lo s)))
      ((s.noteRead (lo s)).noteRead (hi s)) := by
  have e := read (k := fun l s => k (joinBytes (s.answerAt 0 (hi s)) l) (s.noteRead (hi s))) hlo
    fun l => read (k := fun h => k (joinBytes h l)) hhi fun h => hk _
  simpa [hn] using e

/-- `Push(v)` (40_addressing_modes.md R96). -/
theorem push {v : State → Byte} (hv : ∀ s l, v (s.setAnswers l) = v s) : Follows 0 fun s => s.push (v s) :=
  (store (a := fun s => stackAddr s.sp) (fun _ _ => rfl) hv).comp
    (quiet (f := fun s => s.setSp (s.sp - 1)) (fun _ _ => rfl) fun _ => rfl)

/-- `Pop()`, and what is done with the byte (R97). -/
theorem pull {n : Nat} {k : Byte → State → State} (hk : ∀ v, Follows n (k v)) :
    Follows (n + 1) fun s => k s.popValue s.pop :=
  read (a := fun s => stackAddr (s.sp + 1)) (k := fun v s => k v (s.setSp (s.sp + 1))) (fun _ _ => rfl) fun v =>
    prepare (k := fun (_ : Unit) => k v) (c := fun _ => ()) (fun _ => hk v) (fun _ _ => rfl) (fun _ _ => rfl)
      fun _ => rfl

end Follows

/-- How many bus reads the resolver of a mode makes, the operand bytes among them; the byte of Immediate is read by
`Fetch()` (20_memory.md R48). -/
def modeReads (m : Mode) : Nat :=
  match m with
  | .imp => 0
  | .imm => 0
  | .zp0 => 1
  | .zpx => 1
  | .zpy => 1
  | .rel => 1
  | .abs => 2
  | .abx => 2
  | .aby => 2
  | .ind => 4
  | .izx => 3
  | .izy => 3

/-- The resolver of a mode on the operand bytes the bus answers, and what comes after it. -/
theorem resolve_follows (m : Mode) {n : Nat} {H : Bool → State → State} (hH : ∀ c, Follows n (H c)) :
    Follows (n + modeReads m) fun s =>
      H (pageCross (assemble m (s.answerAt 0 s.pc) (s.answerAt 1 (s.pc + 1))) s)
        (resolve (assemble m (s.answerAt 0 s.pc) (s.answerAt 1 (s.pc + 1))) s) := by
  have q : ∀ {f : State → State} {c : State → Bool}, (∀ s l, c (s.setAnswers l) = c s) →
      (∀ s l, f (s.setAnswers l) = (f s).setAnswers l) → (∀ s, (f s).bus = s.bus) →
      Follows n fun s => H (c s) (f s) :=
    fun h1 h2 h3 => .prepare hH h1 h2 h3
  cases m
  case imp => exact q (c := fun _ => false) (fun _ _ => rfl) (fun _ _ => rfl) fun _ => rfl
  case imm => exact q (c := fun _ => false) (fun _ _ => rfl) (fun _ _ => rfl) fun _ => rfl
  case zp0 =>
    exact Follows.operand (k := fun z s => H false (s.setAddrAbs (zext16 z))) fun z =>
      q (c := fun _ => false) (fun _ _ => rfl) (fun _ _ => rfl) fun _ => rfl
  case zpx =>
    exact Follows.operand (k := fun z s => H false (s.setAddrAbs (zext16 (z + s.x)))) fun z =>
      q (c := fun _ => false) (fun _ _ => rfl) (fun _ _ => rfl) fun _ => rfl
  case zpy =>
    exact Follows.operand (k := fun z s => H false (s.setAddrAbs (zext16 (z + s.y)))) fun z =>
      q (c := fun _ => false) (fun _ _ => rfl) (fun _ _ => rfl) fun _ => rfl
  case rel =>
    exact Follows.operand (k := fun d s => H false (s.setAddrRel (sext16 d))) fun z =>
      q (c := fun _ => false) (fun _ _ => rfl) (fun _ _ => rfl) fun _ => rfl
  case abs =>
    exact Follows.operandWord (k := fun w s => H false (s.setAddrAbs w)) fun w =>
      q (c := fun _ => false) (fun _ _ => rfl) (fun _ _ => rfl) fun _ => rfl
  case abx =>
    exact Follows.operandWord (k := fun w s => H (hi8 (w + zext16 s.x) != hi8 w) (s.setAddrAbs (w + zext16 s.x)))
      fun w => q (c := fun s => hi8 (w + zext16 s.x) != hi8 w) (fun _ _ => rfl) (fun _ _ => rfl) fun _ => rfl
  case aby =>
    exact Follows.operandWord (k := fun w s => H (hi8 (w + zext16 s.y) != hi8 w) (s.setAddrAbs (w + zext16 s.y)))
      fun w => q (c := fun s => hi8 (w + zext16 s.y) != hi8 w) (fun _ _ => rfl) (fun _ _ => rfl) fun _ => rfl
  case ind =>
    have e := Follows.operandWord (n := n + 2)
      (k := fun w s => H false (((s.noteRead w).noteRead (indirectHigh w)).setAddrAbs
        (joinBytes (s.answerAt 1 (indirectHigh w)) (s.answerAt 0 w)))) fun w =>
      .pointer (lo := fun _ => w) (hi := fun _ => indirectHigh w) (k := fun p s => H false (s.setAddrAbs p))
        (fun _ _ => rfl) (fun _ _ => rfl) (fun _ _ => rfl) fun p =>
          q (c := fun _ => false) (fun _ _ => rfl) (fun _ _ => rfl) fun _ => rfl
    simpa [assemble, resolve, pageCross, effAddr, modeReads] using e
  case izx =>
    have e := Follows.operand (n := n + 2)
      (k := fun z s => H false ((s.noteZeroPageWord (z + s.x)).setAddrAbs
        (joinBytes (s.answerAt 1 (zext16 (z + s.x + 1))) (s.answerAt 0 (zext16 (z + s.x)))))) fun z =>
      .pointer (lo := fun s => zext16 (z + s.x)) (hi := fun s => zext16 (z + s.x + 1))
        (k := fun p s => H false (s.setAddrAbs p)) (fun _ _ => rfl) (fun _ _ => rfl) (fun _ _ => rfl) fun p =>
          q (c := fun _ => false) (fun _ _ => rfl) (fun _ _ => rfl) fun _ => rfl
    simpa [assemble, resolve, pageCross, effAddr, modeReads, State.zeroPageWord] using e
  case izy =>
    have e := Follows.operand (n := n + 2)
      (k := fun z s => (fun p (s : State) => H (hi8 (p + zext16 s.y) != hi8 p) (s.setAddrAbs (p + zext16 s.y)))
        (joinBytes (s.answerAt 1 (zext16 (z + 1))) (s.answerAt 0 (zext16 z))) (s.noteZeroPageWord z)) fun z =>
      .pointer (lo := fun _ => zext16 z) (hi := fun _ => zext16 (z + 1))
        (k := fun p s => H (hi8 (p + zext16 s.y) != hi8 p) (s.setAddrAbs (p + zext16 s.y)))
        (fun _ _ => rfl) (fun _ _ => rfl) (fun _ _ => rfl) fun p =>
          q (c := fun s => hi8 (p + zext16 s.y) != hi8 p) (fun _ _ => rfl) (fun _ _ => rfl) fun _ => rfl
    simpa [assemble, resolve, pageCross, effAddr, indexBase, modeReads, State.zeroPageWord] using e

/-- Taking an interrupt (60_exceptions.md R204). -/
theorem interruptEntry_follows (vec : Addr) (lat : Nat) (brk : Bool) : Follows 2 (interruptEntry vec lat brk) := by
  have e := (((Follows.push (v := fun s => hi8 s.pc) fun _ _ => rfl).comp
    (Follows.push (v := fun s => lo8 s.pc) fun _ _ => rfl)).comp
    (Follows.push (v := fun s => if brk then statusWithBreak s.p else statusWithoutBreak s.p) fun _ _ => rfl)).comp
    ((Follows.quiet (f := fun s => s.setP (statusLive s.p ||| flagMask .i)) (fun _ _ => rfl) fun _ => rfl).comp
      (Follows.pointer (n := 0) (lo := fun _ => vec) (hi := fun _ => vec + 1)
        (k := fun w s => if brk then s.setPc w else (s.setPc w).setCycles lat) (fun _ _ => rfl) (fun _ _ => rfl)
        (fun _ _ => rfl) fun w => by
          cases brk
          · exact .quiet (fun _ _ => rfl) fun _ => rfl
          · exact .quiet (fun _ _ => rfl) fun _ => rfl))
  refine (congrArg (Follows _) (funext fun s => ?_)).mp e
  cases brk <;> simp [interruptEntry, State.wordAnswer, State.noteReadWord]

/-- The return from an interrupt (48_system.md R181). -/
theorem interruptReturn_follows : Follows 3 interruptReturn :=
  Follows.pull (k := fun p s => (fun (r : State) => (r.pop.pop).setPc (joinBytes r.pop.popValue r.popValue))
      (s.setP (statusLive p))) fun _ =>
    Follows.prepare (ι := Unit) (k := fun _ r => (r.pop.pop).setPc (joinBytes r.pop.popValue r.popValue))
      (c := fun _ => ())
      (fun _ => Follows.pull (k := fun lo r => (r.pop).setPc (joinBytes r.popValue lo)) fun lo =>
        Follows.pull (k := fun hi r => r.setPc (joinBytes hi lo)) fun _ => .quiet (fun _ _ => rfl) fun _ => rfl)
      (fun _ _ => rfl) (fun _ _ => rfl) fun _ => rfl

/-- An instruction whose handler does not look at its operand. -/
theorem runInstr_follows (m : Mode) (signal : Bool) {n : Nat} {h : State → State} (hh : Follows n h) :
    Follows (n + modeReads m) fun s =>
      runInstr (assemble m (s.answerAt 0 s.pc) (s.answerAt 1 (s.pc + 1))) signal h s :=
  resolve_follows m (H := fun c s => (h s).setCycles ((h s).cycles + (c && signal).toNat)) fun c =>
    (hh.comp (.quiet (f := fun s => s.setCycles (s.cycles + (c && signal).toNat)) (fun _ _ => rfl) fun _ => rfl)).mono
      (by omega)

/-- How many bus reads an instruction of a mode makes when its handler calls `Fetch()`. -/
def fetchReads (m : Mode) : Nat :=
  match m with
  | .imp => 0
  | .imm => 1
  | m => modeReads m + 1

/-- An instruction whose handler fetches its operand; what follows the fetch depends on the mode alone. -/
theorem runInstr_fetch_follows (m : Mode) (signal : Bool) {g : Operand → State → State}
    (hg : Follows 0 (g (assemble m 0 0))) (hm : ∀ b1 b2, g (assemble m b1 b2) = g (assemble m 0 0)) :
    Follows (fetchReads m) fun s =>
      runInstr (assemble m (s.answerAt 0 s.pc) (s.answerAt 1 (s.pc + 1))) signal
        (fun r => g (assemble m (s.answerAt 0 s.pc) (s.answerAt 1 (s.pc + 1)))
          (fetch (assemble m (s.answerAt 0 s.pc) (s.answerAt 1 (s.pc + 1))) r)) s := by
  simp only [hm]
  generalize g (assemble m 0 0) = h at hg
  have tail : ∀ c : Bool, Follows 0 fun s => (h s).setCycles ((h s).cycles + (c && signal).toNat) := fun c =>
    hg.comp (.quiet (f := fun s => s.setCycles (s.cycles + (c && signal).toNat)) (fun _ _ => rfl) fun _ => rfl)
  have other : ∀ k : State → State, Follows 1 k →
      (∀ b1 b2, fetch (assemble m b1 b2) = k) → Follows (modeReads m + 1) fun s =>
      runInstr (assemble m (s.answerAt 0 s.pc) (s.answerAt 1 (s.pc + 1))) signal
        (fun r => h (fetch (assemble m (s.answerAt 0 s.pc) (s.answerAt 1 (s.pc + 1))) r)) s := by
    intro k hk e
    simp only [e]
    exact (runInstr_follows m signal (hk.comp hg)).mono (by omega)
  have memory : Follows 1 fun s => (s.noteRead s.addrAbs).setFetched (s.answerAt 0 s.addrAbs) :=
    Follows.read (a := fun s => s.addrAbs) (k := fun v s => s.setFetched v) (fun _ _ => rfl) fun v =>
      .quiet (fun _ _ => rfl) fun _ => rfl
  cases m
  case imp => exact runInstr_follows .imp signal hg
  case imm =>
    exact Follows.read (n := 0) (a := fun s => s.pc)
      (k := fun v s => (fun s => (h s).setCycles ((h s).cycles + (false && signal).toNat))
        (((s.setAddrAbs s.pc).setPc (s.pc + 1)).setFetched v)) (fun _ _ => rfl) fun v =>
      .prepare (ι := Unit) (k := fun _ s => (h s).setCycles ((h s).cycles + (false && signal).toNat))
        (c := fun _ => ())
        (fun _ => tail false) (fun _ _ => rfl) (fun _ _ => rfl) fun _ => rfl
  all_goals exact other _ memory fun _ _ => rfl

/-- The shared end of the shifts and rotates (43_shift_rotate.md R120 to R123). -/
theorem shiftResult_follows (o : Operand) {c : State → Bool} {r : State → Byte}
    (hc : ∀ s l, c (s.setAnswers l) = c s)
    (hr : ∀ s l, r (s.setAnswers l) = r s) : Follows 0 fun s => shiftResult o (c s) (r s) s := by
  have back : ∀ v, Follows 0 (writeBack o v) := by
    intro v
    have memory : Follows 0 fun s => s.store s.addrAbs v := .store (fun _ _ => rfl) fun _ _ => rfl
    cases o
    case imp => exact .quiet (fun _ _ => rfl) fun _ => rfl
    all_goals exact memory
  refine .prepare (c := r) (f := fun s => (s.setFlag .c (c s)).setZN (r s)) back hr (fun s l => ?_) fun _ => rfl
  simp only [hc, hr]
  rfl

/-- A branch (45_branches.md R140). -/
theorem branch_follows {c : State → Bool} (hc : ∀ s l, c (s.setAnswers l) = c s) :
    Follows 0 fun s => branch (c s) s :=
  .prepare (ι := Bool) (k := branch) (c := c) (f := fun s => s) (fun b => by
    cases b
    · exact .quiet (fun _ _ => rfl) fun _ => rfl
    · exact .quiet (fun _ _ => rfl) fun _ => rfl) hc (fun _ _ => rfl) fun _ => rfl

/-- The shared end of INC and DEC (44_incdec_compare.md R130, R131). -/
theorem memoryResult_follows {r : State → Byte} (hr : ∀ s l, r (s.setAnswers l) = r s) :
    Follows 0 fun s => memoryResult (r s) s :=
  .prepare (ι := Byte) (k := fun v s => memoryResult v s) (c := r) (f := fun s => s)
    (fun v => (Follows.store (a := fun s => s.addrAbs) (v := fun _ => v) (fun _ _ => rfl) fun _ _ => rfl).comp
      (.quiet (f := fun s => s.setZN v) (fun _ _ => rfl) fun _ => rfl)) hr (fun _ _ => rfl) fun _ => rfl

/-- Some instruction: its handler with the operand bytes the bus answers follows a script of at most four reads. -/
def Runs (m : Mnemonic) (mode : Mode) (op : Byte) : Prop :=
  ∃ f : State → State, Follows 4 f ∧
    ∀ s, exec (buildInstr m (assemble mode (s.answerAt 0 s.pc) (s.answerAt 1 (s.pc + 1))) op) s = .next (f s)

/-- An instruction whose handler fetches its operand. -/
theorem fetching {mode : Mode} (signal : Bool) (g : Operand → State → State)
    (h1 : Follows 0 (g (assemble mode 0 0)))
    (h2 : ∀ b1 b2, g (assemble mode b1 b2) = g (assemble mode 0 0)) (h3 : fetchReads mode ≤ 4) : Follows 4 fun s =>
      runInstr (assemble mode (s.answerAt 0 s.pc) (s.answerAt 1 (s.pc + 1))) signal
        (fun r => g (assemble mode (s.answerAt 0 s.pc) (s.answerAt 1 (s.pc + 1)))
          (fetch (assemble mode (s.answerAt 0 s.pc) (s.answerAt 1 (s.pc + 1))) r)) s :=
  (runInstr_fetch_follows mode signal h1 h2).mono h3

/-- An instruction whose handler does not. -/
theorem plain {mode : Mode} (signal : Bool) (n : Nat) (h : State → State) (h1 : Follows n h)
    (h2 : n + modeReads mode ≤ 4) :
    Follows 4 fun s => runInstr (assemble mode (s.answerAt 0 s.pc) (s.answerAt 1 (s.pc + 1))) signal h s :=
  (runInstr_follows mode signal h1).mono h2

theorem short {mode : Mode} (l : List Mode) (h1 : l.contains mode = true)
    (h2 : l.all (fun m => decide (modeReads m ≤ 4)) = true) : 0 + modeReads mode ≤ 4 := by
  rw [Nat.zero_add]
  exact of_decide_eq_true (List.all_eq_true.mp h2 mode (by simpa using h1))

theorem bound {mode : Mode} (l : List Mode) (h1 : l.contains mode = true)
    (h2 : l.all (fun m => decide (fetchReads m ≤ 4)) = true) : fetchReads mode ≤ 4 :=
  of_decide_eq_true (List.all_eq_true.mp h2 mode (by simpa using h1))

theorem runs_loads {m : Mnemonic} {mode : Mode} (op : Byte) (hm : m.modes.contains mode = true)
    (h : m ∈ [Mnemonic.lda, .ldx, .ldy, .sta, .stx, .sty]) : Runs m mode op := by
  simp only [List.mem_cons, List.not_mem_nil, or_false] at h
  rcases h with rfl | rfl | rfl | rfl | rfl | rfl
  · exact ⟨_, fetching true (fun _ f => (f.setA f.fetched).setZN f.fetched) (.quiet (fun _ _ => rfl) fun _ => rfl)
      (fun _ _ => rfl) (bound _ hm rfl), fun s => rfl⟩
  · exact ⟨_, fetching true (fun _ f => (f.setX f.fetched).setZN f.fetched) (.quiet (fun _ _ => rfl) fun _ => rfl)
      (fun _ _ => rfl) (bound _ hm rfl), fun s => rfl⟩
  · exact ⟨_, fetching true (fun _ f => (f.setY f.fetched).setZN f.fetched) (.quiet (fun _ _ => rfl) fun _ => rfl)
      (fun _ _ => rfl) (bound _ hm rfl), fun s => rfl⟩
  · exact ⟨_, plain (mode := mode) false 0 (fun r => r.store r.addrAbs r.a) (.store (fun _ _ => rfl) fun _ _ => rfl)
      (short _ hm rfl), fun s => rfl⟩
  · exact ⟨_, plain (mode := mode) false 0 (fun r => r.store r.addrAbs r.x) (.store (fun _ _ => rfl) fun _ _ => rfl)
      (short _ hm rfl), fun s => rfl⟩
  · exact ⟨_, plain (mode := mode) false 0 (fun r => r.store r.addrAbs r.y) (.store (fun _ _ => rfl) fun _ _ => rfl)
      (short _ hm rfl), fun s => rfl⟩

theorem runs_arithmetic {m : Mnemonic} {mode : Mode} (op : Byte) (hm : m.modes.contains mode = true)
    (h : m ∈ [Mnemonic.adc, .sbc, .and, .ora, .eor, .bit]) : Runs m mode op := by
  simp only [List.mem_cons, List.not_mem_nil, or_false] at h
  rcases h with rfl | rfl | rfl | rfl | rfl | rfl
  · exact ⟨_, fetching true (fun _ f => addToA f.fetched f) (.quiet (fun _ _ => rfl) fun _ => rfl)
      (fun _ _ => rfl) (bound _ hm rfl), fun s => rfl⟩
  · exact ⟨_, fetching true (fun _ f => addToA (subOperand f.fetched) f) (.quiet (fun _ _ => rfl) fun _ => rfl)
      (fun _ _ => rfl) (bound _ hm rfl), fun s => rfl⟩
  · exact ⟨_, fetching true (fun _ f => logicToA (f.a &&& f.fetched) f) (.quiet (fun _ _ => rfl) fun _ => rfl)
      (fun _ _ => rfl) (bound _ hm rfl), fun s => rfl⟩
  · exact ⟨_, fetching true (fun _ f => logicToA (f.a ||| f.fetched) f) (.quiet (fun _ _ => rfl) fun _ => rfl)
      (fun _ _ => rfl) (bound _ hm rfl), fun s => rfl⟩
  · exact ⟨_, fetching true (fun _ f => logicToA (f.a ^^^ f.fetched) f) (.quiet (fun _ _ => rfl) fun _ => rfl)
      (fun _ _ => rfl) (bound _ hm rfl), fun s => rfl⟩
  · exact ⟨_, fetching false (fun _ f => bitTest f.fetched f) (.quiet (fun _ _ => rfl) fun _ => rfl)
      (fun _ _ => rfl) (bound _ hm rfl), fun s => rfl⟩

theorem runs_shifts {m : Mnemonic} {mode : Mode} (op : Byte) (hm : m.modes.contains mode = true)
    (h : m ∈ [Mnemonic.asl, .lsr, .rol, .ror, .inc, .dec]) : Runs m mode op := by
  simp only [List.mem_cons, List.not_mem_nil, or_false] at h
  rcases h with rfl | rfl | rfl | rfl | rfl | rfl
  · exact ⟨_, fetching false (fun o f => shiftResult o (f.fetched.getLsbD 7) (aslByte f.fetched) f)
      (shiftResult_follows _ (c := fun f => f.fetched.getLsbD 7) (r := fun f => aslByte f.fetched)
          (fun _ _ => rfl) fun _ _ => rfl)
      (fun _ _ => by cases mode <;> rfl) (bound _ hm rfl), fun s => rfl⟩
  · exact ⟨_, fetching false (fun o f => shiftResult o (f.fetched.getLsbD 0) (lsrByte f.fetched) f)
      (shiftResult_follows _ (c := fun f => f.fetched.getLsbD 0) (r := fun f => lsrByte f.fetched)
          (fun _ _ => rfl) fun _ _ => rfl)
      (fun _ _ => by cases mode <;> rfl) (bound _ hm rfl), fun s => rfl⟩
  · exact ⟨_, fetching false (fun o f => shiftResult o (f.fetched.getLsbD 7) (rolByte f.fetched (f.flag .c)) f)
      (shiftResult_follows _ (c := fun f => f.fetched.getLsbD 7) (r := fun f => rolByte f.fetched (f.flag .c))
          (fun _ _ => rfl) fun _ _ => rfl)
      (fun _ _ => by cases mode <;> rfl) (bound _ hm rfl), fun s => rfl⟩
  · exact ⟨_, fetching false (fun o f => shiftResult o (f.fetched.getLsbD 0) (rorByte f.fetched (f.flag .c)) f)
      (shiftResult_follows _ (c := fun f => f.fetched.getLsbD 0) (r := fun f => rorByte f.fetched (f.flag .c))
          (fun _ _ => rfl) fun _ _ => rfl)
      (fun _ _ => by cases mode <;> rfl) (bound _ hm rfl), fun s => rfl⟩
  · exact ⟨_, fetching false (fun _ f => memoryResult (f.fetched + 1) f) (memoryResult_follows
      (r := fun f => f.fetched + 1) fun _ _ => rfl)
      (fun _ _ => rfl) (bound _ hm rfl), fun s => rfl⟩
  · exact ⟨_, fetching false (fun _ f => memoryResult (f.fetched - 1) f) (memoryResult_follows
      (r := fun f => f.fetched - 1) fun _ _ => rfl)
      (fun _ _ => rfl) (bound _ hm rfl), fun s => rfl⟩

theorem runs_compares {m : Mnemonic} {mode : Mode} (op : Byte) (hm : m.modes.contains mode = true)
    (h : m ∈ [Mnemonic.cmp, .cpx, .cpy, .inx, .iny, .dex, .dey]) : Runs m mode op := by
  simp only [List.mem_cons, List.not_mem_nil, or_false] at h
  rcases h with rfl | rfl | rfl | rfl | rfl | rfl | rfl
  · exact ⟨_, fetching true (fun _ f => compareFlags f.a f.fetched f) (.quiet (fun _ _ => rfl) fun _ => rfl)
      (fun _ _ => rfl) (bound _ hm rfl), fun s => rfl⟩
  · exact ⟨_, fetching false (fun _ f => compareFlags f.x f.fetched f) (.quiet (fun _ _ => rfl) fun _ => rfl)
      (fun _ _ => rfl) (bound _ hm rfl), fun s => rfl⟩
  · exact ⟨_, fetching false (fun _ f => compareFlags f.y f.fetched f) (.quiet (fun _ _ => rfl) fun _ => rfl)
      (fun _ _ => rfl) (bound _ hm rfl), fun s => rfl⟩
  · obtain rfl : mode = .imp := by simpa [Mnemonic.modes] using hm
    exact ⟨_, plain (mode := .imp) false 0 (fun r => (r.setX (r.x + 1)).setZN (r.x + 1)) (.quiet
        (fun _ _ => rfl) fun _ => rfl) (by decide), fun s => rfl⟩
  · obtain rfl : mode = .imp := by simpa [Mnemonic.modes] using hm
    exact ⟨_, plain (mode := .imp) false 0 (fun r => (r.setY (r.y + 1)).setZN (r.y + 1)) (.quiet
        (fun _ _ => rfl) fun _ => rfl) (by decide), fun s => rfl⟩
  · obtain rfl : mode = .imp := by simpa [Mnemonic.modes] using hm
    exact ⟨_, plain (mode := .imp) false 0 (fun r => (r.setX (r.x - 1)).setZN (r.x - 1)) (.quiet
        (fun _ _ => rfl) fun _ => rfl) (by decide), fun s => rfl⟩
  · obtain rfl : mode = .imp := by simpa [Mnemonic.modes] using hm
    exact ⟨_, plain (mode := .imp) false 0 (fun r => (r.setY (r.y - 1)).setZN (r.y - 1)) (.quiet
        (fun _ _ => rfl) fun _ => rfl) (by decide), fun s => rfl⟩

theorem runs_branches {m : Mnemonic} {mode : Mode} (op : Byte) (hm : m.modes.contains mode = true)
    (h : m ∈ [Mnemonic.bcc, .bcs, .beq, .bne, .bmi, .bpl, .bvc, .bvs]) : Runs m mode op := by
  simp only [List.mem_cons, List.not_mem_nil, or_false] at h
  rcases h with rfl | rfl | rfl | rfl | rfl | rfl | rfl | rfl
  · obtain rfl : mode = .rel := by simpa [Mnemonic.modes] using hm
    exact ⟨_, plain (mode := .rel) false 0 (fun r => branch (!r.flag .c) r) (branch_follows
        (c := fun r => !r.flag .c) fun _ _ => rfl) (by decide), fun s => rfl⟩
  · obtain rfl : mode = .rel := by simpa [Mnemonic.modes] using hm
    exact ⟨_, plain (mode := .rel) false 0 (fun r => branch (r.flag .c) r) (branch_follows
        (c := fun r => r.flag .c) fun _ _ => rfl) (by decide), fun s => rfl⟩
  · obtain rfl : mode = .rel := by simpa [Mnemonic.modes] using hm
    exact ⟨_, plain (mode := .rel) false 0 (fun r => branch (r.flag .z) r) (branch_follows
        (c := fun r => r.flag .z) fun _ _ => rfl) (by decide), fun s => rfl⟩
  · obtain rfl : mode = .rel := by simpa [Mnemonic.modes] using hm
    exact ⟨_, plain (mode := .rel) false 0 (fun r => branch (!r.flag .z) r) (branch_follows
        (c := fun r => !r.flag .z) fun _ _ => rfl) (by decide), fun s => rfl⟩
  · obtain rfl : mode = .rel := by simpa [Mnemonic.modes] using hm
    exact ⟨_, plain (mode := .rel) false 0 (fun r => branch (r.flag .n) r) (branch_follows
        (c := fun r => r.flag .n) fun _ _ => rfl) (by decide), fun s => rfl⟩
  · obtain rfl : mode = .rel := by simpa [Mnemonic.modes] using hm
    exact ⟨_, plain (mode := .rel) false 0 (fun r => branch (!r.flag .n) r) (branch_follows
        (c := fun r => !r.flag .n) fun _ _ => rfl) (by decide), fun s => rfl⟩
  · obtain rfl : mode = .rel := by simpa [Mnemonic.modes] using hm
    exact ⟨_, plain (mode := .rel) false 0 (fun r => branch (!r.flag .v) r) (branch_follows
        (c := fun r => !r.flag .v) fun _ _ => rfl) (by decide), fun s => rfl⟩
  · obtain rfl : mode = .rel := by simpa [Mnemonic.modes] using hm
    exact ⟨_, plain (mode := .rel) false 0 (fun r => branch (r.flag .v) r) (branch_follows
        (c := fun r => r.flag .v) fun _ _ => rfl) (by decide), fun s => rfl⟩

theorem runs_jumps {m : Mnemonic} {mode : Mode} (op : Byte) (hm : m.modes.contains mode = true)
    (h : m ∈ [Mnemonic.jmp, .jsr, .rts, .brk, .rti, .nop, .ill]) : Runs m mode op := by
  simp only [List.mem_cons, List.not_mem_nil, or_false] at h
  rcases h with rfl | rfl | rfl | rfl | rfl | rfl | rfl
  · exact ⟨_, plain (mode := mode) false 0 (fun r => r.setPc r.addrAbs) (.quiet (fun _ _ => rfl) fun _ => rfl)
      (short _ hm rfl), fun s => rfl⟩
  · obtain rfl : mode = .abs := by simpa [Mnemonic.modes] using hm
    exact ⟨_, plain (mode := .abs) false 0 (fun r => ((r.push (hi8 (r.pc - 1))).push (lo8
        (r.pc - 1))).setPc r.addrAbs) (((Follows.push (v := fun r => hi8 (r.pc - 1)) fun _ _ => rfl).comp
      (Follows.push (v := fun r => lo8 (r.pc - 1)) fun _ _ => rfl)).comp
      (.quiet (f := fun r => r.setPc r.addrAbs) (fun _ _ => rfl) fun _ => rfl)) (by decide), fun s => rfl⟩
  · obtain rfl : mode = .imp := by simpa [Mnemonic.modes] using hm
    exact ⟨_, plain (mode := .imp) false 2 (fun r => r.pop.pop.setPc (joinBytes r.pop.popValue r.popValue + 1))
        (Follows.pull (k := fun lo r => r.pop.setPc (joinBytes r.popValue lo + 1)) fun lo =>
      Follows.pull (k := fun hi r => r.setPc (joinBytes hi lo + 1)) fun _ => .quiet (fun _ _ => rfl) fun _ => rfl)
          (by decide), fun s => rfl⟩
  · obtain rfl : mode = .imp := by simpa [Mnemonic.modes] using hm
    exact ⟨_, plain (mode := .imp) false 2 (fun r => interruptEntry params.irqVector 0 true (r.setPc (r.pc + 1)))
        ((Follows.quiet (f := fun r => r.setPc (r.pc + 1)) (fun _ _ => rfl) fun _ => rfl).comp
      (interruptEntry_follows _ _ _)) (by decide), fun s => rfl⟩
  · obtain rfl : mode = .imp := by simpa [Mnemonic.modes] using hm
    exact ⟨_, plain (mode := .imp) false 3 (fun r => interruptReturn r) interruptReturn_follows
        (by decide), fun s => rfl⟩
  · obtain rfl : mode = .imp := by simpa [Mnemonic.modes] using hm
    exact ⟨_, plain (mode := .imp) false 0 (fun r => r) (.quiet (fun _ _ => rfl) fun _ => rfl)
        (by decide), fun s => rfl⟩
  · obtain rfl : mode = .imp := by simpa [Mnemonic.modes] using hm
    exact ⟨_, plain (mode := .imp) false 0 (fun r => r) (.quiet (fun _ _ => rfl) fun _ => rfl)
        (by decide), fun s => rfl⟩

theorem runs_stack {m : Mnemonic} {mode : Mode} (op : Byte) (hm : m.modes.contains mode = true)
    (h : m ∈ [Mnemonic.pha, .php, .pla, .plp]) : Runs m mode op := by
  simp only [List.mem_cons, List.not_mem_nil, or_false] at h
  rcases h with rfl | rfl | rfl | rfl
  · obtain rfl : mode = .imp := by simpa [Mnemonic.modes] using hm
    exact ⟨_, plain (mode := .imp) false 0 (fun r => r.push r.a) (.push fun _ _ => rfl) (by decide), fun s => rfl⟩
  · obtain rfl : mode = .imp := by simpa [Mnemonic.modes] using hm
    exact ⟨_, plain (mode := .imp) false 0 (fun r => (r.push (statusWithBreak r.p)).setP (statusLive r.p))
        ((Follows.push (v := fun r => statusWithBreak r.p) fun _ _ => rfl).comp
      (.quiet (f := fun r => r.setP (statusLive r.p)) (fun _ _ => rfl) fun _ => rfl)) (by decide), fun s => rfl⟩
  · obtain rfl : mode = .imp := by simpa [Mnemonic.modes] using hm
    exact ⟨_, plain (mode := .imp) false 1 (fun r => (r.pop.setA r.popValue).setZN r.popValue) (Follows.pull
        (k := fun v r => (r.setA v).setZN v) fun _ => .quiet (fun _ _ => rfl) fun _ => rfl) (by decide), fun s => rfl⟩
  · obtain rfl : mode = .imp := by simpa [Mnemonic.modes] using hm
    exact ⟨_, plain (mode := .imp) false 1 (fun r => r.pop.setP (statusPulled r.popValue)) (Follows.pull
        (k := fun v r => r.setP (statusPulled v)) fun _ => .quiet (fun _ _ => rfl) fun _ => rfl)
            (by decide), fun s => rfl⟩

theorem runs_flags {m : Mnemonic} {mode : Mode} (op : Byte) (hm : m.modes.contains mode = true)
    (h : m ∈ [Mnemonic.clc, .sec, .cld, .sed, .cli, .sei, .clv]) : Runs m mode op := by
  simp only [List.mem_cons, List.not_mem_nil, or_false] at h
  rcases h with rfl | rfl | rfl | rfl | rfl | rfl | rfl
  · obtain rfl : mode = .imp := by simpa [Mnemonic.modes] using hm
    exact ⟨_, plain (mode := .imp) false 0 (fun r => r.setFlag .c false) (.quiet (fun _ _ => rfl) fun _ => rfl)
        (by decide), fun s => rfl⟩
  · obtain rfl : mode = .imp := by simpa [Mnemonic.modes] using hm
    exact ⟨_, plain (mode := .imp) false 0 (fun r => r.setFlag .c true) (.quiet (fun _ _ => rfl) fun _ => rfl)
        (by decide), fun s => rfl⟩
  · obtain rfl : mode = .imp := by simpa [Mnemonic.modes] using hm
    exact ⟨_, plain (mode := .imp) false 0 (fun r => r.setFlag .d false) (.quiet (fun _ _ => rfl) fun _ => rfl)
        (by decide), fun s => rfl⟩
  · obtain rfl : mode = .imp := by simpa [Mnemonic.modes] using hm
    exact ⟨_, plain (mode := .imp) false 0 (fun r => r.setFlag .d true) (.quiet (fun _ _ => rfl) fun _ => rfl)
        (by decide), fun s => rfl⟩
  · obtain rfl : mode = .imp := by simpa [Mnemonic.modes] using hm
    exact ⟨_, plain (mode := .imp) false 0 (fun r => r.setFlag .i false) (.quiet (fun _ _ => rfl) fun _ => rfl)
        (by decide), fun s => rfl⟩
  · obtain rfl : mode = .imp := by simpa [Mnemonic.modes] using hm
    exact ⟨_, plain (mode := .imp) false 0 (fun r => r.setFlag .i true) (.quiet (fun _ _ => rfl) fun _ => rfl)
        (by decide), fun s => rfl⟩
  · obtain rfl : mode = .imp := by simpa [Mnemonic.modes] using hm
    exact ⟨_, plain (mode := .imp) false 0 (fun r => r.setFlag .v false) (.quiet (fun _ _ => rfl) fun _ => rfl)
        (by decide), fun s => rfl⟩

theorem runs_transfers {m : Mnemonic} {mode : Mode} (op : Byte) (hm : m.modes.contains mode = true)
    (h : m ∈ [Mnemonic.tax, .txa, .tay, .tya, .tsx, .txs]) : Runs m mode op := by
  simp only [List.mem_cons, List.not_mem_nil, or_false] at h
  rcases h with rfl | rfl | rfl | rfl | rfl | rfl
  · obtain rfl : mode = .imp := by simpa [Mnemonic.modes] using hm
    exact ⟨_, plain (mode := .imp) false 0 (fun r => (r.setX r.a).setZN r.a) (.quiet (fun _ _ => rfl) fun _ => rfl)
        (by decide), fun s => rfl⟩
  · obtain rfl : mode = .imp := by simpa [Mnemonic.modes] using hm
    exact ⟨_, plain (mode := .imp) false 0 (fun r => (r.setA r.x).setZN r.x) (.quiet (fun _ _ => rfl) fun _ => rfl)
        (by decide), fun s => rfl⟩
  · obtain rfl : mode = .imp := by simpa [Mnemonic.modes] using hm
    exact ⟨_, plain (mode := .imp) false 0 (fun r => (r.setY r.a).setZN r.a) (.quiet (fun _ _ => rfl) fun _ => rfl)
        (by decide), fun s => rfl⟩
  · obtain rfl : mode = .imp := by simpa [Mnemonic.modes] using hm
    exact ⟨_, plain (mode := .imp) false 0 (fun r => (r.setA r.y).setZN r.y) (.quiet (fun _ _ => rfl) fun _ => rfl)
        (by decide), fun s => rfl⟩
  · obtain rfl : mode = .imp := by simpa [Mnemonic.modes] using hm
    exact ⟨_, plain (mode := .imp) false 0 (fun r => (r.setX r.sp).setZN r.sp) (.quiet
        (fun _ _ => rfl) fun _ => rfl) (by decide), fun s => rfl⟩
  · obtain rfl : mode = .imp := by simpa [Mnemonic.modes] using hm
    exact ⟨_, plain (mode := .imp) false 0 (fun r => r.setSp r.x) (.quiet (fun _ _ => rfl) fun _ => rfl)
        (by decide), fun s => rfl⟩

/-- The instruction with an opcode byte and the operand bytes the bus answers makes at most four reads more. -/
theorem exec_follows (op : Byte) : ∃ f : State → State, Follows 4 f ∧
    ∀ s, exec (instrOf op (s.answerAt 0 s.pc) (s.answerAt 1 (s.pc + 1))) s = .next (f s) := by
  have h : ∀ m mode, m.modes.contains mode = true → Runs m mode op := by
    intro m mode hm
    cases m
    case lda => exact runs_loads op hm (by decide)
    case ldx => exact runs_loads op hm (by decide)
    case ldy => exact runs_loads op hm (by decide)
    case sta => exact runs_loads op hm (by decide)
    case stx => exact runs_loads op hm (by decide)
    case sty => exact runs_loads op hm (by decide)
    case adc => exact runs_arithmetic op hm (by decide)
    case sbc => exact runs_arithmetic op hm (by decide)
    case and => exact runs_arithmetic op hm (by decide)
    case ora => exact runs_arithmetic op hm (by decide)
    case eor => exact runs_arithmetic op hm (by decide)
    case bit => exact runs_arithmetic op hm (by decide)
    case asl => exact runs_shifts op hm (by decide)
    case lsr => exact runs_shifts op hm (by decide)
    case rol => exact runs_shifts op hm (by decide)
    case ror => exact runs_shifts op hm (by decide)
    case inc => exact runs_shifts op hm (by decide)
    case dec => exact runs_shifts op hm (by decide)
    case cmp => exact runs_compares op hm (by decide)
    case cpx => exact runs_compares op hm (by decide)
    case cpy => exact runs_compares op hm (by decide)
    case inx => exact runs_compares op hm (by decide)
    case iny => exact runs_compares op hm (by decide)
    case dex => exact runs_compares op hm (by decide)
    case dey => exact runs_compares op hm (by decide)
    case bcc => exact runs_branches op hm (by decide)
    case bcs => exact runs_branches op hm (by decide)
    case beq => exact runs_branches op hm (by decide)
    case bne => exact runs_branches op hm (by decide)
    case bmi => exact runs_branches op hm (by decide)
    case bpl => exact runs_branches op hm (by decide)
    case bvc => exact runs_branches op hm (by decide)
    case bvs => exact runs_branches op hm (by decide)
    case jmp => exact runs_jumps op hm (by decide)
    case jsr => exact runs_jumps op hm (by decide)
    case rts => exact runs_jumps op hm (by decide)
    case brk => exact runs_jumps op hm (by decide)
    case rti => exact runs_jumps op hm (by decide)
    case nop => exact runs_jumps op hm (by decide)
    case ill => exact runs_jumps op hm (by decide)
    case pha => exact runs_stack op hm (by decide)
    case php => exact runs_stack op hm (by decide)
    case pla => exact runs_stack op hm (by decide)
    case plp => exact runs_stack op hm (by decide)
    case clc => exact runs_flags op hm (by decide)
    case sec => exact runs_flags op hm (by decide)
    case cld => exact runs_flags op hm (by decide)
    case sed => exact runs_flags op hm (by decide)
    case cli => exact runs_flags op hm (by decide)
    case sei => exact runs_flags op hm (by decide)
    case clv => exact runs_flags op hm (by decide)
    case tax => exact runs_transfers op hm (by decide)
    case txa => exact runs_transfers op hm (by decide)
    case tay => exact runs_transfers op hm (by decide)
    case tya => exact runs_transfers op hm (by decide)
    case tsx => exact runs_transfers op hm (by decide)
    case txs => exact runs_transfers op hm (by decide)
  exact h _ _ (descriptor_mode_mem op)

/-- The opcode fetch, and what is done with the opcode (30_encoding.md R70). -/
theorem opcode_follows {n : Nat} {f : Byte → State → State} (hf : ∀ op, Follows n (f op)) :
    Follows (n + 1) fun s => f (s.answerAt 0 s.pc) (beginInstr s) := by
  let load (op : Byte) (s : State) : State :=
    (((((s.setOpcode op).setPc (s.pc + 1)).setFetched 0).setAddrAbs 0).setAddrRel 0).setCycles (baseCycles op)
  have hload : ∀ op s l, load op (s.setAnswers l) = (load op s).setAnswers l := fun op s l => by
    simp only [load, State.setOpcode, State.setPc, State.setFetched, State.setAddrAbs, State.setAddrRel,
      State.setCycles, State.setAnswers]
  have e : (fun s => f (s.answerAt 0 s.pc) (beginInstr s)) =
      fun s => f (s.answerAt 0 s.pc) (load (s.answerAt 0 s.pc) (s.noteRead s.pc)) := by
    funext s
    simp only [beginInstr, load, State.noteRead_pc]
  rw [e]
  exact Follows.read (k := fun op s => f op (load op s)) (fun _ _ => by simp) fun op =>
    Follows.prepare (ι := Unit) (k := fun _ => f op) (c := fun _ => ()) (f := load op) (fun _ => hf op)
      (fun _ _ => rfl) (hload op) fun _ => by simp [load]

/-- The instruction a boundary runs, with the answers given. -/
theorem step_exec_answers {f : Byte → State → State}
    (he : ∀ op s, exec (instrOf op (s.answerAt 0 s.pc) (s.answerAt 1 (s.pc + 1))) s = .next (f op s))
    {s : State} (hc : s.cycles = 0) (hn : s.nmiPending = false) (hq : (s.irqPending && !s.flag .i) = false)
    (l : List Byte) :
    step (s.setAnswers l) = .next (countDown (f ((((s.setBus []).setIrq false).setAnswers l).answerAt 0 s.pc)
      (beginInstr (((s.setBus []).setIrq false).setAnswers l)))) := by
  have o : ((s.setAnswers l).setBus []).setIrq false = ((s.setBus []).setIrq false).setAnswers l := by
    simp only [State.setAnswers, State.setBus, State.setIrq]
  have e := he ((s.setAnswers l).answerAt 0 s.pc) (beginInstr (((s.setBus []).setIrq false).setAnswers l))
  have i : (s.setAnswers l).nextInstr = instrOf ((s.setAnswers l).answerAt 0 s.pc)
      ((beginInstr (((s.setBus []).setIrq false).setAnswers l)).answerAt 0
        (beginInstr (((s.setBus []).setIrq false).setAnswers l)).pc)
      ((beginInstr (((s.setBus []).setIrq false).setAnswers l)).answerAt 1
        ((beginInstr (((s.setBus []).setIrq false).setAnswers l)).pc + 1)) := by
    simp [State.nextInstr, BitVec.add_assoc]
  rw [← i, ← o] at e
  rw [step_exec (s := s.setAnswers l) hc hn hq e, o]
  simp

/-- One tick makes at most five reads, each at an address that the bytes read before it decide. -/
theorem step_follows (s : State) : ∃ σ : Script, σ.AtMost 5 ∧ ∀ l,
    step (s.setAnswers l) = .next ((σ.leaf l).1.setAnswers (σ.leaf l).2) ∧ (σ.leaf l).1.bus = σ.calls l := by
  have run : ∀ (n : Nat) (f : State → State) (u : State), Follows n f → n ≤ 5 → u.bus = [] →
      (∀ l, step (s.setAnswers l) = .next (countDown (f (u.setAnswers l)))) → ∃ σ : Script, σ.AtMost 5 ∧ ∀ l,
      step (s.setAnswers l) = .next ((σ.leaf l).1.setAnswers (σ.leaf l).2) ∧ (σ.leaf l).1.bus = σ.calls l := by
    intro n f u hf hn hb e
    obtain ⟨σ, hσ, h⟩ :=
      (hf.comp (.quiet (f := countDown) (fun _ _ => rfl) fun _ => rfl) : Follows (n + 0) fun s => countDown (f s)) u
    exact ⟨σ, hσ.mono (by omega), fun l => ⟨by rw [e]; exact congrArg _ (h l).1, by rw [(h l).2, hb, List.nil_append]⟩⟩
  by_cases hc : s.cycles = 0
  · cases hn : s.nmiPending
    · cases hq : s.irqPending && !s.flag .i
      · choose f hf he using exec_follows
        refine run 5 (fun u => f (u.answerAt 0 u.pc) (beginInstr u)) ((s.setBus []).setIrq false) ?_ (le_refl 5) rfl
          fun l => ?_
        · exact opcode_follows hf
        · exact step_exec_answers he hc hn hq l
      · simp only [Bool.and_eq_true, Bool.not_eq_true'] at hq
        exact run 2 takeIrq (s.setBus []) ((Follows.quiet (f := fun s => s.setIrq false)
            (fun _ _ => rfl) fun _ => rfl).comp
          (interruptEntry_follows _ _ _)) (by omega) rfl fun l => step_irq hc hn hq.1 hq.2
    · exact run 2 takeNmi (s.setBus []) ((Follows.quiet (f := fun s => s.setNmi false)
        (fun _ _ => rfl) fun _ => rfl).comp
        (interruptEntry_follows _ _ _)) (by omega) rfl fun l => step_nmi hc hn
  · exact run 0 (fun s => s) (s.setBus []) (.quiet (fun _ _ => rfl) fun _ => rfl) (by omega) rfl fun l => step_idle hc

/-- Asking round after round settles the answers of a script, one more read each round. -/
theorem settle_eq {σ : Script} {k : Nat} (hσ : σ.AtMost (k + 1)) {run : List Byte → Result}
    (h : ∀ l, callsOf (run l) = σ.calls l) (B : Bus) (c : B.Carrier) :
    B.settle c run (k + 1) = (σ.onBus B c).1 := by
  have rounds : ∀ j, (B.settle c run j).take j = (σ.onBus B c).1.take j := by
    intro j
    induction j with
    | zero => rfl
    | succ j ih => rw [Bus.settle, h]; exact σ.serve_take B c _ j ih
  rw [Bus.settle, h]
  exact Script.serve_all hσ B c _ (rounds k)

end Sys2Proof.Machine
end

