-- ==== Sys2Proof/Laws/PerInstr.lean ====
section
/-! SUPPORT. The per-instruction family of LAWS.json: the encoding of a well-formed instruction has the instruction's
length, which is 1, 2 or 3 bytes (30_encoding.md R60, 40_addressing_modes.md R98). -/

namespace Sys2Proof.Laws.EncodeLength

/-- A well-formed instruction is encoded in as many bytes as R60 gives its mode. -/
def Statement (i : Instr) : Prop :=
  i.wellFormed = true → (encode i).length = i.length ∧ 1 ≤ i.length ∧ i.length ≤ 3

theorem length_bounds (i : Instr) : 1 ≤ i.length ∧ i.length ≤ 3 := by
  have := Mode.operandBytes_le i.operand.mode
  unfold Instr.length
  omega

/-- An instruction with an opcode is encoded in its length. -/
theorem of_opcode {i : Instr} {op : Byte} (h : opcodeOf i = some op) :
    (encode i).length = i.length ∧ 1 ≤ i.length ∧ i.length ≤ 3 := by
  refine ⟨?_, length_bounds i⟩
  simp only [encode, h, List.length_cons, operandBytesOf_length, Instr.length]
  omega

theorem lda (o : Operand) : Statement (.lda o) := by
  intro h
  cases o <;> first | exact of_opcode rfl | exact Bool.noConfusion h

theorem ldx (o : Operand) : Statement (.ldx o) := by
  intro h
  cases o <;> first | exact of_opcode rfl | exact Bool.noConfusion h

theorem ldy (o : Operand) : Statement (.ldy o) := by
  intro h
  cases o <;> first | exact of_opcode rfl | exact Bool.noConfusion h

theorem sta (o : Operand) : Statement (.sta o) := by
  intro h
  cases o <;> first | exact of_opcode rfl | exact Bool.noConfusion h

theorem stx (o : Operand) : Statement (.stx o) := by
  intro h
  cases o <;> first | exact of_opcode rfl | exact Bool.noConfusion h

theorem sty (o : Operand) : Statement (.sty o) := by
  intro h
  cases o <;> first | exact of_opcode rfl | exact Bool.noConfusion h

theorem adc (o : Operand) : Statement (.adc o) := by
  intro h
  cases o <;> first | exact of_opcode rfl | exact Bool.noConfusion h

theorem sbc (o : Operand) : Statement (.sbc o) := by
  intro h
  cases o <;> first | exact of_opcode rfl | exact Bool.noConfusion h

theorem and (o : Operand) : Statement (.and o) := by
  intro h
  cases o <;> first | exact of_opcode rfl | exact Bool.noConfusion h

theorem ora (o : Operand) : Statement (.ora o) := by
  intro h
  cases o <;> first | exact of_opcode rfl | exact Bool.noConfusion h

theorem eor (o : Operand) : Statement (.eor o) := by
  intro h
  cases o <;> first | exact of_opcode rfl | exact Bool.noConfusion h

theorem bit (o : Operand) : Statement (.bit o) := by
  intro h
  cases o <;> first | exact of_opcode rfl | exact Bool.noConfusion h

theorem asl (o : Operand) : Statement (.asl o) := by
  intro h
  cases o <;> first | exact of_opcode rfl | exact Bool.noConfusion h

theorem lsr (o : Operand) : Statement (.lsr o) := by
  intro h
  cases o <;> first | exact of_opcode rfl | exact Bool.noConfusion h

theorem rol (o : Operand) : Statement (.rol o) := by
  intro h
  cases o <;> first | exact of_opcode rfl | exact Bool.noConfusion h

theorem ror (o : Operand) : Statement (.ror o) := by
  intro h
  cases o <;> first | exact of_opcode rfl | exact Bool.noConfusion h

theorem inc (o : Operand) : Statement (.inc o) := by
  intro h
  cases o <;> first | exact of_opcode rfl | exact Bool.noConfusion h

theorem dec (o : Operand) : Statement (.dec o) := by
  intro h
  cases o <;> first | exact of_opcode rfl | exact Bool.noConfusion h

theorem inx : Statement .inx := fun _ => of_opcode rfl

theorem iny : Statement .iny := fun _ => of_opcode rfl

theorem dex : Statement .dex := fun _ => of_opcode rfl

theorem dey : Statement .dey := fun _ => of_opcode rfl

theorem cmp (o : Operand) : Statement (.cmp o) := by
  intro h
  cases o <;> first | exact of_opcode rfl | exact Bool.noConfusion h

theorem cpx (o : Operand) : Statement (.cpx o) := by
  intro h
  cases o <;> first | exact of_opcode rfl | exact Bool.noConfusion h

theorem cpy (o : Operand) : Statement (.cpy o) := by
  intro h
  cases o <;> first | exact of_opcode rfl | exact Bool.noConfusion h

theorem bcc (d : Byte) : Statement (.bcc d) := fun _ => of_opcode rfl

theorem bcs (d : Byte) : Statement (.bcs d) := fun _ => of_opcode rfl

theorem beq (d : Byte) : Statement (.beq d) := fun _ => of_opcode rfl

theorem bne (d : Byte) : Statement (.bne d) := fun _ => of_opcode rfl

theorem bmi (d : Byte) : Statement (.bmi d) := fun _ => of_opcode rfl

theorem bpl (d : Byte) : Statement (.bpl d) := fun _ => of_opcode rfl

theorem bvc (d : Byte) : Statement (.bvc d) := fun _ => of_opcode rfl

theorem bvs (d : Byte) : Statement (.bvs d) := fun _ => of_opcode rfl

theorem jmp (o : Operand) : Statement (.jmp o) := by
  intro h
  cases o <;> first | exact of_opcode rfl | exact Bool.noConfusion h

theorem jsr (t : Addr) : Statement (.jsr t) := fun _ => of_opcode rfl

theorem rts : Statement .rts := fun _ => of_opcode rfl

theorem pha : Statement .pha := fun _ => of_opcode rfl

theorem php : Statement .php := fun _ => of_opcode rfl

theorem pla : Statement .pla := fun _ => of_opcode rfl

theorem plp : Statement .plp := fun _ => of_opcode rfl

theorem clc : Statement .clc := fun _ => of_opcode rfl

theorem sec : Statement .sec := fun _ => of_opcode rfl

theorem cld : Statement .cld := fun _ => of_opcode rfl

theorem sed : Statement .sed := fun _ => of_opcode rfl

theorem cli : Statement .cli := fun _ => of_opcode rfl

theorem sei : Statement .sei := fun _ => of_opcode rfl

theorem clv : Statement .clv := fun _ => of_opcode rfl

theorem tax : Statement .tax := fun _ => of_opcode rfl

theorem txa : Statement .txa := fun _ => of_opcode rfl

theorem tay : Statement .tay := fun _ => of_opcode rfl

theorem tya : Statement .tya := fun _ => of_opcode rfl

theorem tsx : Statement .tsx := fun _ => of_opcode rfl

theorem txs : Statement .txs := fun _ => of_opcode rfl

theorem brk : Statement .brk := fun _ => of_opcode rfl

theorem rti : Statement .rti := fun _ => of_opcode rfl

theorem nop : Statement .nop := fun _ => of_opcode rfl

theorem ill (op : Byte) : Statement (.ill op) := fun _ => of_opcode rfl

end Sys2Proof.Laws.EncodeLength
end

