-- ==== Sys2Proof/Tests/Slice0.lean ====
section
/-! SUPPORT. The model's own tests. The expected values of the step tests are those of the rows of
95_test_vectors.md that the test names carry (V-LS8 is `ls8`); the words of the decode tests are written out from
30_encoding.md R62 and R66. The last part gives, for every statement with hypotheses, a state that meets them. -/

namespace Sys2Proof.Tests

open Sys2Proof Sys2Proof.Machine

set_option Elab.async false

/-! ### Helpers -/

/-- Bytes at listed addresses. -/
def place (m : Memory) (data : List (Addr × Byte)) : Memory :=
  match data with
  | [] => m
  | (a, v) :: rest => place (m.write a.toNat v) rest

/-- The base state of 95_test_vectors.md: registers 0, SP 0xFD, P 0x20, at a boundary, code at an address. -/
def boot (pc : Addr) (code : List Byte) (data : List (Addr × Byte)) : State :=
  { State.reset with pc := pc, cycles := 0, bus := [], mem := Memory.load (place [] data) pc code }

/-- The answer is a next state that passes a check. -/
def after (r : Result) (check : State → Bool) : Bool :=
  match r with
  | .next t => check t
  | .fault _ => false
  | .refused _ => false

/-- The state of an answer that is known to be a next state. -/
def nextOf (r : Result) : State :=
  match r with
  | .next t => t
  | .fault _ => State.reset
  | .refused _ => State.reset

theorem next_of_after {r : Result} (h : after r (fun _ => true) = true) : r = .next (nextOf r) := by
  cases r with
  | next t => rfl
  | fault f => exact Bool.noConfusion h
  | refused f => exact Bool.noConfusion h

/-! ### WellFormed: each check refuses an ill-formed term -/

/-- The mode check: STA has no Immediate form (R67). -/
theorem test_wf_sta_imm : (Instr.sta (.imm 0x10)).modeOk = false ∧ (Instr.sta (.imm 0x10)).wellFormed = false := by
  decide

/-- The mode check: INC has no Implied form (R67). -/
theorem test_wf_inc_imp : (Instr.inc .imp).wellFormed = false := by decide

/-- The illegal-byte check: 0xA9 is documented, so it is no illegal byte (R68). -/
theorem test_wf_ill_documented :
    (Instr.ill 0xA9).modeOk = true ∧ (Instr.ill 0xA9).illegalOk = false ∧ (Instr.ill 0xA9).wellFormed = false := by
  decide

theorem test_wf_accepts :
    (Instr.lda (.izy 0xFF)).wellFormed = true ∧ (Instr.ror .imp).wellFormed = true ∧
      (Instr.ill 0xEB).wellFormed = true := by
  decide

/-! ### Decoding: words written out from R62 and R66 -/

theorem test_decode_loads_stores :
    decodeTableWord 16 0x86B1 = some (.lda (.izy 0x86)) ∧ decodeTableWord 16 0xFEA1 = some (.lda (.izx 0xFE)) ∧
    decodeTableWord 24 0x1234BE = some (.ldx (.aby 0x1234)) ∧ decodeTableWord 16 0x10A0 = some (.ldy (.imm 0x10)) ∧
    decodeTableWord 24 0x12349D = some (.sta (.abx 0x1234)) ∧ decodeTableWord 16 0xFF96 = some (.stx (.zpy 0xFF)) ∧
    decodeTableWord 16 0x0194 = some (.sty (.zpx 0x01)) := by decide +kernel

theorem test_decode_arithmetic :
    decodeTableWord 16 0x8069 = some (.adc (.imm 0x80)) ∧ decodeTableWord 24 0x12F0FD = some (.sbc (.abx 0x12F0)) ∧
    decodeTableWord 16 0x1035 = some (.and (.zpx 0x10)) ∧ decodeTableWord 24 0x000119 = some (.ora (.aby 0x0001)) ∧
    decodeTableWord 16 0x4551 = some (.eor (.izy 0x45)) ∧ decodeTableWord 24 0x80002C = some (.bit (.abs 0x8000)) := by
  decide +kernel

theorem test_decode_shifts_counts :
    decodeTableWord 8 0x0A = some (.asl .imp) ∧ decodeTableWord 16 0x0146 = some (.lsr (.zp0 0x01)) ∧
    decodeTableWord 24 0x02003E = some (.rol (.abx 0x0200)) ∧ decodeTableWord 24 0x00026E = some (.ror (.abs 0x0002)) ∧
    decodeTableWord 16 0xF0F6 = some (.inc (.zpx 0xF0)) ∧ decodeTableWord 24 0x0200CE = some (.dec (.abs 0x0200)) ∧
    decodeTableWord 8 0xE8 = some .inx ∧ decodeTableWord 8 0xC8 = some .iny ∧
    decodeTableWord 8 0xCA = some .dex ∧ decodeTableWord 8 0x88 = some .dey ∧
    decodeTableWord 16 0x30C9 = some (.cmp (.imm 0x30)) ∧ decodeTableWord 16 0x10E4 = some (.cpx (.zp0 0x10)) ∧
    decodeTableWord 24 0x0200CC = some (.cpy (.abs 0x0200)) := by decide +kernel

theorem test_decode_branches_jumps :
    decodeTableWord 16 0x0590 = some (.bcc 0x05) ∧ decodeTableWord 16 0x05B0 = some (.bcs 0x05) ∧
    decodeTableWord 16 0xFEF0 = some (.beq 0xFE) ∧ decodeTableWord 16 0xFBD0 = some (.bne 0xFB) ∧
    decodeTableWord 16 0x1030 = some (.bmi 0x10) ∧ decodeTableWord 16 0x8010 = some (.bpl 0x80) ∧
    decodeTableWord 16 0x7F50 = some (.bvc 0x7F) ∧ decodeTableWord 16 0x0570 = some (.bvs 0x05) ∧
    decodeTableWord 24 0x12344C = some (.jmp (.abs 0x1234)) ∧ decodeTableWord 24 0x30FF6C = some (.jmp (.ind 0x30FF)) ∧
    decodeTableWord 24 0x123420 = some (.jsr 0x1234) ∧ decodeTableWord 8 0x60 = some .rts := by decide +kernel

theorem test_decode_stack_flags_transfers :
    decodeTableWord 8 0x48 = some .pha ∧ decodeTableWord 8 0x08 = some .php ∧ decodeTableWord 8 0x68 = some .pla ∧
    decodeTableWord 8 0x28 = some .plp ∧ decodeTableWord 8 0x18 = some .clc ∧ decodeTableWord 8 0x38 = some .sec ∧
    decodeTableWord 8 0xD8 = some .cld ∧ decodeTableWord 8 0xF8 = some .sed ∧ decodeTableWord 8 0x58 = some .cli ∧
    decodeTableWord 8 0x78 = some .sei ∧ decodeTableWord 8 0xB8 = some .clv ∧ decodeTableWord 8 0xAA = some .tax ∧
    decodeTableWord 8 0x8A = some .txa ∧ decodeTableWord 8 0xA8 = some .tay ∧ decodeTableWord 8 0x98 = some .tya ∧
    decodeTableWord 8 0xBA = some .tsx ∧ decodeTableWord 8 0x9A = some .txs := by decide +kernel

theorem test_decode_system :
    decodeTableWord 8 0x00 = some .brk ∧ decodeTableWord 8 0x40 = some .rti ∧ decodeTableWord 8 0xEA = some .nop ∧
    decodeTableWord 8 0x02 = some (.ill 0x02) ∧ decodeTableWord 8 0xEB = some (.ill 0xEB) := by decide +kernel

/-- Bits above `nbits` are zeros: the operand bytes of a word given with 8 bits. -/
theorem test_decode_short_word : decodeTableWord 8 0x20 = some (.jsr 0x0000) := by decide +kernel

/-- A list that ends inside an instruction is rejected by name. -/
theorem test_decode_truncated :
    decode [] = .error .noOpcode ∧ decode [0x20, 0x34] = .error (.missingOperand 0x20) := ⟨rfl, rfl⟩

/-! ### Reset and memory -/

/-- The state after `reset()` on empty memory (R230). -/
theorem test_reset_on_empty_memory : hostReset { State.reset with a := 0x11, pc := 0x5555, cycles := 3 } = State.reset := by
  decide +kernel

theorem test_reset_memory_canonical : State.reset.mem.wf = true := by decide

/-- V-RS1: the vector word, SP, P and the latency. -/
theorem test_reset_rs1 :
    (hostReset { boot 0x5555 [] [(0xFFFC, 0x34), (0xFFFD, 0x12)] with a := 0x11, p := 0xFF, irqPending := true }).pc
      = 0x1234 := by decide +kernel

/-- Writing what an unlisted address reads as removes the entry. -/
theorem test_memory_write_zero : Memory.write [(0x10, 0x55), (0x20, 0x66)] 0x10 0x00 = [(0x20, 0x66)] := by decide

theorem test_memory_write_order : Memory.write [(0x10, 0x55)] 0x0F 0x01 = [(0x0F, 0x01), (0x10, 0x55)] := by decide

/-- The very next step runs the word that `withFetchWord` places (log entry 4). -/
theorem test_withFetchWord_runs :
    after (step (State.reset.withFetchWord 16 0x10A9)) (fun t => t.a == 0x10 && t.pc == 0x0002) = true := by
  decide +kernel

/-- V-IN1 and V-IN3: IRQ and NMI entry. -/
theorem test_irq_in1 :
    after (step { boot 0x8000 [0xEA] [(0xFFFF, 0x90)] with p := 0x63, irqPending := true })
      (fun t => t.sp == 0xFA && t.p == 0x47 && t.pc == 0x9000 && t.cycles == 6 && t.peek 0x01FD == 0x80 &&
        t.peek 0x01FC == 0x00 && t.peek 0x01FB == 0x63) = true := by decide +kernel

theorem test_nmi_in3 :
    after (step { boot 0x8000 [0xEA] [(0xFFFB, 0xA0)] with p := 0xA5, nmiPending := true })
      (fun t => t.sp == 0xFA && t.p == 0x85 && t.pc == 0xA000 && t.cycles == 7 && t.peek 0x01FB == 0xA5) = true := by
  decide +kernel

/-! ### The bus: answers given as data, and a bus given as a parameter (20_memory.md R40, R41, R46) -/

/-- A device answers the four reads of LDA abs, and memory, which holds other bytes there, does not. -/
theorem test_bus_answers :
    after (step { boot 0x8000 [0xEA, 0xEA] [(0x2000, 0x11)] with answers := [0xAD, 0x00, 0x20, 0x99, 0x77] })
      (fun t => t.a == 0x99 && t.pc == 0x8003 && t.answers == [0x77] &&
        t.bus == [.read 0x8000 0xAD, .read 0x8001 0x00, .read 0x8002 0x20, .read 0x2000 0x99]) = true := by
  decide +kernel

/-- A bus each of whose reads answers one more than the read before, whatever the address; writes are lost. -/
def countingBus : Bus where
  Carrier := Byte
  read c _ := (c, c + 1)
  write c _ _ := c

/-- INC zp0 on that bus: the opcode 0xE6, the operand 0xE7, the value 0xE8 are its answers, and 0xE9 is written. -/
theorem test_bus_counting :
    (match stepOn countingBus (0xE6 : Byte) (boot 0x8000 [] []) with
      | .next (t, c) => t.bus == [.read 0x8000 0xE6, .read 0x8001 0xE7, .read 0x00E7 0xE8, .write 0x00E7 0xE9] &&
          (let d : Byte := c; d == 0xE9)
      | .fault _ => false
      | .refused _ => false) = true := by decide +kernel

/-- reset() on that bus: the vector word is made of its two answers, low byte first. -/
theorem test_bus_reset :
    (match resetOn countingBus (0x34 : Byte) (.unreset [] []) with
      | .next (t, c) => t.pc == 0x3534 && (let d : Byte := c; d == 0x36)
      | .fault _ => false
      | .refused _ => false) = true := by decide +kernel

/-! ### One step of each instruction -/

theorem test_lda_ls8 :
    after (step { boot 0x8000 [0xB9, 0x80, 0xFF] [(0x0000, 0x11)] with y := 0x80 })
      (fun t => t.a == 0x11 && t.p == 0x20 && t.pc == 0x8003 && t.cycles == 4) = true := by decide +kernel

theorem test_lda_ls9 :
    after (step { boot 0x8000 [0xA1, 0xFE] [(0x0000, 0x12), (0x00FF, 0x34), (0x0100, 0xEE), (0x1234, 0xAB)] with x := 0x01 })
      (fun t => t.a == 0xAB && t.p == 0xA0 && t.pc == 0x8002 && t.cycles == 5) = true := by decide +kernel

theorem test_ldx_ls13 :
    after (step { boot 0x8000 [0xB6, 0xF0] [(0x0010, 0x05)] with y := 0x20 })
      (fun t => t.x == 0x05 && t.p == 0x20 && t.pc == 0x8002 && t.cycles == 3) = true := by decide +kernel

theorem test_ldx_ls14 :
    after (step { boot 0x8000 [0xBE, 0xFF, 0x00] [(0x0100, 0x00)] with y := 0x01 })
      (fun t => t.p == 0x22 && t.pc == 0x8003 && t.cycles == 4) = true := by decide +kernel

theorem test_ldy_ls15 :
    after (step { boot 0x8000 [0xA0, 0x01] [] with p := 0xA2 })
      (fun t => t.y == 0x01 && t.p == 0x20 && t.pc == 0x8002 && t.cycles == 1) = true := by decide +kernel

theorem test_ldy_ls16 :
    after (step { boot 0x8000 [0xBC, 0xFF, 0x00] [(0x0100, 0x80)] with x := 0x01 })
      (fun t => t.y == 0x80 && t.p == 0xA0 && t.pc == 0x8003 && t.cycles == 4) = true := by decide +kernel

theorem test_sta_ls18 :
    after (step { boot 0x8000 [0x9D, 0xFF, 0x00] [] with a := 0x5A, x := 0x01 })
      (fun t => t.p == 0x20 && t.pc == 0x8003 && t.peek 0x0100 == 0x5A && t.cycles == 4) = true := by decide +kernel

theorem test_sta_ls21 :
    after (step { boot 0x8000 [0x91, 0x10] [(0x0010, 0x01), (0x0011, 0x03)] with a := 0xA5, y := 0xFF })
      (fun t => t.p == 0x20 && t.pc == 0x8002 && t.peek 0x0400 == 0xA5 && t.cycles == 5) = true := by decide +kernel

theorem test_stx_ls22 :
    after (step { boot 0x8000 [0x86, 0x10] [] with x := 0x80 })
      (fun t => t.p == 0x20 && t.pc == 0x8002 && t.peek 0x0010 == 0x80 && t.cycles == 2) = true := by decide +kernel

theorem test_stx_ls23 :
    after (step { boot 0x8000 [0x96, 0xFF] [] with x := 0x77, y := 0x02 })
      (fun t => t.p == 0x20 && t.pc == 0x8002 && t.peek 0x0001 == 0x77 && t.cycles == 3) = true := by decide +kernel

theorem test_sty_ls24 :
    after (step { boot 0x8000 [0x8C, 0x34, 0x12] [] with y := 0x99 })
      (fun t => t.p == 0x20 && t.pc == 0x8003 && t.peek 0x1234 == 0x99 && t.cycles == 3) = true := by decide +kernel

theorem test_sty_ls25 :
    after (step { boot 0x8000 [0x94, 0x10] [] with x := 0x01, y := 0x99 })
      (fun t => t.p == 0x20 && t.pc == 0x8002 && t.peek 0x0011 == 0x99 && t.cycles == 3) = true := by decide +kernel

theorem test_adc_ar4 :
    after (step { boot 0x8000 [0x69, 0x00] [] with a := 0x7F, p := 0x21 })
      (fun t => t.a == 0x80 && t.p == 0xE0 && t.pc == 0x8002 && t.cycles == 1) = true := by decide +kernel

theorem test_adc_ar6 :
    after (step { boot 0x8000 [0x69, 0xFF] [] with a := 0xFF, p := 0x21 })
      (fun t => t.p == 0xA1 && t.pc == 0x8002 && t.cycles == 1) = true := by decide +kernel

theorem test_sbc_ar11 :
    after (step { boot 0x8000 [0xE9, 0xB0] [] with a := 0x50, p := 0x21 })
      (fun t => t.a == 0xA0 && t.p == 0xE0 && t.pc == 0x8002 && t.cycles == 1) = true := by decide +kernel

theorem test_sbc_ar16 :
    after (step { boot 0x8000 [0xE9, 0x10] [] with a := 0x50, p := 0x20 })
      (fun t => t.a == 0x3F && t.p == 0x21 && t.pc == 0x8002 && t.cycles == 1) = true := by decide +kernel

theorem test_and_ar19 :
    after (step { boot 0x8000 [0x29, 0xF0] [] with a := 0xF1 })
      (fun t => t.a == 0xF0 && t.p == 0xA0 && t.pc == 0x8002 && t.cycles == 1) = true := by decide +kernel

theorem test_ora_ar20 :
    after (step { boot 0x8000 [0x09, 0x80] [] with a := 0x01 })
      (fun t => t.a == 0x81 && t.p == 0xA0 && t.pc == 0x8002 && t.cycles == 1) = true := by decide +kernel

theorem test_ora_ar21 :
    after (step { boot 0x8000 [0x09, 0x00] [] with a := 0x00, p := 0xA0 })
      (fun t => t.p == 0x22 && t.pc == 0x8002 && t.cycles == 1) = true := by decide +kernel

theorem test_eor_ar23 :
    after (step { boot 0x8000 [0x49, 0x0F] [] with a := 0xF0 })
      (fun t => t.a == 0xFF && t.p == 0xA0 && t.pc == 0x8002 && t.cycles == 1) = true := by decide +kernel

theorem test_bit_ar24 :
    after (step { boot 0x8000 [0x24, 0x10] [(0x0010, 0xC0)] with a := 0x01 })
      (fun t => t.p == 0xE2 && t.pc == 0x8002 && t.cycles == 2) = true := by decide +kernel

theorem test_bit_ar25 :
    after (step { boot 0x8000 [0x2C, 0x00, 0x02] [(0x0200, 0x3F)] with a := 0xFF, p := 0xE0 })
      (fun t => t.p == 0x20 && t.pc == 0x8003 && t.cycles == 3) = true := by decide +kernel

theorem test_asl_sh1 :
    after (step { boot 0x8000 [0x0A] [] with a := 0x81 })
      (fun t => t.a == 0x02 && t.p == 0x21 && t.pc == 0x8001 && t.cycles == 1) = true := by decide +kernel

theorem test_asl_sh4 :
    after (step { boot 0x8000 [0x1E, 0xFF, 0x00] [(0x0100, 0x40)] with x := 0x01 })
      (fun t => t.p == 0xA0 && t.pc == 0x8003 && t.peek 0x0100 == 0x80 && t.cycles == 6) = true := by decide +kernel

theorem test_lsr_sh5 :
    after (step { boot 0x8000 [0x4A] [] with a := 0xFF, p := 0xA1 })
      (fun t => t.a == 0x7F && t.p == 0x21 && t.pc == 0x8001 && t.cycles == 1) = true := by decide +kernel

theorem test_lsr_sh7 :
    after (step (boot 0x8000 [0x4E, 0x00, 0x02] [(0x0200, 0x02)]))
      (fun t => t.p == 0x20 && t.pc == 0x8003 && t.peek 0x0200 == 0x01 && t.cycles == 5) = true := by decide +kernel

theorem test_rol_sh8 :
    after (step { boot 0x8000 [0x2A] [] with a := 0x40, p := 0x21 })
      (fun t => t.a == 0x81 && t.p == 0xA0 && t.pc == 0x8001 && t.cycles == 1) = true := by decide +kernel

theorem test_rol_sh10 :
    after (step { boot 0x8000 [0x36, 0xF0] [(0x0010, 0x00)] with x := 0x20, p := 0x21 })
      (fun t => t.p == 0x20 && t.pc == 0x8002 && t.peek 0x0010 == 0x01 && t.cycles == 5) = true := by decide +kernel

theorem test_ror_sh11 :
    after (step { boot 0x8000 [0x6A] [] with a := 0x01, p := 0x21 })
      (fun t => t.a == 0x80 && t.p == 0xA1 && t.pc == 0x8001 && t.cycles == 1) = true := by decide +kernel

theorem test_ror_sh13 :
    after (step { boot 0x8000 [0x6E, 0x00, 0x02] [(0x0200, 0xFE)] with p := 0x21 })
      (fun t => t.p == 0xA0 && t.pc == 0x8003 && t.peek 0x0200 == 0xFF && t.cycles == 5) = true := by decide +kernel

theorem test_inc_id2 :
    after (step { boot 0x8000 [0xE6, 0x10] [(0x0010, 0x7F)] with p := 0x21 })
      (fun t => t.p == 0xA1 && t.pc == 0x8002 && t.peek 0x0010 == 0x80 && t.cycles == 4) = true := by decide +kernel

theorem test_inc_id3 :
    after (step { boot 0x8000 [0xFE, 0xFF, 0x01] [(0x0200, 0x00)] with x := 0x01 })
      (fun t => t.p == 0x20 && t.pc == 0x8003 && t.peek 0x0200 == 0x01 && t.cycles == 6) = true := by decide +kernel

theorem test_dec_id4 :
    after (step (boot 0x8000 [0xC6, 0x10] [(0x0010, 0x00)]))
      (fun t => t.p == 0xA0 && t.pc == 0x8002 && t.peek 0x0010 == 0xFF && t.cycles == 4) = true := by decide +kernel

theorem test_dec_id5 :
    after (step (boot 0x8000 [0xCE, 0x00, 0x02] [(0x0200, 0x01)]))
      (fun t => t.p == 0x22 && t.pc == 0x8003 && t.peek 0x0200 == 0x00 && t.cycles == 5) = true := by decide +kernel

theorem test_inx_id6 :
    after (step { boot 0x8000 [0xE8] [] with x := 0xFF })
      (fun t => t.x == 0x00 && t.p == 0x22 && t.pc == 0x8001 && t.cycles == 1) = true := by decide +kernel

theorem test_iny_id8 :
    after (step { boot 0x8000 [0xC8] [] with y := 0xFF })
      (fun t => t.y == 0x00 && t.p == 0x22 && t.pc == 0x8001 && t.cycles == 1) = true := by decide +kernel

theorem test_dex_id9 :
    after (step { boot 0x8000 [0xCA] [] with x := 0x00 })
      (fun t => t.x == 0xFF && t.p == 0xA0 && t.pc == 0x8001 && t.cycles == 1) = true := by decide +kernel

theorem test_dey_id11 :
    after (step { boot 0x8000 [0x88] [] with y := 0x00 })
      (fun t => t.y == 0xFF && t.p == 0xA0 && t.pc == 0x8001 && t.cycles == 1) = true := by decide +kernel

theorem test_cmp_id14 :
    after (step { boot 0x8000 [0xC9, 0x50] [] with a := 0x40 })
      (fun t => t.p == 0xA0 && t.pc == 0x8002 && t.cycles == 1) = true := by decide +kernel

theorem test_cmp_id17 :
    after (step { boot 0x8000 [0xD9, 0xFF, 0x00] [(0x0100, 0x01)] with a := 0x01, y := 0x01 })
      (fun t => t.p == 0x23 && t.pc == 0x8003 && t.cycles == 4) = true := by decide +kernel

theorem test_cpx_id18 :
    after (step { boot 0x8000 [0xE4, 0x10] [(0x0010, 0x20)] with x := 0x10 })
      (fun t => t.p == 0xA0 && t.pc == 0x8002 && t.cycles == 2) = true := by decide +kernel

theorem test_cpx_id19 :
    after (step { boot 0x8000 [0xE0, 0x10] [] with x := 0x10 })
      (fun t => t.p == 0x23 && t.pc == 0x8002 && t.cycles == 1) = true := by decide +kernel

theorem test_cpy_id20 :
    after (step { boot 0x8000 [0xCC, 0x00, 0x02] [(0x0200, 0x7F)] with y := 0x80 })
      (fun t => t.p == 0x21 && t.pc == 0x8003 && t.cycles == 3) = true := by decide +kernel

theorem test_bcc_br1 :
    after (step { boot 0x8000 [0x90, 0x05] [] with p := 0x20 })
      (fun t => t.p == 0x20 && t.pc == 0x8007 && t.cycles == 2) = true := by decide +kernel

theorem test_bcc_br2 :
    after (step { boot 0x8000 [0x90, 0x05] [] with p := 0x21 })
      (fun t => t.p == 0x21 && t.pc == 0x8002 && t.cycles == 1) = true := by decide +kernel

theorem test_bcs_br3 :
    after (step { boot 0x8000 [0xB0, 0x05] [] with p := 0x21 })
      (fun t => t.p == 0x21 && t.pc == 0x8007 && t.cycles == 2) = true := by decide +kernel

theorem test_beq_br4 :
    after (step { boot 0x8000 [0xF0, 0xFE] [] with p := 0x22 })
      (fun t => t.p == 0x22 && t.pc == 0x8000 && t.cycles == 2) = true := by decide +kernel

theorem test_bne_br7 :
    after (step { boot 0x80FD [0xD0, 0x02] [] with p := 0x20 })
      (fun t => t.p == 0x20 && t.pc == 0x8101 && t.cycles == 3) = true := by decide +kernel

theorem test_bne_br8 :
    after (step { boot 0x8000 [0xD0, 0xFC] [] with p := 0x20 })
      (fun t => t.p == 0x20 && t.pc == 0x7FFE && t.cycles == 3) = true := by decide +kernel

theorem test_bmi_br9 :
    after (step { boot 0x8000 [0x30, 0x10] [] with p := 0xA0 })
      (fun t => t.p == 0xA0 && t.pc == 0x8012 && t.cycles == 2) = true := by decide +kernel

theorem test_bpl_br10 :
    after (step { boot 0x8000 [0x10, 0x80] [] with p := 0x20 })
      (fun t => t.p == 0x20 && t.pc == 0x7F82 && t.cycles == 3) = true := by decide +kernel

theorem test_bvc_br11 :
    after (step { boot 0x8000 [0x50, 0x7F] [] with p := 0x20 })
      (fun t => t.p == 0x20 && t.pc == 0x8081 && t.cycles == 2) = true := by decide +kernel

theorem test_bvs_br12 :
    after (step { boot 0x8000 [0x70, 0x05] [] with p := 0x20 })
      (fun t => t.p == 0x20 && t.pc == 0x8002 && t.cycles == 1) = true := by decide +kernel

theorem test_bvs_br13 :
    after (step { boot 0x8000 [0x70, 0x05] [] with p := 0x60 })
      (fun t => t.p == 0x60 && t.pc == 0x8007 && t.cycles == 2) = true := by decide +kernel

theorem test_beq_br15 :
    after (step { boot 0x8000 [0xF0, 0x00] [] with p := 0x22 })
      (fun t => t.p == 0x22 && t.pc == 0x8002 && t.cycles == 2) = true := by decide +kernel

theorem test_jmp_jp1 :
    after (step (boot 0x8000 [0x4C, 0x34, 0x12] []))
      (fun t => t.p == 0x20 && t.pc == 0x1234 && t.cycles == 2) = true := by decide +kernel

theorem test_jmp_jp2 :
    after (step (boot 0x8000 [0x6C, 0xFF, 0x30] [(0x3000, 0x50), (0x30FF, 0x40), (0x3100, 0x60)]))
      (fun t => t.p == 0x20 && t.pc == 0x5040 && t.cycles == 4) = true := by decide +kernel

theorem test_jsr_jp4 :
    after (step (boot 0x8000 [0x20, 0x34, 0x12] []))
      (fun t => t.sp == 0xFB && t.p == 0x20 && t.pc == 0x1234 && t.peek 0x01FD == 0x80 && t.peek 0x01FC == 0x02 && t.cycles == 5) = true := by decide +kernel

theorem test_jsr_jp5 :
    after (step { boot 0x8000 [0x20, 0x34, 0x12] [] with sp := 0x00 })
      (fun t => t.sp == 0xFE && t.p == 0x20 && t.pc == 0x1234 && t.peek 0x0100 == 0x80 && t.peek 0x01FF == 0x02 && t.cycles == 5) = true := by decide +kernel

theorem test_rts_jp6 :
    after (step { boot 0x8000 [0x60] [(0x01FC, 0x02), (0x01FD, 0x80)] with sp := 0xFB })
      (fun t => t.sp == 0xFD && t.p == 0x20 && t.pc == 0x8003 && t.cycles == 5) = true := by decide +kernel

theorem test_rts_jp7 :
    after (step { boot 0x8000 [0x60] [(0x01FC, 0xFF), (0x01FD, 0xFF)] with sp := 0xFB })
      (fun t => t.sp == 0xFD && t.p == 0x20 && t.pc == 0x0000 && t.cycles == 5) = true := by decide +kernel

theorem test_pha_st2 :
    after (step { boot 0x8000 [0x48] [] with a := 0x42, sp := 0x00 })
      (fun t => t.sp == 0xFF && t.p == 0x20 && t.pc == 0x8001 && t.peek 0x0100 == 0x42 && t.cycles == 2) = true := by decide +kernel

theorem test_php_st3 :
    after (step { boot 0x8000 [0x08] [] with p := 0xE3 })
      (fun t => t.sp == 0xFC && t.p == 0xC3 && t.pc == 0x8001 && t.peek 0x01FD == 0xF3 && t.cycles == 2) = true := by decide +kernel

theorem test_php_st4 :
    after (step { boot 0x8000 [0x08] [] with p := 0x00 })
      (fun t => t.sp == 0xFC && t.p == 0x00 && t.pc == 0x8001 && t.peek 0x01FD == 0x30 && t.cycles == 2) = true := by decide +kernel

theorem test_pla_st5 :
    after (step { boot 0x8000 [0x68] [(0x01FD, 0x00)] with sp := 0xFC, p := 0xA0 })
      (fun t => t.sp == 0xFD && t.p == 0x22 && t.pc == 0x8001 && t.cycles == 3) = true := by decide +kernel

theorem test_pla_st7 :
    after (step { boot 0x8000 [0x68] [(0x0100, 0x11)] with sp := 0xFF })
      (fun t => t.a == 0x11 && t.sp == 0x00 && t.p == 0x20 && t.pc == 0x8001 && t.cycles == 3) = true := by decide +kernel

theorem test_plp_st8 :
    after (step { boot 0x8000 [0x28] [(0x01FD, 0xDF)] with sp := 0xFC, p := 0x00 })
      (fun t => t.sp == 0xFD && t.p == 0xFF && t.pc == 0x8001 && t.cycles == 3) = true := by decide +kernel

theorem test_plp_st9 :
    after (step { boot 0x8000 [0x28] [(0x01FD, 0x00)] with sp := 0xFC, p := 0xFF })
      (fun t => t.sp == 0xFD && t.p == 0x20 && t.pc == 0x8001 && t.cycles == 3) = true := by decide +kernel

theorem test_clc_st10 :
    after (step { boot 0x8000 [0x18] [] with p := 0xFF })
      (fun t => t.p == 0xFE && t.pc == 0x8001 && t.cycles == 1) = true := by decide +kernel

theorem test_sec_st11 :
    after (step { boot 0x8000 [0x38] [] with p := 0x00 })
      (fun t => t.p == 0x01 && t.pc == 0x8001 && t.cycles == 1) = true := by decide +kernel

theorem test_cld_st12 :
    after (step { boot 0x8000 [0xD8] [] with p := 0xFF })
      (fun t => t.p == 0xF7 && t.pc == 0x8001 && t.cycles == 1) = true := by decide +kernel

theorem test_sed_st13 :
    after (step { boot 0x8000 [0xF8] [] with p := 0x00 })
      (fun t => t.p == 0x08 && t.pc == 0x8001 && t.cycles == 1) = true := by decide +kernel

theorem test_cli_st14 :
    after (step { boot 0x8000 [0x58] [] with p := 0xFF })
      (fun t => t.p == 0xFB && t.pc == 0x8001 && t.cycles == 1) = true := by decide +kernel

theorem test_sei_st15 :
    after (step { boot 0x8000 [0x78] [] with p := 0x00 })
      (fun t => t.p == 0x04 && t.pc == 0x8001 && t.cycles == 1) = true := by decide +kernel

theorem test_clv_st16 :
    after (step { boot 0x8000 [0xB8] [] with p := 0xFF })
      (fun t => t.p == 0xBF && t.pc == 0x8001 && t.cycles == 1) = true := by decide +kernel

theorem test_tax_st17 :
    after (step { boot 0x8000 [0xAA] [] with a := 0x80 })
      (fun t => t.x == 0x80 && t.p == 0xA0 && t.pc == 0x8001 && t.cycles == 1) = true := by decide +kernel

theorem test_txa_st18 :
    after (step { boot 0x8000 [0x8A] [] with a := 0x55, x := 0x00 })
      (fun t => t.a == 0x00 && t.p == 0x22 && t.pc == 0x8001 && t.cycles == 1) = true := by decide +kernel

theorem test_tay_st19 :
    after (step { boot 0x8000 [0xA8] [] with a := 0x7F, p := 0xA2 })
      (fun t => t.y == 0x7F && t.p == 0x20 && t.pc == 0x8001 && t.cycles == 1) = true := by decide +kernel

theorem test_tya_st20 :
    after (step { boot 0x8000 [0x98] [] with y := 0xFF })
      (fun t => t.a == 0xFF && t.p == 0xA0 && t.pc == 0x8001 && t.cycles == 1) = true := by decide +kernel

theorem test_tsx_st21 :
    after (step { boot 0x8000 [0xBA] [] with sp := 0xFD })
      (fun t => t.x == 0xFD && t.p == 0xA0 && t.pc == 0x8001 && t.cycles == 1) = true := by decide +kernel

theorem test_tsx_st22 :
    after (step { boot 0x8000 [0xBA] [] with x := 0x11, sp := 0x00 })
      (fun t => t.x == 0x00 && t.p == 0x22 && t.pc == 0x8001 && t.cycles == 1) = true := by decide +kernel

theorem test_txs_st23 :
    after (step { boot 0x8000 [0x9A] [] with x := 0x00, p := 0xA0 })
      (fun t => t.sp == 0x00 && t.p == 0xA0 && t.pc == 0x8001 && t.cycles == 1) = true := by decide +kernel

theorem test_brk_sy1 :
    after (step { boot 0x8000 [0x00, 0xEA] [(0xFFFE, 0x00), (0xFFFF, 0x90)] with p := 0x63 })
      (fun t => t.sp == 0xFA && t.p == 0x47 && t.pc == 0x9000 && t.peek 0x01FD == 0x80 && t.peek 0x01FC == 0x02 && t.peek 0x01FB == 0x73 && t.cycles == 6) = true := by decide +kernel

theorem test_brk_sy2 :
    after (step { boot 0x8000 [0x00, 0xEA] [(0xFFFE, 0x00), (0xFFFF, 0x90)] with p := 0x24 })
      (fun t => t.sp == 0xFA && t.p == 0x04 && t.pc == 0x9000 && t.peek 0x01FD == 0x80 && t.peek 0x01FC == 0x02 && t.peek 0x01FB == 0x34 && t.cycles == 6) = true := by decide +kernel

theorem test_rti_sy3 :
    after (step { boot 0x8000 [0x40] [(0x01FB, 0x73), (0x01FC, 0x02), (0x01FD, 0x80)] with sp := 0xFA })
      (fun t => t.sp == 0xFD && t.p == 0x43 && t.pc == 0x8002 && t.cycles == 5) = true := by decide +kernel

theorem test_rti_sy4 :
    after (step { boot 0x8000 [0x40] [(0x01FB, 0xFF), (0x01FC, 0x34), (0x01FD, 0x12)] with sp := 0xFA })
      (fun t => t.sp == 0xFD && t.p == 0xCF && t.pc == 0x1234 && t.cycles == 5) = true := by decide +kernel

theorem test_nop_sy5 :
    after (step { boot 0x8000 [0xEA] [] with p := 0xE3 })
      (fun t => t.p == 0xE3 && t.pc == 0x8001 && t.cycles == 1) = true := by decide +kernel

theorem test_ill_sy8 :
    after (step { boot 0xFFFF [0xFF] [] with p := 0x20 })
      (fun t => t.p == 0x20 && t.pc == 0x0000 && t.cycles == 1) = true := by decide +kernel

theorem test_ill_sy9 :
    after (step { boot 0x8000 [0xEB, 0x10] [] with a := 0x50, p := 0x21 })
      (fun t => t.p == 0x21 && t.pc == 0x8001 && t.cycles == 1) = true := by decide +kernel

/-! ### Witnesses: every statement with hypotheses has a state that meets them -/

/-- A boundary state about to run `code`, memory canonical. -/
abbrev run0 (code : List Byte) : State := boot 0x8000 code []

theorem test_witness_DecodeOfEncode : (Instr.lda (.izy 0xFF)).wellFormed = true ∧ (Instr.ill 0xFF).wellFormed = true := by
  decide

theorem test_witness_EncodeOfDecode : decode [0xB1, 0xFF, 0x01] = .ok (.lda (.izy 0xFF), [0x01]) := rfl

theorem test_witness_EveryOpcode :
    decode [] = .error .noOpcode ∧ decode [0x20, 0x34] = .error (.missingOperand 0x20) := ⟨rfl, rfl⟩

theorem test_witness_LengthIsDecided :
    decode [0xAD, 0x00, 0x02] = .ok (.lda (.abs 0x0200), []) ∧
      decode [0xAD, 0xFF, 0xFF, 0xEA] = .ok (.lda (.abs 0xFFFF), [0xEA]) := ⟨rfl, rfl⟩

/-- At the top of memory: the operand byte of an instruction at 0xFFFF is at 0x0000. -/
theorem test_witness_StepRuns :
    let s := boot 0xFFFF [0xA9, 0x10] []
    s.cycles = 0 ∧ takesInterrupt s = false ∧ (Instr.lda (.imm 0x10)).wellFormed = true ∧
    (∀ n, n < (Instr.lda (.imm 0x10)).length →
      s.answerAt n (s.pc + BitVec.ofNat 16 n) = (encode (.lda (.imm 0x10))).getD n 0) ∧
    ∃ t, exec (.lda (.imm 0x10)) (beginInstr ((s.setBus []).setIrq false)) = .next t := by
  refine ⟨by decide, by decide +kernel, by decide, by decide +kernel, _, rfl⟩

theorem test_witness_IdleTick : State.reset.cycles ≠ 0 := by decide

theorem test_witness_WindowLasts : State.reset.Inv ∧ 1 ≤ 8 ∧ 8 ≤ State.reset.cycles := by
  refine ⟨⟨by decide, by decide⟩, by decide, by decide⟩

theorem test_witness_StepKeepsInvariant :
    (run0 [0x85, 0x10]).Inv ∧ step (run0 [0x85, 0x10]) = .next (nextOf (step (run0 [0x85, 0x10]))) :=
  ⟨⟨by decide +kernel, by decide⟩, next_of_after (by decide +kernel)⟩

theorem test_witness_HostOperationsKeep :
    (Device.unreset [] []).Inv ∧ ∃ e, hostOps [.reset, .requestNonmaskable, .requestInterrupt] (.unreset [] []) = .next e :=
  ⟨by unfold Device.Inv; decide, _, rfl⟩

/-- A store: the replay has a write in it. -/
theorem test_witness_MemoryIsTheReplay :
    after (step { run0 [0x85, 0x10] with a := 0x7F })
      (fun t => t.bus == [.read 0x8000 0x85, .read 0x8001 0x10, .write 0x0010 0x7F]) = true := by decide +kernel

theorem test_witness_BusCalls : ∃ t, exec (.jmp (.ind 0x30FF)) (run0 []) = .next t := ⟨_, rfl⟩

/-- The three clauses: a boundary, a boundary that takes an interrupt, one that takes none. -/
theorem test_witness_OnlyBoundaryTicks :
    ((run0 [0xEA]).cycles = 0 ∧ takesInterrupt (run0 [0xEA]) = false ∧ after (step (run0 [0xEA])) (fun _ => true) = true) ∧
    (takesInterrupt { run0 [0xEA] with irqPending := true } = true ∧
      after (step { run0 [0xEA] with irqPending := true }) (fun _ => true) = true) := by decide +kernel

/-- NMI with I set and with I clear. -/
theorem test_witness_Nmi :
    ({ run0 [] with nmiPending := true, p := 0x24 } : State).cycles = 0 ∧
    ({ run0 [] with nmiPending := true, p := 0x24 } : State).nmiPending = true ∧
    ({ run0 [] with nmiPending := true, p := 0x24 } : State).flag .i = true := by decide

theorem test_witness_Irq :
    ({ run0 [] with irqPending := true } : State).cycles = 0 ∧
    ({ run0 [] with irqPending := true } : State).nmiPending = false ∧
    ({ run0 [] with irqPending := true } : State).irqPending = true ∧
    ({ run0 [] with irqPending := true } : State).flag .i = false := by decide

/-- A boundary and a window, I set, the latch set. -/
theorem test_witness_MaskedIrq :
    (let s : State := { run0 [0xEA] with irqPending := true, p := 0x24 }
     s.nmiPending = false ∧ s.flag .i = true ∧ s.cycles = 0 ∧ after (step s) (fun _ => true) = true) ∧
    (let s : State := { run0 [0xEA] with irqPending := true, p := 0x24, cycles := 1 }
     s.nmiPending = false ∧ s.flag .i = true ∧ s.cycles ≠ 0 ∧ after (step s) (fun _ => true) = true) := by decide +kernel

/-- A stack is intact in the state itself, on the flat array. -/
theorem intact_self {t : State} (h : t.answers = []) (slots : List Addr) : IntactStack slots t t :=
  fun k q _ => State.answerAt_of_empty h k q

/-- An IRQ, an NMI and a BRK whose frames wrap around the stack page. -/
theorem test_witness_EntryThenReturn :
    (∀ s ∈ [({ run0 [] with irqPending := true, sp := 0x01 } : State),
        { run0 [] with nmiPending := true, p := 0x24, sp := 0x00 }],
      s.cycles = 0 ∧ takesInterrupt s = true ∧ step s = .next (nextOf (step s)) ∧
        IntactStack [stackAddr (s.sp - 2), stackAddr (s.sp - 1), stackAddr s.sp] (nextOf (step s)) (nextOf (step s)) ∧
        ∃ v, exec .rti (nextOf (step s)) = .next v) ∧
    (let s : State := { run0 [] with sp := 0x01 }
     ∃ t v, exec .brk s = .next t ∧
      IntactStack [stackAddr (s.sp - 2), stackAddr (s.sp - 1), stackAddr s.sp] t t ∧ exec .rti t = .next v) := by
  refine ⟨?_, _, _, rfl, intact_self (by decide +kernel) _, rfl⟩
  intro s hs
  simp only [List.mem_cons, List.not_mem_nil, or_false] at hs
  rcases hs with rfl | rfl
  · exact ⟨by decide, by decide, next_of_after (by decide +kernel), intact_self (by decide +kernel) _, _, rfl⟩
  · exact ⟨by decide, by decide, next_of_after (by decide +kernel), intact_self (by decide +kernel) _, _, rfl⟩

/-- A bus that is no array, and answers it accepts for a step and for the reset. -/
theorem test_witness_AnyBus :
    after (step ((run0 []).setAnswers [0xE6, 0xE7, 0xE8]))
      (fun u => readBytes u.bus == [0xE6, 0xE7, 0xE8] &&
        (countingBus.serve u.bus (0xE6 : Byte)).1 == [0xE6, 0xE7, 0xE8]) = true := by decide +kernel

theorem test_witness_TheFlatArray :
    State.reset.answers = [] ∧ deviceAnswers (.unreset [] []) = [] ∧ deviceAnswers (.running State.reset) = [] := by
  decide

theorem test_witness_ResetLatency : 1 ≤ params.resetCycles ∧ 8 ≤ params.resetCycles := by decide

theorem test_witness_NeverReset : HostOp.tick ≠ .reset ∧ ∃ e, hostOps [.reset, .tick] (.unreset [] []) = .next e := by
  refine ⟨by decide, .running (nextOf (step State.reset)), ?_⟩
  have h : step (resetFrom [] []) = .next (nextOf (step State.reset)) := by
    have e : resetFrom [] [] = State.reset := by decide +kernel
    rw [e]
    exact next_of_after (by decide +kernel)
  simp only [hostOps, hostOp, deviceMem, deviceAnswers, h, runningResult]

theorem test_witness_Requests :
    ∃ e, hostOps [.requestInterrupt, .requestNonmaskable] (.running State.reset) = .next e := ⟨_, rfl⟩

/-- Every mode, at operands and indexes where the address wraps. -/
theorem test_witness_Resolvers :
    let s : State := { run0 [] with x := 0xFF, y := 0xFF }
    (∃ t, exec .nop s = .next t) ∧ (∃ t, exec (.lda (.imm 0xFF)) s = .next t) ∧
    (∃ t, exec (.lda (.zp0 0xFF)) s = .next t) ∧ (∃ t, exec (.lda (.zpx 0xFF)) s = .next t) ∧
    (∃ t, exec (.ldx (.zpy 0xFF)) s = .next t) ∧ (∃ t, exec (.bcc 0x80) s = .next t) ∧
    (∃ t, exec (.lda (.abs 0xFFFF)) s = .next t) ∧ (∃ t, exec (.lda (.abx 0xFFFF)) s = .next t) ∧
    (∃ t, exec (.lda (.aby 0xFFFF)) s = .next t) ∧ (∃ t, exec (.jmp (.ind 0x30FF)) s = .next t) ∧
    (∃ t, exec (.lda (.izx 0xFF)) s = .next t) ∧ (∃ t, exec (.lda (.izy 0xFF)) s = .next t) :=
  ⟨⟨_, rfl⟩, ⟨_, rfl⟩, ⟨_, rfl⟩, ⟨_, rfl⟩, ⟨_, rfl⟩, ⟨_, rfl⟩, ⟨_, rfl⟩, ⟨_, rfl⟩, ⟨_, rfl⟩, ⟨_, rfl⟩, ⟨_, rfl⟩, ⟨_, rfl⟩⟩

theorem test_witness_ResolversOperandByte : Operand.zp0 0xFF ≠ .imp ∧ (Operand.zp0 0xFF).mode ≠ .imm := by decide

theorem test_witness_PageCross : (run0 []).x = 0 ∧ (Operand.zpx 0xFF).mode ∉ [.abx, .aby, .izy] := by decide

theorem test_witness_Fetched :
    (∃ t, exec (.asl .imp) (run0 []) = .next t) ∧ (∃ t, exec (.bit (.zp0 0x10)) (run0 []) = .next t) ∧
      ∃ t, exec (.sta (.zp0 0x10)) (run0 []) = .next t := ⟨⟨_, rfl⟩, ⟨_, rfl⟩, _, rfl⟩

/-- The least and the greatest total: NOP takes 2 cycles, BRK and ASL abs,X take 7. -/
theorem test_witness_Cycles :
    (takesInterrupt (run0 [0xEA]) = false ∧ after (step (run0 [0xEA])) (fun t => t.cycles == 1) = true) ∧
    (takesInterrupt (run0 [0x00]) = false ∧ after (step (run0 [0x00])) (fun t => t.cycles == 6) = true) ∧
    (takesInterrupt (run0 [0x1E]) = false ∧ after (step (run0 [0x1E])) (fun t => t.cycles == 6) = true) := by
  decide +kernel

theorem test_witness_Overflow :
    (∃ t, exec (.adc (.imm 0x01)) { run0 [] with a := 0x7F } = .next t) ∧
      ∃ t, exec (.sbc (.imm 0x01)) { run0 [] with a := 0x80, p := 0x21 } = .next t := ⟨⟨_, rfl⟩, _, rfl⟩

theorem test_witness_IncDec : Operand.zp0 0xFF ≠ .imp := by decide

/-- A call with the stack pointer at the end of the page, and the return from the state it leaves. -/
theorem test_witness_RtsAfterJsr :
    let s : State := { run0 [] with sp := 0x00 }
    ∃ t v, exec (.jsr 0x1234) s = .next t ∧ t.sp = t.sp ∧
      IntactStack [stackAddr (s.sp - 1), stackAddr s.sp] t t ∧ exec .rts t = .next v :=
  ⟨_, _, rfl, rfl, intact_self (by decide +kernel) _, rfl⟩

theorem test_witness_PlaAfterPha :
    let s : State := { run0 [] with a := 0x42, sp := 0x00 }
    ∃ t v, exec .pha s = .next t ∧ t.sp = t.sp ∧ IntactStack [stackAddr s.sp] t t ∧
      exec .pla t = .next v := ⟨_, _, rfl, rfl, intact_self (by decide +kernel) _, rfl⟩

/-- CLI with a masked request latched, and SEI. -/
theorem test_witness_FlagInstructions :
    (let s : State := { run0 [0x58] with p := 0x24, irqPending := true }
     s.cycles = 0 ∧ takesInterrupt s = false ∧ s.nextInstr = .cli) ∧
    (run0 [0x78]).cycles = 0 ∧ takesInterrupt (run0 [0x78]) = false ∧ (run0 [0x78]).nextInstr = .sei := by
  decide +kernel

/-- An illegal byte at the top of memory (V-SY8) and one whose successor is documented (V-SY9). -/
theorem test_witness_NopAndIllegal :
    (let s := boot 0xFFFF [0xFF] []
     s.cycles = 0 ∧ takesInterrupt s = false ∧ s.answerAt 0 s.pc ∈ illegalBytes) ∧ (0xEB : Byte) ∈ illegalBytes := by
  decide +kernel

theorem test_witness_DecimalBreakUnused :
    Flag.d ∈ [Flag.d, .b, .u] ∧ (Instr.adc (.imm 0x01)).mnemonic ∉ [.sed, .cld, .plp, .rti, .php, .brk] ∧
    (∃ t, exec (.adc (.imm 0x01)) (run0 []) = .next t) ∧
    Flag.b ∈ [Flag.b, .u] ∧ Instr.sed.mnemonic ∈ [.sed, .cld] ∧ (∃ t, exec .sed (run0 []) = .next t) ∧
    Instr.rti.mnemonic ∈ [.plp, .rti] ∧ Instr.php.mnemonic ∈ [.php, .brk] ∧
    (∀ e ∈ [(Instr.php, stackAddr (run0 []).sp), (Instr.brk, stackAddr ((run0 []).sp - 2))],
      ∃ t, exec e.1 (run0 []) = .next t) := by
  refine ⟨by decide, by decide, ⟨_, rfl⟩, by decide, by decide, ⟨_, rfl⟩, by decide, by decide, ?_⟩
  intro e he
  simp only [List.mem_cons, List.not_mem_nil, or_false] at he
  rcases he with rfl | rfl <;> exact ⟨_, rfl⟩

/-- A flag and a register change through an instruction, and through an interrupt entry. -/
theorem test_witness_FlagsAndRegisters :
    (after (step (run0 [0x38])) (fun t => t.flag .c != (run0 [0x38]).flag .c) = true ∧
      after (step { run0 [0xAA] with a := 0x80 }) (fun t => t.reg .x != 0x00) = true) ∧
    after (step { run0 [] with nmiPending := true }) (fun t => t.flag .i != (run0 []).flag .i && t.reg .sp != 0xFD)
      = true := by decide +kernel

theorem test_witness_PcAndMemory :
    (takesInterrupt (run0 [0xA9]) = false ∧ (run0 [0xA9]).nextInstr.mnemonic ∉ pcWriters ∧
      after (step (run0 [0xA9])) (fun _ => true) = true) ∧
    after (step { run0 [0x85, 0x10] with a := 0x7F }) (fun t => t.mem != (run0 [0x85, 0x10]).mem) = true := by
  decide +kernel

/-- Both ends of the stack page, and a step that changes SP. -/
theorem test_witness_StackStays :
    ({ run0 [] with sp := 0x00 } : State).sp = 0 ∧ ({ run0 [] with sp := 0xFF } : State).sp = 0xFF ∧
    after (step (run0 [0x48])) (fun t => t.sp != (run0 [0x48]).sp) = true := by decide +kernel

theorem test_witness_EqualReads :
    Memory.wf [(0x0000, 0x01), (0xFFFF, 0xFF)] = true ∧ Memory.wf [(0x0010, 0x00)] = false ∧
      Memory.wf [(0x10000, 0x01)] = false := by decide

end Sys2Proof.Tests
end

section
/-! PROOFS. Which operations a status flag reaches (00_scope.md R4, 10_state.md R18, R21; 42_arithmetic_logical.md R116
item 7). D, B and U are read by no computation, so that writing one of them commutes with every operation that does
not itself write the flag or copy the whole status byte. -/

namespace Sys2Proof.Machine

/-! ### The status byte -/

/-- The second write of a flag hides the first. -/
theorem putFlag_putFlag (p : Byte) (f : Flag) (v w : Bool) : putFlag (putFlag p f v) f w = putFlag p f w := by
  apply eq_of_getFlag
  intro g
  by_cases h : g = f <;> simp [h]

/-- The pushed copy sets B and U itself (R161, R180). -/
theorem statusWithBreak_putFlag_of_forced {f : Flag} (hf : f ∈ [.b, .u]) (p : Byte) (v : Bool) :
    statusWithBreak (putFlag p f v) = statusWithBreak p := by
  apply eq_of_getFlag
  intro g
  by_cases h : g = f
  · subst h
    simp only [List.mem_cons, List.not_mem_nil, or_false] at hf
    rcases hf with rfl | rfl <;> simp
  · simp [h]

/-- The live copy clears B and U itself (R161, R180). -/
theorem statusLive_putFlag_of_forced {f : Flag} (hf : f ∈ [.b, .u]) (p : Byte) (v : Bool) :
    statusLive (putFlag p f v) = statusLive p := by
  apply eq_of_getFlag
  intro g
  by_cases h : g = f
  · subst h
    simp only [List.mem_cons, List.not_mem_nil, or_false] at hf
    rcases hf with rfl | rfl <;> simp
  · simp [h]

theorem statusWithBreak_putFlag_d (p : Byte) (v : Bool) :
    statusWithBreak (putFlag p .d v) = putFlag (statusWithBreak p) .d v := by
  apply eq_of_getFlag
  intro g
  by_cases h : g = .d <;> simp [h]

theorem statusLive_putFlag_d (p : Byte) (v : Bool) : statusLive (putFlag p .d v) = putFlag (statusLive p) .d v := by
  apply eq_of_getFlag
  intro g
  by_cases h : g = .d <;> simp [h]

/-- The live status of an entry, which also sets I (60_exceptions.md R204). -/
theorem entryStatus_putFlag_d (p : Byte) (v : Bool) :
    statusLive (putFlag p .d v) ||| flagMask .i = putFlag (statusLive p ||| flagMask .i) .d v := by
  apply eq_of_getFlag
  intro g
  by_cases h : g = .d <;> simp [h]

/-! ### A flag write moves past every operation that leaves the status alone -/

section
variable (s : State) (f : Flag) (v : Bool)

@[simp] theorem State.setFlag_setA (w : Byte) : (s.setFlag f v).setA w = (s.setA w).setFlag f v := rfl
@[simp] theorem State.setFlag_setX (w : Byte) : (s.setFlag f v).setX w = (s.setX w).setFlag f v := rfl
@[simp] theorem State.setFlag_setY (w : Byte) : (s.setFlag f v).setY w = (s.setY w).setFlag f v := rfl
@[simp] theorem State.setFlag_setSp (w : Byte) : (s.setFlag f v).setSp w = (s.setSp w).setFlag f v := rfl
@[simp] theorem State.setFlag_setPc (w : Addr) : (s.setFlag f v).setPc w = (s.setPc w).setFlag f v := rfl
@[simp] theorem State.setFlag_setFetched (w : Byte) :
    (s.setFlag f v).setFetched w = (s.setFetched w).setFlag f v := rfl
@[simp] theorem State.setFlag_setAddrAbs (w : Addr) :
    (s.setFlag f v).setAddrAbs w = (s.setAddrAbs w).setFlag f v := rfl
@[simp] theorem State.setFlag_setAddrRel (w : Addr) :
    (s.setFlag f v).setAddrRel w = (s.setAddrRel w).setFlag f v := rfl
@[simp] theorem State.setFlag_recordRead (q : Addr) (w : Byte) :
    (s.setFlag f v).recordRead q w = (s.recordRead q w).setFlag f v := rfl
@[simp] theorem State.setFlag_noteRead (q : Addr) : (s.setFlag f v).noteRead q = (s.noteRead q).setFlag f v := by
  simp [State.noteRead]
@[simp] theorem State.setFlag_noteZeroPageWord (z : Byte) :
    (s.setFlag f v).noteZeroPageWord z = (s.noteZeroPageWord z).setFlag f v := by
  simp [State.noteZeroPageWord]
@[simp] theorem State.setFlag_takeByte (w : Byte) : (s.setFlag f v).takeByte w = (s.takeByte w).setFlag f v := by
  simp [State.takeByte]
@[simp] theorem State.setFlag_takeWord (w : Addr) : (s.setFlag f v).takeWord w = (s.takeWord w).setFlag f v := by
  simp [State.takeWord]
@[simp] theorem State.setFlag_store (q : Addr) (w : Byte) : (s.setFlag f v).store q w = (s.store q w).setFlag f v := rfl
@[simp] theorem State.setFlag_push (w : Byte) : (s.setFlag f v).push w = (s.push w).setFlag f v := rfl
@[simp] theorem State.setFlag_pop : (s.setFlag f v).pop = s.pop.setFlag f v := rfl

/-- A write of the whole status byte hides an earlier flag write. -/
@[simp] theorem State.setFlag_setP (w : Byte) : (s.setFlag f v).setP w = s.setP w := rfl

@[simp] theorem effAddr_setFlag (o : Operand) : effAddr o (s.setFlag f v) = effAddr o s := by
  cases o <;> simp [effAddr]

@[simp] theorem resolve_setFlag (o : Operand) : resolve o (s.setFlag f v) = (resolve o s).setFlag f v := by
  cases o <;> simp [resolve]

@[simp] theorem fetch_setFlag (o : Operand) : fetch o (s.setFlag f v) = (fetch o s).setFlag f v := by
  cases o <;> rfl

@[simp] theorem writeBack_setFlag (o : Operand) (w : Byte) :
    writeBack o w (s.setFlag f v) = (writeBack o w s).setFlag f v := by
  cases o <;> rfl

@[simp] theorem pageCross_setFlag (o : Operand) : pageCross o (s.setFlag f v) = pageCross o s := by
  cases o <;> rfl

@[simp] theorem branch_setFlag (c : Bool) : branch c (s.setFlag f v) = (branch c s).setFlag f v := by
  cases c <;> rfl

end

theorem State.setFlag_comm {f g : Flag} (h : f ≠ g) (s : State) (v w : Bool) :
    (s.setFlag f v).setFlag g w = (s.setFlag g w).setFlag f v :=
  congrArg s.setP (putFlag_comm s.p h v w)

theorem State.setFlag_setFlag (s : State) (f : Flag) (v w : Bool) : (s.setFlag f v).setFlag f w = s.setFlag f w :=
  congrArg s.setP (putFlag_putFlag s.p f v w)

/-! ### The computations read and write none of D, B and U

Their flags are C, Z, I, V and N; the three others are stored only (R4, R116 item 7). -/

theorem ne_of_storage {f g : Flag} (hf : f ∈ [.d, .b, .u]) (hg : g ∉ [.d, .b, .u]) : f ≠ g :=
  fun h => hg (h ▸ hf)

section
variable {f : Flag} (hf : f ∈ [.d, .b, .u]) (s : State) (v : Bool)
include hf

theorem State.setFlag_flag_storage {g : Flag} (hg : g ∉ [.d, .b, .u]) : (s.setFlag f v).flag g = s.flag g := by
  rw [State.setFlag_flag, if_neg (ne_of_storage hf hg).symm]

theorem State.setFlag_setFlag_storage {g : Flag} (hg : g ∉ [.d, .b, .u]) (w : Bool) :
    (s.setFlag f v).setFlag g w = (s.setFlag g w).setFlag f v :=
  State.setFlag_comm (ne_of_storage hf hg) s v w

theorem State.setFlag_setZN (w : Byte) : (s.setFlag f v).setZN w = (s.setZN w).setFlag f v := by
  rw [State.setZN, State.setFlag_setFlag_storage hf _ _ (by decide), State.setFlag_setFlag_storage hf _ _ (by decide)]
  rfl

theorem addToA_setFlag (m : Byte) : addToA m (s.setFlag f v) = (addToA m s).setFlag f v := by
  simp (disch := decide) only [addToA, State.setFlag_a, State.setFlag_flag_storage hf, State.setFlag_setFlag_storage hf,
    State.setFlag_setZN hf, State.setFlag_setA]

theorem logicToA_setFlag (r : Byte) : logicToA r (s.setFlag f v) = (logicToA r s).setFlag f v := by
  simp only [logicToA, State.setFlag_setA, State.setFlag_setZN hf]

theorem bitTest_setFlag (m : Byte) : bitTest m (s.setFlag f v) = (bitTest m s).setFlag f v := by
  simp (disch := decide) only [bitTest, State.setFlag_a, State.setFlag_setFlag_storage hf]

theorem shiftResult_setFlag (o : Operand) (c : Bool) (r : Byte) :
    shiftResult o c r (s.setFlag f v) = (shiftResult o c r s).setFlag f v := by
  simp (disch := decide) only [shiftResult, State.setFlag_setFlag_storage hf, State.setFlag_setZN hf, writeBack_setFlag]

theorem memoryResult_setFlag (r : Byte) : memoryResult r (s.setFlag f v) = (memoryResult r s).setFlag f v := by
  simp only [memoryResult, State.setFlag_addrAbs, State.setFlag_store, State.setFlag_setZN hf]

theorem compareFlags_setFlag (r m : Byte) : compareFlags r m (s.setFlag f v) = (compareFlags r m s).setFlag f v := by
  simp (disch := decide) only [compareFlags, State.setFlag_setFlag_storage hf, State.setFlag_setZN hf]

end

/-! ### From a handler to the instruction (40_addressing_modes.md R95, R98) -/

theorem next_runInstr_setFlag {o : Operand} {g : Bool} {handler : State → State} {s t : State} {f : Flag} {v : Bool}
    (h : (.next (runInstr o g handler s) : Result) = .next t)
    (hh : ∀ r, handler (r.setFlag f v) = (handler r).setFlag f v) :
    (.next (runInstr o g handler (s.setFlag f v)) : Result) = .next (t.setFlag f v) := by
  cases h
  simp only [runInstr, resolve_setFlag, hh, pageCross_setFlag]
  rfl

theorem next_runInstr_setFlag_hidden {o : Operand} {g : Bool} {handler : State → State} (s : State) {f : Flag}
    {v : Bool} (hh : ∀ r, handler (r.setFlag f v) = handler r) :
    (.next (runInstr o g handler (s.setFlag f v)) : Result) = .next (runInstr o g handler s) := by
  simp only [runInstr, resolve_setFlag, hh, pageCross_setFlag]

/-- Noninterference of D, B and U: an instruction that neither copies the status byte nor writes the flag answers the
same with the flag written before it as after it (R4, R21, R116). -/
theorem exec_setFlag {i : Instr} {s t : State} {f : Flag} (v : Bool) (hf : f ∈ [.d, .b, .u])
    (hcopy : i.mnemonic ∉ [.plp, .rti, .php, .brk]) (hd : i.mnemonic ∈ [.sed, .cld] → f ≠ .d)
    (h : exec i s = .next t) : exec i (s.setFlag f v) = .next (t.setFlag f v) := by
  cases i <;> refine next_runInstr_setFlag h fun r => ?_
  case plp | rti | php | brk => exact absurd hcopy (by decide)
  case sed | cld => exact State.setFlag_comm (hd (by decide)) r v _
  case clc | sec | cli | sei | clv => exact State.setFlag_setFlag_storage hf r v (by decide) _
  case bcc | bcs | beq | bne | bmi | bpl | bvc | bvs =>
    rw [State.setFlag_flag_storage hf r v (by decide), branch_setFlag]
  case adc | sbc => simp [addToA_setFlag hf]
  case and | ora | eor => simp [logicToA_setFlag hf]
  case bit => simp [bitTest_setFlag hf]
  case asl | lsr => simp [shiftResult_setFlag hf]
  case rol | ror =>
    simp (disch := decide) only [fetch_setFlag, State.setFlag_fetched, State.setFlag_flag_storage hf,
      shiftResult_setFlag hf]
  case inc | dec => simp [memoryResult_setFlag hf]
  case cmp | cpx | cpy => simp [compareFlags_setFlag hf]
  case lda | ldx | ldy | pla | inx | iny | dex | dey | tax | txa | tay | tya | tsx => simp [State.setFlag_setZN hf]
  case sta | stx | sty | pha | txs | jmp | jsr | rts | nop | ill => simp

/-! ### The status copies of PHP and BRK -/

/-- The entry of BRK forces B and U, so that their values before it are lost. -/
theorem interruptEntry_setFlag_of_forced {f : Flag} (hf : f ∈ [.b, .u]) (vec : Addr) (lat : Nat) (s : State)
    (v : Bool) : interruptEntry vec lat true (s.setFlag f v) = interruptEntry vec lat true s := by
  simp only [interruptEntry, if_true, State.setFlag_pc, State.setFlag_p, State.setFlag_push, State.setFlag_setP,
    statusWithBreak_putFlag_of_forced hf, statusLive_putFlag_of_forced hf]

/-- How the answer `u` with D written first differs from the answer `t` without: in D, in bit D of the byte at `slot`,
and in the bytes that its bus calls carry. -/
structure CopiesD (v : Bool) (slot : Addr) (t u : State) : Prop where
  state : u = ((t.setFlag .d v).setMem u.mem).setBus u.bus
  memory : ∀ q, u.peek q = if q = slot then putFlag (t.peek q) .d v else t.peek q
  calls : u.bus.map accessOf = t.bus.map accessOf

theorem phpPush_copiesD (s : State) (v : Bool) :
    CopiesD v (stackAddr s.sp) ((s.push (statusWithBreak s.p)).setP (statusLive s.p))
      (((s.setFlag .d v).push (statusWithBreak (s.setFlag .d v).p)).setP (statusLive (s.setFlag .d v).p)) := by
  refine ⟨?_, fun q => ?_, ?_⟩
  · ext1 <;> simp [statusLive_putFlag_d]
  · by_cases h : q = stackAddr s.sp <;> simp [State.push_peek, statusWithBreak_putFlag_d, h]
  · simp [accessOf]

/-- A vector outside the stack page is read as before, so that the pushed byte does not reach the program counter. -/
theorem interruptEntry_copiesD (vec : Addr) (hvec : 512 ≤ vec.toNat) (hvec' : 512 ≤ (vec + 1).toNat) (lat : Nat)
    (s : State) (v : Bool) :
    CopiesD v (stackAddr (s.sp - 2)) (interruptEntry vec lat true s)
      (interruptEntry vec lat true (s.setFlag .d v)) := by
  refine ⟨?_, fun q => ?_, ?_⟩
  · ext1 <;> simp [interruptEntry_fields, entryStatus_putFlag_d, interruptEntry_pc vec lat true _ hvec hvec']
  · simp only [interruptEntry_peek, State.setFlag_p, State.setFlag_sp, State.setFlag_pc, State.setFlag_peek,
      statusWithBreak_putFlag_d, if_true]
    by_cases h : q = stackAddr (s.sp - 2) <;> simp only [h, if_true, if_false]
  · simp [interruptEntry_bus, accessOf]

/-- A one-byte instruction without an extra cycle is its handler, on the state with A in `fetched` (R81, R95). -/
theorem runInstr_imp (g : Bool) (handler : State → State) (s : State) :
    runInstr .imp g handler s = handler (s.setFetched s.a) := rfl

/-- What `CopiesD` says of a handler is what the instruction answers. -/
theorem exec_setFlag_d_of_copiesD {i : Instr} {handler : State → State} {s t : State} {v : Bool} {slot : Addr}
    (hi : ∀ r, exec i r = .next (runInstr .imp false handler r)) (ht : exec i s = .next t)
    (h : CopiesD v slot (handler (s.setFetched s.a)) (handler ((s.setFetched s.a).setFlag .d v))) :
    ∃ (m : Memory) (calls : List BusCall),
      exec i (s.setFlag .d v) = .next (((t.setFlag .d v).setMem m).setBus calls) ∧
      (∀ q : Addr, m.read q.toNat = if q = slot then putFlag (t.peek q) .d v else t.peek q) ∧
      calls.map accessOf = t.bus.map accessOf := by
  rw [hi, runInstr_imp, Host.Outcome.next.injEq] at ht
  subst ht
  refine ⟨_, _, ?_, h.memory, h.calls⟩
  rw [hi, runInstr_imp]
  exact congrArg _ h.state

/-! ### The instructions that overwrite the flag -/

/-- A documented mnemonic without operand stands for one instruction. -/
theorem eq_or_eq_of_mnemonic_mem {i : Instr} {m n : Mnemonic} (h : i.mnemonic ∈ [m, n]) (hm : m ≠ .ill)
    (hn : n ≠ .ill) : i = buildInstr m i.operand 0 ∨ i = buildInstr n i.operand 0 := by
  simp only [List.mem_cons, List.not_mem_nil, or_false] at h
  rcases h with rfl | rfl
  · exact .inl (buildInstr_self 0 hm).symm
  · exact .inr (buildInstr_self 0 hn).symm

theorem exec_setFlag_d_of_sed_or_cld {i : Instr} (hi : i.mnemonic ∈ [.sed, .cld]) (s : State) (v : Bool) :
    exec i (s.setFlag .d v) = exec i s := by
  obtain rfl | rfl : i = .sed ∨ i = .cld := eq_or_eq_of_mnemonic_mem hi (by decide) (by decide) <;>
    exact next_runInstr_setFlag_hidden s fun r => r.setFlag_setFlag .d v _

/-- PLP and RTI load the whole status byte from the stack (R163, R181). -/
theorem exec_setFlag_of_plp_or_rti {i : Instr} (hi : i.mnemonic ∈ [.plp, .rti]) (s : State) (f : Flag) (v : Bool) :
    exec i (s.setFlag f v) = exec i s := by
  obtain rfl | rfl : i = .plp ∨ i = .rti := eq_or_eq_of_mnemonic_mem hi (by decide) (by decide) <;>
    exact next_runInstr_setFlag_hidden s fun r => rfl

/-- PHP and BRK force B and U in both the pushed and the live status (R161, R180). -/
theorem exec_setFlag_of_php_or_brk {i : Instr} {f : Flag} (hi : i.mnemonic ∈ [.php, .brk]) (hf : f ∈ [.b, .u])
    (s : State) (v : Bool) : exec i (s.setFlag f v) = exec i s := by
  obtain rfl | rfl : i = .php ∨ i = .brk := eq_or_eq_of_mnemonic_mem hi (by decide) (by decide)
  · refine next_runInstr_setFlag_hidden s fun r => ?_
    rw [State.setFlag_p, statusWithBreak_putFlag_of_forced hf, statusLive_putFlag_of_forced hf]
    rfl
  · exact next_runInstr_setFlag_hidden s fun r => interruptEntry_setFlag_of_forced hf _ _ (r.setPc (r.pc + 1)) v

/-! ### The obligation -/

/-- Settles O56: it holds. A flag write commutes with every instruction that neither writes nor copies the flag, is
hidden by one that overwrites it, and for D reaches the one status byte that PHP and BRK push. -/
theorem decimalBreakUnusedReachOnlyStatusCopies : Obligations.DecimalBreakUnusedReachOnlyStatusCopies := by
  refine ⟨?other, ?setClearD, ?_, ?_, ?_, ?copied⟩
  case other =>
    intro i s t f v hf hi
    have hboth : i.mnemonic ∉ [Mnemonic.sed, .cld] ++ [.plp, .rti, .php, .brk] := hi
    rw [List.mem_append, not_or] at hboth
    obtain ⟨hsetClear, hcopy⟩ := hboth
    exact exec_setFlag v hf hcopy fun h => absurd h hsetClear
  case setClearD =>
    intro i s t f v hf hi
    refine exec_setFlag v (List.mem_cons_of_mem _ hf) ?_ (fun _ hd => absurd (hd ▸ hf) (by decide))
    obtain rfl | rfl : i = .sed ∨ i = .cld := eq_or_eq_of_mnemonic_mem hi (by decide) (by decide) <;> decide
  · exact fun i s v hi => exec_setFlag_d_of_sed_or_cld hi s v
  · exact fun i s f v _ hi => exec_setFlag_of_plp_or_rti hi s f v
  · exact fun i s f v hf hi => exec_setFlag_of_php_or_brk hi hf s v
  case copied =>
    intro i s t v slot hslot ht
    simp only [List.mem_cons, List.not_mem_nil, or_false, Prod.mk.injEq] at hslot
    obtain ⟨rfl, rfl⟩ | ⟨rfl, rfl⟩ := hslot
    · exact exec_setFlag_d_of_copiesD (fun _ => rfl) ht (phpPush_copiesD (s.setFetched s.a) v)
    · exact exec_setFlag_d_of_copiesD (fun _ => rfl) ht
        (interruptEntry_copiesD params.irqVector (by decide) (by decide) 0 ((s.setFetched s.a).setPc (s.pc + 1)) v)

end Sys2Proof.Machine
end

section
/-! PROOFS. What an instruction leaves unchanged (10_state.md R11, R13, R15, R21, R26, 20_memory.md R48). An
instruction is its resolver, then its handler, then the extra cycle, so that what a handler keeps, the instruction keeps
as the resolver left it. -/

namespace Sys2Proof.Machine

/-! ### From a handler to the instruction -/

section
variable {o : Operand} {g : Bool} {handler : State → State} {s t : State}

/-- A property of the state after the resolver that the handler keeps, and that does not speak of the countdown, holds
after the instruction. -/
theorem next_runInstr_induction {P : State → Prop} (h : (.next (runInstr o g handler s) : Result) = .next t)
    (hcycles : ∀ r n, P r → P (r.setCycles n)) (hhandler : ∀ r, P r → P (handler r)) (hres : P (resolve o s)) :
    P t := by
  cases h
  exact hcycles _ _ (hhandler _ hres)

/-- What the handler leaves alone is as the resolver left it. -/
theorem next_runInstr_keeps {α : Type} {φ : State → α} (h : (.next (runInstr o g handler s) : Result) = .next t)
    (hcycles : ∀ r n, φ (r.setCycles n) = φ r) (hhandler : ∀ r, φ (handler r) = φ r) :
    φ t = φ (resolve o s) :=
  next_runInstr_induction (P := fun r => φ r = φ (resolve o s)) h (fun r n hr => (hcycles r n).trans hr)
    (fun r hr => (hhandler r).trans hr) rfl

end

/-! ### Registers, flags, program counter and memory change only by their writers -/

/-- A register outside `regWriters` of the instruction is as before (R11, R13). -/
theorem exec_reg {i : Instr} {s t : State} {r : Reg} (h : exec i s = .next t) (hi : i.mnemonic ∉ regWriters r) :
    t.reg r = s.reg r := by
  have hres : (resolve i.operand s).reg r = s.reg r := by cases r <;> simp [State.reg]
  refine Eq.trans ?_ hres
  cases i <;> refine next_runInstr_keeps (φ := fun q => q.reg r) h (fun _ _ => rfl) fun q => ?_
  all_goals cases r
  case lda.a | adc.a | sbc.a | and.a | ora.a | eor.a | pla.a | txa.a | tya.a | asl.a | lsr.a | rol.a | ror.a
    | ldx.x | tax.x | tsx.x | inx.x | dex.x | ldy.y | tay.y | iny.y | dey.y
    | pha.sp | php.sp | pla.sp | plp.sp | jsr.sp | rts.sp | brk.sp | rti.sp | txs.sp =>
    exact absurd (of_decide_eq_true rfl) hi
  all_goals simp [State.reg, interruptEntry_fields]

/-- A flag outside `flagWriters` of the instruction is as before (R21). -/
theorem exec_flag {i : Instr} {s t : State} {f : Flag} (h : exec i s = .next t) (hi : i.mnemonic ∉ flagWriters f) :
    t.flag f = s.flag f := by
  have hne : ∀ g, decide (i.mnemonic ∈ flagWriters g) = true → f ≠ g := fun g hg e => hi (e ▸ of_decide_eq_true hg)
  refine Eq.trans ?_ (resolve_flag i.operand s f)
  cases i <;> refine next_runInstr_keeps (φ := fun q => q.flag f) h (fun _ _ => rfl) fun q => ?_
  case plp | rti => cases f <;> exact absurd (by decide) hi
  case php => simp [hne .b rfl, hne .u rfl]
  case brk => simp [interruptEntry_flag, hne .i rfl, hne .b rfl, hne .u rfl]
  case clc | sec => simp [hne .c rfl]
  case cld | sed => simp [hne .d rfl]
  case cli | sei => simp [hne .i rfl]
  case clv => simp [hne .v rfl]
  case adc | sbc => simp [hne .c rfl, hne .z rfl, hne .n rfl, hne .v rfl]
  case bit => simp [hne .z rfl, hne .n rfl, hne .v rfl]
  case asl | lsr | rol | ror | cmp | cpx | cpy =>
    simp [hne .c rfl, hne .z rfl, hne .n rfl]
  case lda | ldx | ldy | and | ora | eor | inc | dec | inx | iny | dex | dey | pla | tax | txa | tay | tya | tsx =>
    simp [hne .z rfl, hne .n rfl]
  case sta | stx | sty | bcc | bcs | beq | bne | bmi | bpl | bvc | bvs | jmp | jsr | rts | pha | txs | nop | ill =>
    simp

/-- The writers of the program counter are those of R15; past any other instruction it is at the next one. -/
theorem exec_pc {i : Instr} {s t : State} (h : exec i s = .next t) (hi : i.mnemonic ∉ pcWriters) :
    t.pc = s.pc + BitVec.ofNat 16 i.operand.mode.operandBytes := by
  refine Eq.trans ?_ (resolve_pc i.operand s)
  cases i <;> refine next_runInstr_keeps h (fun _ _ => rfl) fun q => ?_
  case bcc | bcs | beq | bne | bmi | bpl | bvc | bvs | jmp | jsr | rts | brk | rti =>
    exact absurd (of_decide_eq_true rfl) hi
  all_goals simp

/-- Only the instructions of 20_memory.md R48 with a write change memory. -/
theorem exec_mem {i : Instr} {s t : State} (h : exec i s = .next t) (hi : i.mnemonic ∉ memoryWriters) :
    t.mem = s.mem := by
  refine Eq.trans ?_ (resolve_mem i.operand s)
  cases i <;> refine next_runInstr_keeps h (fun _ _ => rfl) fun q => ?_
  case sta | stx | sty | asl | lsr | rol | ror | inc | dec | pha | php | jsr | brk =>
    exact absurd (of_decide_eq_true rfl) hi
  all_goals simp

/-! ### `fetched` -/

/-- `Fetch()` is called by the handlers that R93 lists; the others leave `fetched` as the resolver did. -/
theorem exec_fetched_of_not_fetcher {i : Instr} {s t : State} (h : exec i s = .next t)
    (hi : i.mnemonic ∉ operandFetchers) : t.fetched = if i.operand = .imp then s.a else s.fetched := by
  refine Eq.trans ?_ (resolve_fetched i.operand s)
  cases i <;> refine next_runInstr_keeps h (fun _ _ => rfl) fun q => ?_
  case lda | ldx | ldy | adc | sbc | and | ora | eor | bit | cmp | cpx | cpy | asl | lsr | rol | ror | inc | dec =>
    exact absurd (of_decide_eq_true rfl) hi
  all_goals simp [interruptEntry_fields]

/-- The handlers of R93 leave the operand byte in `fetched`. -/
theorem exec_fetched_of_fetcher {i : Instr} {s t : State} (h : exec i s = .next t)
    (hi : i.mnemonic ∈ operandFetchers) : t.fetched = operandByte i.operand s := by
  refine Eq.trans ?_ (fetch_resolve_fetched i.operand s)
  cases i
  case lda | ldx | ldy | adc | sbc | and | ora | eor | bit | cmp | cpx | cpy | asl | lsr | rol | ror | inc | dec =>
    cases h
    simp [Instr.operand]
  all_goals exact absurd hi (of_decide_eq_true rfl)

/-- Settles O28: it holds, by whether the handler calls `Fetch()`; in Implied mode the operand byte is A itself. -/
theorem fetchedHoldsTheOperandByte : Obligations.FetchedHoldsTheOperandByte := by
  intro i s t h
  by_cases hi : i.mnemonic ∈ operandFetchers
  · rw [exec_fetched_of_fetcher h hi, if_pos hi]
    split
    · next ho => rw [ho]; rfl
    · rfl
  · rw [exec_fetched_of_not_fetcher h hi, if_neg hi]

/-! ### The countdown and the canonical memory -/

/-- An instruction adds its extra cycles to the base count and nothing else (R95, R140). -/
theorem exec_cycles {i : Instr} {s t : State} (h : exec i s = .next t) :
    t.cycles = s.cycles + extraCycles i s := by
  cases i <;> cases h
  case bcc | bcs | beq | bne | bmi | bpl | bvc | bvs =>
    simp [extraCycles, branchTarget, pageCross, resolve_addrRel, Operand.mode, Mode.operandBytes]
  case nop => simp [extraCycles, pageCross]
  all_goals simp [extraCycles, interruptEntry_fields]

/-- The most cycles an instruction can take beyond its base count: a page cross, or a taken branch to another page
(R95, R140). -/
def maxExtraCycles : Mnemonic → Nat
  | .lda | .ldx | .ldy | .adc | .sbc | .and | .ora | .eor | .cmp => 1
  | .bcc | .bcs | .beq | .bne | .bmi | .bpl | .bvc | .bvs => 2
  | _ => 0

/-- A branch taken costs one or two cycles, a page cross one (R95, R140). -/
theorem extraCycles_le (i : Instr) (s : State) : extraCycles i s ≤ maxExtraCycles i.mnemonic := by
  have htaken : ∀ (taken : Bool) (d : Byte),
      (if taken then (if hi8 (s.pc + 1 + sext16 d) = hi8 (s.pc + 1) then 1 else 2) else 0) ≤ 2 := by
    intro taken d
    split_ifs <;> decide
  cases i
  case lda | ldx | ldy | adc | sbc | and | ora | eor | cmp => exact Bool.toNat_le _
  case bcc | bcs | beq | bne | bmi | bpl | bvc | bvs => exact htaken _ _
  all_goals exact Nat.le_refl 0

/-- The opcode table beside the table of R244: the slowest opcodes, with the extra cycles they can take, last 7
cycles. -/
theorem tableRow_cycles_le :
    ∀ row ∈ opcodeMatrix.zip baseCycleMatrix, row.2 + maxExtraCycles row.1.mnemonic ≤ 7 := by
  decide +kernel

theorem opcodeMatrix_length : opcodeMatrix.length = 256 := by decide +kernel

theorem baseCycleMatrix_length : baseCycleMatrix.length = 256 := by decide +kernel

theorem params_baseCycles_add_maxExtraCycles_le (op : Byte) :
    params.baseCycles op + maxExtraCycles (descriptor op).mnemonic ≤ 7 := by
  have hop : op.toNat < opcodeMatrix.length := opcodeMatrix_length ▸ op.isLt
  have hop' : op.toNat < baseCycleMatrix.length := baseCycleMatrix_length ▸ op.isLt
  have hzip : op.toNat < (opcodeMatrix.zip baseCycleMatrix).length := List.length_zip ▸ lt_min hop hop'
  have hrow := tableRow_cycles_le _ (List.getElem_mem hzip)
  rw [List.getElem_zip] at hrow
  have hparam : params.baseCycles op = baseCycleMatrix.getD op.toNat 0 := rfl
  rwa [hparam, descriptor, List.getD_eq_getElem _ _ hop, List.getD_eq_getElem _ _ hop']

theorem baseCycles_add_maxExtraCycles_le (op : Byte) :
    baseCycles op + maxExtraCycles (descriptor op).mnemonic ≤ 7 := by
  unfold baseCycles
  split
  · next hop =>
    rw [descriptor_of_illegal op (List.contains_iff_mem.mp hop)]
    exact Nat.le_add_left 2 5
  · exact params_baseCycles_add_maxExtraCycles_le op

theorem baseCycles_add_extraCycles_le (op b1 b2 : Byte) (s : State) :
    baseCycles op + extraCycles (instrOf op b1 b2) s ≤ 7 :=
  calc baseCycles op + extraCycles (instrOf op b1 b2) s
    _ ≤ baseCycles op + maxExtraCycles (descriptor op).mnemonic :=
      Nat.add_le_add_left (instrOf_mnemonic op b1 b2 ▸ extraCycles_le _ s) _
    _ ≤ 7 := baseCycles_add_maxExtraCycles_le op

/-- A write at a bus address keeps the canonical form. -/
theorem Memory.write_addr_wf {m : Memory} (a : Addr) (v : Byte) (hm : m.wf = true) : (m.write a.toNat v).wf = true :=
  Memory.write_wf v a.isLt hm

theorem interruptEntry_mem_wf (vec : Addr) (lat : Nat) (brk : Bool) {s : State} (hs : s.mem.wf = true) :
    (interruptEntry vec lat brk s).mem.wf = true := by
  rw [interruptEntry_mem]
  exact Memory.write_addr_wf _ _ (Memory.write_addr_wf _ _ (Memory.write_addr_wf _ _ hs))

/-- Every bus write is at a 16-bit address (20_memory.md R40), so that memory stays canonical. -/
theorem exec_mem_wf {i : Instr} {s t : State} (h : exec i s = .next t) (hs : s.mem.wf = true) :
    t.mem.wf = true := by
  have hres : (resolve i.operand s).mem.wf = true := by rwa [resolve_mem]
  cases i <;> refine next_runInstr_induction (P := fun r => r.mem.wf = true) h (fun _ _ => id) (fun r hr => ?_) hres
  case sta | stx | sty | pha | php | inc | dec => simpa using Memory.write_addr_wf _ _ hr
  case jsr => simpa using Memory.write_addr_wf _ _ (Memory.write_addr_wf _ _ hr)
  case asl | lsr | rol | ror =>
    rw [shiftResult_mem, fetch_mem]
    split
    · exact hr
    · exact Memory.write_addr_wf _ _ hr
  case brk => exact interruptEntry_mem_wf _ _ _ hr
  all_goals simpa using hr

end Sys2Proof.Machine
end

section
/-! PROOFS. What one tick changes, from what an entry and an instruction change. -/

namespace Sys2Proof.Machine

/-- The three kinds of tick: an idle one, an entry through either vector, and an instruction (30_encoding.md R70,
60_exceptions.md R206). -/
theorem step_outcomes {s t : State} (h : step s = .next t) :
    (s.cycles ≠ 0 ∧ t = countDown (s.setBus [])) ∨
    (s.cycles = 0 ∧ takesInterrupt s = true ∧ ∃ vec lat irq nmi, lat ≤ maxWindow ∧
      t = countDown (interruptEntry vec lat false (((s.setBus []).setIrq irq).setNmi nmi))) ∨
    (s.cycles = 0 ∧ takesInterrupt s = false ∧
      ∃ u, exec s.nextInstr (beginInstr ((s.setBus []).setIrq false)) = .next u ∧ t = countDown u) := by
  obtain hidle | ⟨hc, hn, ht⟩ | ⟨hc, hn, hq, hi, ht⟩ | ⟨hc, hn, hq, hu⟩ := step_cases h
  · exact .inl hidle
  · exact .inr (.inl ⟨hc, by simp [takesInterrupt, hn], _, _, s.irqPending, false, by decide, ht⟩)
  · exact .inr (.inl ⟨hc, by simp [takesInterrupt, hq, hi], _, _, false, s.nmiPending, by decide, ht⟩)
  · exact .inr (.inr ⟨hc, by rw [takesInterrupt, hn, hq]; rfl, hu⟩)

theorem countDown_inv {s : State} (h : s.Inv) : (countDown s).Inv :=
  ⟨h.memory, (Nat.sub_le _ _).trans h.countdown⟩

/-- Settles O10: it holds, by the three kinds of tick: every write is at a 16-bit address, and neither an entry nor an
instruction loads more than `maxWindow`. -/
theorem stepKeepsInvariant : Obligations.StepKeepsInvariant := by
  intro s t hs h
  obtain ⟨-, rfl⟩ | ⟨-, -, vec, lat, irq, nmi, hlat, rfl⟩ | ⟨-, -, u, hu, rfl⟩ := step_outcomes h <;>
    refine countDown_inv ⟨?_, ?_⟩
  · exact hs.memory
  · exact hs.countdown
  · exact interruptEntry_mem_wf _ _ _ (by simpa using hs.memory)
  · simpa [interruptEntry_fields] using hlat
  · exact exec_mem_wf hu (by simpa using hs.memory)
  · rw [exec_cycles hu, beginInstr_cycles]
    exact (baseCycles_add_extraCycles_le _ _ _ _).trans (by decide)

/-- A tick changes a register only by an entry, which moves SP, or by one of the register's writers (R11, R13). -/
theorem step_reg {s t : State} {r : Reg} (h : step s = .next t) (hne : t.reg r ≠ s.reg r) :
    s.cycles = 0 ∧ if takesInterrupt s then r = .sp else s.nextInstr.mnemonic ∈ regWriters r := by
  obtain ⟨-, rfl⟩ | ⟨hc, hi, vec, lat, irq, nmi, -, rfl⟩ | ⟨hc, hi, u, hu, rfl⟩ := step_outcomes h
  · exact absurd (by cases r <;> rfl) hne
  · refine ⟨hc, ?_⟩
    rw [hi, if_pos rfl]
    cases r
    case sp => rfl
    all_goals exact absurd (by simp [State.reg, interruptEntry_fields]) hne
  · refine ⟨hc, ?_⟩
    rw [hi, if_neg Bool.false_ne_true]
    by_contra hw
    refine hne ((exec_reg hu hw : u.reg r = _).trans ?_)
    cases r <;> simp [State.reg]

/-- A tick changes a flag only by an entry, which writes I, B and U, or by one of the flag's writers (R21, R204). -/
theorem step_flag {s t : State} {f : Flag} (h : step s = .next t) (hne : t.flag f ≠ s.flag f) :
    s.cycles = 0 ∧ if takesInterrupt s then f ∈ [.i, .b, .u] else s.nextInstr.mnemonic ∈ flagWriters f := by
  obtain ⟨-, rfl⟩ | ⟨hc, hi, vec, lat, irq, nmi, -, rfl⟩ | ⟨hc, hi, u, hu, rfl⟩ := step_outcomes h
  · exact absurd rfl hne
  · refine ⟨hc, ?_⟩
    rw [hi, if_pos rfl]
    rw [countDown_flag, interruptEntry_flag] at hne
    cases f
    case i | b | u => decide
    all_goals exact absurd (by simp) hne
  · refine ⟨hc, ?_⟩
    rw [hi, if_neg Bool.false_ne_true]
    by_contra hw
    exact hne ((exec_flag hu hw : u.flag f = _).trans (by simp))

/-- Settles O57: it holds, by the three kinds of tick and the writers of each instruction. -/
theorem flagsAndRegistersChangeOnlyByTheirWriters : Obligations.FlagsAndRegistersChangeOnlyByTheirWriters :=
  fun _ _ h => ⟨fun _ => step_flag h, fun _ => step_reg h⟩

/-- A tick changes memory only by an entry or by an instruction that stores (R48). -/
theorem step_mem {s t : State} (h : step s = .next t) (hne : t.mem ≠ s.mem) :
    s.cycles = 0 ∧ (takesInterrupt s = true ∨ s.nextInstr.mnemonic ∈ memoryWriters) := by
  obtain ⟨-, rfl⟩ | ⟨hc, hi, -⟩ | ⟨hc, -, u, hu, rfl⟩ := step_outcomes h
  · exact absurd rfl hne
  · exact ⟨hc, .inl hi⟩
  · refine ⟨hc, .inr ?_⟩
    by_contra hw
    exact hne ((exec_mem hu hw : u.mem = _).trans (by simp))

/-- From one boundary to the byte after the instruction: the opcode and its operand bytes (10_state.md R14, R60). -/
theorem step_pc {s t : State} (h : step s = .next t) (hc : s.cycles = 0) (hi : takesInterrupt s = false)
    (hw : s.nextInstr.mnemonic ∉ pcWriters) : t.pc = s.pc + BitVec.ofNat 16 s.nextInstr.length := by
  obtain ⟨hc', -⟩ | ⟨-, hi', -⟩ | ⟨-, -, u, hu, rfl⟩ := step_outcomes h
  · exact absurd hc hc'
  · exact absurd (hi'.symm.trans hi) (by decide)
  · rw [countDown_pc, exec_pc hu hw, beginInstr_pc, Instr.length, BitVec.ofNat_add, BitVec.add_assoc]
    rfl

/-- Settles O58: it holds, by the three kinds of tick and the writers of each instruction. -/
theorem pcAndMemoryChangeOnlyByTheirWriters : Obligations.PcAndMemoryChangeOnlyByTheirWriters :=
  fun _ _ h => ⟨step_pc h, step_mem h⟩

end Sys2Proof.Machine
end

section
/-! PROOFS. Time inside a window, and the host's operations (10_state.md R26 to R32, 60_exceptions.md R202, R203, R209,
R217, 70_reset_and_hazards.md R230, R231). -/

namespace Sys2Proof.Machine

/-! ### Inside a window -/

/-- Idle ticks only count down; the first of them has already started the record of bus calls anew. -/
theorem run_idle {s : State} (hbus : s.bus = []) (k : Nat) (hk : k ≤ s.cycles) :
    Host.Core.run Sys2Proof.core k s = .next (s.setCycles (s.cycles - k)) := by
  induction k generalizing s with
  | zero => rfl
  | succ k ih =>
    have hs : s.setBus [] = s := by rw [← hbus]; rfl
    rw [run_succ (step_idle (by omega)), hs, ih (s := countDown s) hbus (by rw [countDown_cycles]; omega),
      countDown_cycles, Nat.sub_sub, Nat.add_comm 1 k]
    rfl

/-- Settles O9: it holds. The first tick clears the record of bus calls, the others are `run_idle`. -/
theorem windowLastsItsCountdown : Obligations.WindowLastsItsCountdown := by
  intro s hs
  refine ⟨hs.countdown, fun k hk hle => ?_⟩
  obtain ⟨j, rfl⟩ := Nat.exists_eq_add_of_le' hk
  rw [run_succ (step_idle (by omega)), run_idle rfl j (by rw [countDown_cycles, State.setBus_cycles]; omega),
    countDown_cycles, State.setBus_cycles, Nat.sub_sub, Nat.add_comm 1 j]
  rfl

/-! ### Reset -/

/-- The values of the table of R31; memory is the bus's own and stays. -/
theorem resetFrom_fields (m : Memory) (l : List Byte) :
    (resetFrom m l).a = 0 ∧ (resetFrom m l).x = 0 ∧ (resetFrom m l).y = 0 ∧ (resetFrom m l).sp = params.spReset ∧
    (resetFrom m l).p = 0x20 ∧ (resetFrom m l).fetched = 0 ∧ (resetFrom m l).addrAbs = 0 ∧
    (resetFrom m l).addrRel = 0 ∧ (resetFrom m l).opcode = 0 ∧ (resetFrom m l).cycles = params.resetCycles ∧
    (resetFrom m l).irqPending = false ∧ (resetFrom m l).nmiPending = false ∧ (resetFrom m l).mem = m ∧
    (resetFrom m l).answers = l.drop 2 := by
  simp [resetFrom]

/-- The program counter is the little-endian word the bus answers at the reset vector (R230). -/
theorem resetFrom_pc_toNat (m : Memory) (l : List Byte) :
    (resetFrom m l).pc.toNat = (l.getD 0 (m.read params.resetVector.toNat)).toNat +
      256 * (l.getD 1 (m.read (params.resetVector + 1).toNat)).toNat := by
  rw [Nat.add_comm, Nat.mul_comm]
  exact joinBytes_toNat _ _

/-- The two vector reads, low byte first (R230). -/
theorem resetFrom_bus_access (m : Memory) (l : List Byte) :
    (resetFrom m l).bus.map accessOf = [.read params.resetVector, .read (params.resetVector + 1)] := rfl

theorem resetFrom_inv {m : Memory} (l : List Byte) (hm : m.wf = true) : (resetFrom m l).Inv :=
  ⟨hm, Nat.le_refl maxWindow⟩

theorem resetFrom_nil : resetFrom [] [] = State.reset := rfl

/-- Settles O11: it holds, as a reset on empty memory. -/
theorem resetMeetsInvariant : Obligations.ResetMeetsInvariant :=
  ⟨resetFrom_nil ▸ resetFrom_inv [] rfl, rfl⟩

/-- Settles O22: it holds, field by field of `resetFrom`. -/
theorem resetGivesTheStatedValues : Obligations.ResetGivesTheStatedValues := by
  refine ⟨fun d => ⟨resetFrom (deviceMem d) (deviceAnswers d), rfl, ?_⟩, rfl⟩
  obtain ⟨ha, hx, hy, hsp, hp, hfetched, habs, hrel, hop, hcycles, hirq, hnmi, hmem, hanswers⟩ :=
    resetFrom_fields (deviceMem d) (deviceAnswers d)
  exact ⟨ha, hx, hy, hsp, hp, resetFrom_pc_toNat _ _, hfetched, habs, hrel, hop, hcycles, hirq, hnmi, hmem, hanswers,
    resetFrom_bus_access _ _⟩

/-! ### The request operations -/

/-- With the default `REQUEST_ONLY_AT_BOUNDARY` a request is never refused (R203, R209). -/
theorem requestInterrupt_eq (s : State) : requestInterrupt s = .next (s.setIrq true) := rfl

theorem requestNonmaskable_eq (s : State) : requestNonmaskable s = .next (s.setNmi true) := rfl

/-- Settles O25: it holds, because a request is the setting of its latch whatever the countdown is. -/
theorem requestsOnlySetTheirLatch : Obligations.RequestsOnlySetTheirLatch := by
  intro s
  refine ⟨requestInterrupt_eq s, requestNonmaskable_eq s, rfl, rfl, fun e he => ?_⟩
  have hboth : e = .running ((s.setIrq true).setNmi true) := (Host.Outcome.next.inj he).symm
  rw [hboth]
  rfl

/-! ### Sequences of host operations -/

/-- Settles O24: it holds, by the four operations. -/
theorem neverResetCoreAdmitsOnlyReset : Obligations.NeverResetCoreAdmitsOnlyReset := by
  intro m l op ops
  have hrefused : op ≠ .reset → hostOp op (.unreset m l) = .refused .neverReset := by
    cases op with
    | reset => exact fun h => absurd rfl h
    | tick | requestInterrupt | requestNonmaskable => exact fun _ => rfl
  refine ⟨rfl, hrefused, ⟨_, rfl⟩, fun e he => ?_⟩
  by_contra hop
  rw [hostOps, hrefused hop] at he
  cases he

/-- An answer about a running core is the answer of its operation. -/
theorem eq_next_of_runningResult {r : Result} {e : Device} (h : runningResult r = .next e) :
    ∃ t, r = .next t ∧ e = .running t := by
  cases r with
  | next t => exact ⟨t, rfl, (Host.Outcome.next.inj h).symm⟩
  | fault f => cases h
  | refused f => cases h

/-- Reset keeps memory and loads the largest countdown, a tick is O10, and a request touches neither. -/
theorem hostOp_inv {op : HostOp} {d e : Device} (hd : d.Inv) (h : hostOp op d = .next e) : e.Inv := by
  cases d with
  | unreset m l =>
    cases op <;> cases h
    exact resetFrom_inv l hd
  | running s =>
    cases op with
    | reset =>
      cases h
      exact resetFrom_inv s.answers hd.memory
    | tick =>
      obtain ⟨t, ht, rfl⟩ := eq_next_of_runningResult h
      exact stepKeepsInvariant s t hd ht
    | requestInterrupt | requestNonmaskable =>
      cases h
      exact ⟨hd.memory, hd.countdown⟩

theorem hostOps_cons {op : HostOp} {ops : List HostOp} {d e : Device} (h : hostOps (op :: ops) d = .next e) :
    ∃ d', hostOp op d = .next d' ∧ hostOps ops d' = .next e := by
  rw [hostOps] at h
  split at h
  · next d' hd' => exact ⟨d', hd', h⟩
  · cases h
  · cases h

/-- Settles O12: it holds, by induction on the list of operations. -/
theorem hostOperationsKeepInvariant : Obligations.HostOperationsKeepInvariant := by
  intro ops
  induction ops with
  | nil =>
    intro d e hd h
    cases h
    exact hd
  | cons op ops ih =>
    intro d e hd h
    obtain ⟨d', hop, hrest⟩ := hostOps_cons h
    exact ih d' e (hostOp_inv hd hop) hrest

end Sys2Proof.Machine
end

section
/-! PROOFS. The stack page (10_state.md R13, 40_addressing_modes.md R96, R97). -/

namespace Sys2Proof.Machine

theorem stackAddr_mem_page (sp : Byte) : 256 ≤ (stackAddr sp).toNat ∧ (stackAddr sp).toNat ≤ 0x1FF := by
  have := sp.isLt
  rw [stackAddr_toNat]
  omega

theorem State.push_mem_read (s : State) (v : Byte) (n : Nat) :
    (s.push v).mem.read n = if n = 256 + s.sp.toNat then v else s.mem.read n := by
  rw [State.push_mem, Memory.read_write, stackAddr_toNat]

theorem State.push_sp_toNat (s : State) (v : Byte) : (s.push v).sp.toNat = (s.sp.toNat + 255) % 256 := by
  rw [State.push_sp]
  bv_omega

theorem State.pop_sp_toNat (s : State) : s.pop.sp.toNat = (s.sp.toNat + 1) % 256 := by
  rw [State.pop_sp]
  bv_omega

theorem State.popValue_eq (s : State) :
    s.popValue = s.answerAt 0 (BitVec.ofNat 16 (256 + (s.sp.toNat + 1) % 256)) := by
  rw [State.popValue, stackAddr_eq_ofNat, BitVec.toNat_add]
  rfl

/-- Settles O59: it holds. The writers of SP are those of O57's `step_reg`; the rest is push and pop as numbers. -/
theorem stackStaysInItsPage : Obligations.StackStaysInItsPage := by
  refine ⟨fun s v => ?pushPop, fun s t h hne => ?spWriters, fun s => ?transfers⟩
  case pushPop =>
    refine ⟨stackAddr_mem_page s.sp, ?_, s.push_sp_toNat v, fun n hn => ?_, s.popValue_eq, s.pop_sp_toNat, s.pop_mem,
      fun h0 => ⟨?_, ?_⟩, fun hff => ⟨?_, ?_⟩⟩
    · rw [State.push_mem_read, if_pos rfl]
    · rw [State.push_mem_read, if_neg hn]
    · rw [State.push_sp, h0]; rfl
    · rw [State.push_mem_read, h0]; rfl
    · rw [State.pop_sp, hff]; rfl
    · rw [State.popValue_eq, hff]; rfl
  case spWriters =>
    obtain ⟨hc, hw⟩ := step_reg (r := .sp) h hne
    refine ⟨hc, ?_⟩
    cases hi : takesInterrupt s
    · rw [hi] at hw
      exact .inr hw
    · exact .inl rfl
  case transfers => exact ⟨⟨_, rfl, rfl, rfl⟩, ⟨_, rfl, rfl⟩, rfl⟩

end Sys2Proof.Machine
end

section
/-! PROOFS. The bus calls of an operation (20_memory.md R41, R42, R46, R48): which calls it makes, in order, how many
answers they use up, and that memory and answers after it are what its calls make of those before it. Each of the
operations on the bus appends its own calls; an instruction is its resolver, then its handler. -/

namespace Sys2Proof.Machine

/-! ### Replay -/

theorem readBytes_append (calls calls' : List BusCall) :
    readBytes (calls ++ calls') = readBytes calls ++ readBytes calls' := List.filterMap_append

theorem replay_append {calls : List BusCall} (calls' : List BusCall) {l l' : List Byte} {m m' : Memory}
    (h : replay calls l m = some (m', l')) : replay (calls ++ calls') l m = replay calls' l' m' := by
  induction calls generalizing l m with
  | nil => cases h; rfl
  | cons call calls ih =>
    cases call with
    | read a v =>
      simp only [replay, List.cons_append] at h ⊢
      split at h
      · next hv => rw [if_pos hv]; exact ih h
      · cases h
    | write a v => exact ih h

/-- A read replays when it carries what the bus answers to it. -/
theorem replay_answer (s : State) (a : Addr) :
    replay [.read a (s.answerAt 0 a)] s.answers s.mem = some (s.mem, s.answers.drop 1) := by
  have hv : s.answers.headD (s.mem.read a.toNat) = s.answerAt 0 a := by
    cases hl : s.answers <;> simp [State.answerAt, State.peek, hl]
  rw [replay, if_pos hv, List.drop_one, replay]

/-! ### What one operation after another does on the bus -/

/-- From `s` to `t` exactly the calls `acc` are made, each read uses one answer up, and, if the operand bytes are those
the bus answered, memory and answers are the replay of the calls. -/
def Makes (answered : Prop) (acc : List Access) (s t : State) : Prop :=
  ∃ calls, t.bus = s.bus ++ calls ∧ calls.map accessOf = acc ∧
    t.answers = s.answers.drop (readBytes calls).length ∧
    (answered → replay calls s.answers s.mem = some (t.mem, t.answers))

namespace Makes

variable {answered : Prop} {acc acc' : List Access} {s t u : State}

theorem refl (s : State) : Makes answered [] s s := ⟨[], by simp, rfl, rfl, fun _ => rfl⟩

theorem trans (h : Makes answered acc s t) (h' : Makes answered acc' t u) : Makes answered (acc ++ acc') s u := by
  obtain ⟨calls, hbus, hacc, hanswers, hreplay⟩ := h
  obtain ⟨calls', hbus', hacc', hanswers', hreplay'⟩ := h'
  refine ⟨calls ++ calls', ?_, ?_, ?_, fun ho => ?_⟩
  · rw [hbus', hbus, List.append_assoc]
  · rw [List.map_append, hacc, hacc']
  · rw [hanswers', hanswers, List.drop_drop, readBytes_append, List.length_append]
  · rw [replay_append calls' (hreplay ho), hreplay' ho]

/-- A step away from the bus, and a change of spelling. -/
theorem quiet (h : Makes answered acc s t) (hacc : acc = acc') (hbus : u.bus = t.bus) (hanswers : u.answers = t.answers)
    (hmem : u.mem = t.mem) : Makes answered acc' s u := by
  unfold Makes at h ⊢
  rwa [hbus, hanswers, hmem, ← hacc]

/-- What is to be assumed of the operand bytes, assumed by something that says it. -/
theorem imp {answered' : Prop} (h : Makes answered acc s t) (himp : answered' → answered) : Makes answered' acc s t := by
  obtain ⟨calls, hbus, hacc, hanswers, hreplay⟩ := h
  exact ⟨calls, hbus, hacc, hanswers, hreplay ∘ himp⟩

/-- The replay of a record that starts anew. -/
theorem replay_bus (h : Makes answered acc s t) (hs : s.bus = []) (ha : answered) :
    replay t.bus s.answers s.mem = some (t.mem, t.answers) := by
  obtain ⟨calls, hbus, -, -, hreplay⟩ := h
  rw [hbus, hs, List.nil_append]
  exact hreplay ha

/-- `MemRead` of a byte that decoding has read before (R41). -/
theorem recordRead (h : Makes answered acc s t) (a : Addr) {b : Byte} (hb : answered → b = t.answerAt 0 a) :
    Makes answered (acc ++ [.read a]) s (t.recordRead a b) :=
  h.trans ⟨[.read a b], rfl, rfl, rfl, fun ho => hb ho ▸ replay_answer t a⟩

/-- `MemRead` (R41). -/
theorem noteRead (h : Makes answered acc s t) (a : Addr) : Makes answered (acc ++ [.read a]) s (t.noteRead a) :=
  h.recordRead a fun _ => rfl

/-- `MemWrite` (R42). -/
theorem store (h : Makes answered acc s t) (a : Addr) (v : Byte) :
    Makes answered (acc ++ [.write a]) s (t.store a v) :=
  h.trans ⟨[.write a v], rfl, rfl, rfl, fun _ => rfl⟩

/-- `Push` (40_addressing_modes.md R96). -/
theorem push (h : Makes answered acc s t) (v : Byte) :
    Makes answered (acc ++ [.write (stackAddr t.sp)]) s (t.push v) :=
  h.store _ v

/-- `Pop` (40_addressing_modes.md R97). -/
theorem pop (h : Makes answered acc s t) : Makes answered (acc ++ [.read (stackAddr (t.sp + 1))]) s t.pop :=
  (h.quiet (u := t.setSp (t.sp + 1)) rfl rfl rfl rfl).noteRead _

/-- `FetchPC` of an operand byte (40_addressing_modes.md R80). -/
theorem takeByte (h : Makes answered acc s t) {b : Byte} (hb : answered → b = t.answerAt 0 t.pc) :
    Makes answered (acc ++ [.read t.pc]) s (t.takeByte b) :=
  h.recordRead _ hb

/-- `WriteBack` (40_addressing_modes.md R94). -/
theorem writeBack (h : Makes answered acc s t) (o : Operand) (v : Byte) :
    Makes answered (acc ++ if o = .imp then [] else [.write t.addrAbs]) s (writeBack o v t) := by
  by_cases ho : o = .imp
  · subst ho
    exact h.quiet (by simp) rfl rfl rfl
  · rw [if_neg ho, writeBack_memory ho]
    exact h.store _ v

/-- The end of the shifts and rotates (43_shift_rotate.md R120 to R123). -/
theorem shiftResult (h : Makes answered acc s t) (o : Operand) (carry : Bool) (v : Byte) :
    Makes answered (acc ++ if o = .imp then [] else [.write t.addrAbs]) s (shiftResult o carry v t) :=
  (h.quiet (u := (t.setFlag .c carry).setZN v) rfl rfl rfl rfl).writeBack o v

/-- The end of INC and DEC (44_incdec_compare.md R130, R131). -/
theorem memoryResult (h : Makes answered acc s t) (v : Byte) :
    Makes answered (acc ++ [.write t.addrAbs]) s (memoryResult v t) :=
  (h.store t.addrAbs v).quiet rfl rfl rfl rfl

/-- Taking an interrupt (60_exceptions.md R204). -/
theorem interruptEntry (h : Makes answered acc s t) (vec : Addr) (lat : Nat) (brk : Bool) :
    Makes answered (acc ++ [.write (stackAddr t.sp), .write (stackAddr (t.sp - 1)), .write (stackAddr (t.sp - 2)),
      .read vec, .read (vec + 1)]) s (interruptEntry vec lat brk t) := by
  have hsp : t.sp - 1#8 - 1#8 = t.sp - 2#8 := by bv_omega
  refine (((((h.push (hi8 t.pc)).push (lo8 t.pc)).push
    (if brk then statusWithBreak t.p else statusWithoutBreak t.p)).noteRead vec).noteRead (vec + 1)).quiet
      (by simp [hsp]) ?_ ?_ ?_ <;> cases brk <;> simp [Machine.interruptEntry, State.wordAnswer]

/-- The return from an interrupt (48_system.md R181). -/
theorem interruptReturn (h : Makes answered acc s t) :
    Makes answered (acc ++ [.read (stackAddr (t.sp + 1)), .read (stackAddr (t.sp + 2)),
      .read (stackAddr (t.sp + 3))]) s (interruptReturn t) := by
  have hsp2 : t.sp + 1#8 + 1#8 = t.sp + 2#8 := by bv_omega
  have hsp3 : t.sp + 2#8 + 1#8 = t.sp + 3#8 := by bv_omega
  exact h.pop.pop.pop.quiet (by simp [hsp2, hsp3]) (by simp [hsp2, hsp3]) (by simp) (by simp)

end Makes

/-! ### An instruction (20_memory.md R48) -/

/-- The operand bytes are those that the bus answers after the opcode fetch. -/
def OperandAnswered (o : Operand) (s : State) : Prop :=
  ∀ n b, (operandBytesOf o)[n]? = some b → b = s.answerAt n (s.pc + BitVec.ofNat 16 n)

theorem OperandAnswered.first {o : Operand} {s : State} (h : OperandAnswered o s) {b : Byte}
    (hb : (operandBytesOf o)[0]? = some b) : b = s.answerAt 0 s.pc := by
  simpa using h 0 b hb

theorem OperandAnswered.second {o : Operand} {s : State} (h : OperandAnswered o s) {b : Byte}
    (hb : (operandBytesOf o)[1]? = some b) : b = s.answerAt 1 (s.pc + 1) := h 1 b hb

/-- One operand byte, consumed by the resolver. -/
theorem takeByte_makes {o : Operand} (b : Byte) (s : State) (hb : (operandBytesOf o)[0]? = some b) :
    Makes (OperandAnswered o s) [.read s.pc] s (s.takeByte b) :=
  (Makes.refl s).takeByte fun ho => ho.first hb

/-- Two operand bytes, consumed by the resolver. -/
theorem takeWord_makes {o : Operand} (w : Addr) (s : State) (hw : operandBytesOf o = [lo8 w, hi8 w]) :
    Makes (OperandAnswered o s) [.read s.pc, .read (s.pc + 1)] s (s.takeWord w) :=
  (takeByte_makes (lo8 w) s (hw ▸ rfl)).takeByte fun ho => by
    simpa using ho.second (b := hi8 w) (hw ▸ rfl)

/-- The calls of the resolver: the operand bytes, then the pointer (40_addressing_modes.md R81 to R92). -/
theorem resolve_makes (o : Operand) (s : State) :
    Makes (OperandAnswered o s) (resolverCalls o s) s (resolve o s) := by
  cases o with
  | imp | imm => exact (Makes.refl s).quiet rfl rfl rfl rfl
  | zp0 z | zpx z | zpy z | rel z => exact (takeByte_makes z s (by rfl)).quiet rfl rfl rfl rfl
  | abs w | abx w | aby w => exact (takeWord_makes w s (by rfl)).quiet rfl rfl rfl rfl
  | ind w =>
    exact (((takeWord_makes w s (by rfl)).noteRead w).noteRead (indirectHigh w)).quiet rfl rfl rfl rfl
  | izx z =>
    exact (((takeByte_makes z s (by rfl)).noteRead (zext16 (z + s.x))).noteRead (zext16 (z + s.x + 1))).quiet
      rfl rfl rfl rfl
  | izy z =>
    exact (((takeByte_makes z s (by rfl)).noteRead (zext16 z)).noteRead (zext16 (z + 1))).quiet rfl rfl rfl rfl

/-- The calls of the resolver and then of `Fetch()` (40_addressing_modes.md R93); the Immediate byte is the one
decoding has read. -/
theorem fetch_makes (o : Operand) (s : State) :
    Makes (OperandAnswered o s) (resolverCalls o s ++ fetchCalls o s) s (fetch o (resolve o s)) := by
  have hres := resolve_makes o s
  by_cases himp : o = .imp
  · subst himp
    exact hres
  · rw [fetchCalls, if_neg himp, ← resolve_addrAbs]
    cases o with
    | imp => exact absurd rfl himp
    | imm v =>
      have hv : OperandAnswered (.imm v) s →
          v = (resolve (.imm v) s).answerAt 0 (resolve (.imm v) s).addrAbs := fun ho => by
        simpa [resolverReads, effAddr] using ho.first rfl
      exact (hres.recordRead _ hv).quiet rfl rfl rfl rfl
    | _ => exact (hres.noteRead _).quiet rfl rfl rfl rfl

/-- The extra cycle is no call: an instruction makes the calls of its resolver and its handler. -/
theorem next_runInstr_makes {answered : Prop} {acc : List Access} {o : Operand} {g : Bool}
    {handler : State → State} {s t : State} (h : (.next (runInstr o g handler s) : Result) = .next t)
    (hm : Makes answered acc s (handler (resolve o s))) : Makes answered acc s t := by
  cases h
  exact hm.quiet rfl rfl rfl rfl

/-- An instruction makes the calls of its resolver, then those of its handler. -/
theorem exec_makes {i : Instr} {s t : State} (h : exec i s = .next t) :
    Makes (OperandAnswered i.operand s) (resolverCalls i.operand s ++ handlerCalls i s) s t := by
  have hres := fun o => resolve_makes o s
  have hfetch := fun o => fetch_makes o s
  cases i <;> refine next_runInstr_makes h ?_
  case lda o | ldx o | ldy o | adc o | sbc o | and o | ora o | eor o | bit o | cmp o | cpx o | cpy o =>
    exact (hfetch o).quiet rfl (by simp) (by simp) (by simp)
  case sta o | stx o | sty o =>
    exact ((hres o).store (resolve o s).addrAbs _).quiet (by simp [handlerCalls, Instr.operand]) rfl rfl rfl
  case asl o | lsr o | rol o | ror o =>
    exact ((hfetch o).shiftResult o _ _).quiet (by simp [handlerCalls, backCalls, Instr.operand]) rfl rfl rfl
  case inc o | dec o =>
    exact ((hfetch o).memoryResult _).quiet (by simp [handlerCalls, Instr.operand]) rfl rfl rfl
  case pha => exact (hres .imp).push _
  case php => exact ((hres .imp).push (statusWithBreak s.p)).quiet rfl rfl rfl rfl
  case pla | plp => exact (hres .imp).pop.quiet rfl rfl rfl rfl
  case jsr w =>
    exact (((hres (.abs w)).push _).push _).quiet (by simp [handlerCalls, Instr.operand]) (State.setPc_bus _ _)
      (State.setPc_answers _ _) (State.setPc_mem _ _)
  case rts =>
    have hsp : s.sp + 1#8 + 1#8 = s.sp + 2#8 := by bv_omega
    exact ((hres .imp).pop.pop).quiet (by simp [handlerCalls, Instr.operand, hsp]) rfl rfl rfl
  case brk =>
    exact (((hres .imp).quiet (u := (resolve .imp s).setPc ((resolve .imp s).pc + 1)) rfl rfl rfl rfl).interruptEntry
      params.irqVector 0 true).quiet (by simp [handlerCalls, Instr.operand]) rfl rfl rfl
  case rti => exact (hres .imp).interruptReturn.quiet (by simp [handlerCalls, Instr.operand]) rfl rfl rfl
  case bcc d | bcs d | beq d | bne d | bmi d | bpl d | bvc d | bvs d =>
    exact (hres (.rel d)).quiet (by simp [handlerCalls, Instr.operand]) (by simp) (by simp) (by simp)
  case jmp o => exact (hres o).quiet (by simp [handlerCalls, Instr.operand]) rfl rfl rfl
  all_goals exact (hres .imp).quiet rfl rfl rfl rfl

/-- Settles O16: it holds, by the resolver and the handler of each instruction. -/
theorem busCallsOfEveryInstruction : Obligations.BusCallsOfEveryInstruction := by
  intro i s t h
  obtain ⟨calls, hbus, hacc, hanswers, -⟩ := exec_makes h
  exact ⟨calls, hbus, hacc, hanswers⟩

end Sys2Proof.Machine
end

section
/-! PROOFS. The bus calls of a tick (20_memory.md R40, R46, R51, R54, 60_exceptions.md R205, R214): none inside a window,
those of an entry or of an opcode fetch and an instruction at a boundary. -/

namespace Sys2Proof.Machine

/-! ### A step and the memory behind the bus -/

/-- Decoding takes the operand bytes from what the bus answers after the opcode (30_encoding.md R61). -/
theorem nextInstr_answered (s : State) : OperandAnswered s.nextInstr.operand (beginInstr s) := by
  intro n b hb
  rw [State.nextInstr, instrOf_operand, operandBytesOf_assemble] at hb
  have hb' : [s.answerAt 1 (s.pc + 1), s.answerAt 2 (s.pc + 2)][n]? = some b := by
    rw [List.getElem?_take] at hb
    split at hb
    · exact hb
    · cases hb
  match n with
  | 0 => simpa using hb'.symm
  | 1 => simpa [BitVec.add_assoc] using hb'.symm

/-- The opcode fetch is one read (30_encoding.md R70). -/
theorem beginInstr_makes (answered : Prop) (s : State) : Makes answered [.read s.pc] s (beginInstr s) :=
  ((Makes.refl s).noteRead s.pc).quiet rfl rfl rfl rfl

/-- Memory and answers after a step are the replay of its calls: an idle tick makes none, and the operand bytes of an
instruction are those the bus answered. -/
theorem step_makes {s t : State} (h : step s = .next t) : ∃ acc, Makes True acc (s.setBus []) t := by
  obtain ⟨-, rfl⟩ | ⟨-, -, vec, lat, irq, nmi, -, rfl⟩ | ⟨-, -, u, hu, rfl⟩ := step_outcomes h
  · exact ⟨[], (Makes.refl _).quiet rfl rfl rfl rfl⟩
  · have hs : Makes True [] (s.setBus []) (((s.setBus []).setIrq irq).setNmi nmi) :=
      (Makes.refl _).quiet rfl rfl rfl rfl
    exact ⟨_, (hs.interruptEntry vec lat false).quiet rfl rfl rfl rfl⟩
  · have hs : Makes True [] (s.setBus []) ((s.setBus []).setIrq false) := (Makes.refl _).quiet rfl rfl rfl rfl
    have hexec := (exec_makes hu).imp fun (_ : True) => nextInstr_answered ((s.setBus []).setIrq false)
    exact ⟨_, ((hs.trans (beginInstr_makes _ _)).trans hexec).quiet rfl rfl rfl rfl⟩

/-- Settles O13: it holds, by the three kinds of tick; every operation on the bus appends calls that replay. -/
theorem memoryIsTheReplayOfTheBusCalls : Obligations.MemoryIsTheReplayOfTheBusCalls := by
  intro s t h
  obtain ⟨acc, hm⟩ := step_makes h
  exact hm.replay_bus rfl trivial

/-! ### Which ticks make calls -/

/-- The calls of an interrupt entry at a boundary: three pushes, then the vector of NMI before that of IRQ (R205,
R206). -/
theorem step_entry_calls {s t : State} (h : step s = .next t) (hc : s.cycles = 0) (hi : takesInterrupt s = true) :
    t.bus.map accessOf =
      [.write (stackAddr s.sp), .write (stackAddr (s.sp - 1)), .write (stackAddr (s.sp - 2)),
        .read (if s.nmiPending then params.nmiVector else params.irqVector),
        .read (if s.nmiPending then params.nmiVector + 1 else params.irqVector + 1)] := by
  obtain ⟨hc', -⟩ | ⟨-, hn, rfl⟩ | ⟨-, hn, -, -, rfl⟩ | ⟨-, hn, hq, -⟩ := step_cases h
  · exact absurd hc hc'
  · rw [countDown_bus, takeNmi, interruptEntry_bus, hn]
    rfl
  · rw [countDown_bus, takeIrq, interruptEntry_bus, hn]
    rfl
  · rw [takesInterrupt, hn, hq] at hi
    cases hi

/-- At a boundary that takes no interrupt the opcode is read first (R46). -/
theorem step_opcode_call {s t : State} (h : step s = .next t) (hc : s.cycles = 0) (hi : takesInterrupt s = false) :
    t.bus.head? = some (.read s.pc (s.answerAt 0 s.pc)) := by
  obtain ⟨hc', -⟩ | ⟨-, hi', -⟩ | ⟨-, -, u, hu, rfl⟩ := step_outcomes h
  · exact absurd hc hc'
  · exact absurd (hi'.symm.trans hi) (by decide)
  · obtain ⟨calls, hbus, -⟩ := exec_makes hu
    rw [countDown_bus, hbus, beginInstr_bus]
    rfl

/-- A tick inside a window makes no call, one at a boundary at least one (R214, R217). -/
theorem step_bus_ne_nil {s t : State} (h : step s = .next t) : t.bus ≠ [] ↔ s.cycles = 0 := by
  constructor
  · intro hb
    by_contra hc
    rw [step_idle hc] at h
    cases h
    exact hb rfl
  · intro hc hb
    cases hi : takesInterrupt s
    · have hcall := step_opcode_call h hc hi
      rw [hb] at hcall
      cases hcall
    · have hcalls := step_entry_calls h hc hi
      rw [hb] at hcalls
      cases hcalls

/-- Settles O17: it holds, by the kinds of tick. -/
theorem onlyBoundaryTicksCallTheBus : Obligations.OnlyBoundaryTicksCallTheBus :=
  fun _ _ h => ⟨step_bus_ne_nil h, step_entry_calls h, step_opcode_call h⟩

end Sys2Proof.Machine
end

section
/-! PROOFS. The canonical form of memory (20_memory.md R40, R51): a memory is decided by what its addresses read as. -/

namespace Sys2Proof.Machine

theorem Memory.wfFrom_cons {lo a : Nat} {v : Byte} {rest : Memory} :
    Memory.wfFrom lo ((a, v) :: rest) = true ↔
      lo ≤ a ∧ a < 65536 ∧ v ≠ Memory.unlisted ∧ Memory.wfFrom (a + 1) rest = true := by
  simp only [Memory.wfFrom, Bool.and_eq_true, decide_eq_true_eq, and_assoc]

theorem Memory.read_cons_self (a : Nat) (v : Byte) (rest : Memory) : Memory.read ((a, v) :: rest) a = v := if_pos rfl

theorem Memory.read_cons_of_ne {a c : Nat} (h : c ≠ a) (v : Byte) (rest : Memory) :
    Memory.read ((a, v) :: rest) c = rest.read c := if_neg h

/-- Below its first address a canonical memory lists nothing. -/
theorem Memory.read_of_lt {m : Memory} {lo c : Nat} (hm : Memory.wfFrom lo m = true) (hc : c < lo) :
    m.read c = Memory.unlisted := by
  induction m generalizing lo with
  | nil => rfl
  | cons e rest ih =>
    obtain ⟨a, v⟩ := e
    obtain ⟨hlo, -, -, hrest⟩ := Memory.wfFrom_cons.mp hm
    rw [Memory.read_cons_of_ne (by omega), ih hrest (by omega)]

/-- An address that does not read as unlisted is not before the first entry. -/
theorem Memory.head_le_of_read_ne {lo a c : Nat} {v : Byte} {rest : Memory}
    (hm : Memory.wfFrom lo ((a, v) :: rest) = true) (hc : Memory.read ((a, v) :: rest) c ≠ Memory.unlisted) : a ≤ c := by
  obtain ⟨-, -, -, hrest⟩ := Memory.wfFrom_cons.mp hm
  by_contra hlt
  rw [Memory.read_cons_of_ne (by omega), Memory.read_of_lt hrest (by omega)] at hc
  exact hc rfl

/-- A canonical memory that reads as unlisted at every address has no entry. -/
theorem Memory.eq_nil_of_read {m : Memory} {lo : Nat} (hm : Memory.wfFrom lo m = true)
    (h : ∀ c, c < 65536 → m.read c = Memory.unlisted) : m = [] := by
  cases m with
  | nil => rfl
  | cons e rest =>
    obtain ⟨a, v⟩ := e
    obtain ⟨-, ha, hv, -⟩ := Memory.wfFrom_cons.mp hm
    exact absurd ((Memory.read_cons_self a v rest).symm.trans (h a ha)) hv

/-- Memories in canonical form that read alike have the same first entry, and then the same rest. -/
theorem Memory.eq_of_read_eq {m n : Memory} {lo : Nat} (hm : Memory.wfFrom lo m = true)
    (hn : Memory.wfFrom lo n = true) (h : ∀ c, c < 65536 → m.read c = n.read c) : m = n := by
  induction m generalizing lo n with
  | nil => exact (Memory.eq_nil_of_read hn fun c hc => (h c hc).symm).symm
  | cons e rest ih =>
    obtain ⟨a, v⟩ := e
    cases n with
    | nil => exact Memory.eq_nil_of_read hm h
    | cons e' rest' =>
      obtain ⟨b, w⟩ := e'
      obtain ⟨-, ha, hv, hrest⟩ := Memory.wfFrom_cons.mp hm
      obtain ⟨-, hb, hw, hrest'⟩ := Memory.wfFrom_cons.mp hn
      have hreada := (Memory.read_cons_self a v rest).symm.trans (h a ha)
      have hreadb := (h b hb).trans (Memory.read_cons_self b w rest')
      have hba : b ≤ a := Memory.head_le_of_read_ne hn (hreada ▸ hv)
      have hab : a ≤ b := Memory.head_le_of_read_ne hm (hreadb ▸ hw)
      obtain rfl : a = b := Nat.le_antisymm hab hba
      have hvw : v = w := hreada.trans (Memory.read_cons_self a w rest')
      have hrests : rest = rest' := ih hrest hrest' fun c hc => by
        by_cases hca : c = a
        · rw [Memory.read_of_lt hrest (by omega), Memory.read_of_lt hrest' (by omega)]
        · simpa only [Memory.read_cons_of_ne hca] using h c hc
      rw [hvw, hrests]

/-- Settles O60: it holds, by induction on the first list: an entry is where the reads first differ from unlisted. -/
theorem equalReadsAreEqualMemories : Obligations.EqualReadsAreEqualMemories := by
  intro m n hm hn h
  refine Memory.eq_of_read_eq hm hn fun c hc => ?_
  simpa [Nat.mod_eq_of_lt hc] using h (BitVec.ofNat 16 c)

end Sys2Proof.Machine
end

section
/-! PROOFS. A tick and a reset on a bus given as a parameter (20_memory.md R40, 00_scope.md R3). Both follow a script of
at most five reads (Laws/Bus.lean), so that asking the bus round after round finds the one run it answers. -/

namespace Sys2Proof.Machine

/-- An operation that, given the coming answers, follows a script of at most `maxReads` reads and records its calls. -/
def Scripted (run : List Byte → Result) : Prop :=
  ∃ σ : Script, σ.AtMost maxReads ∧ ∀ l,
    run l = .next ((σ.leaf l).1.setAnswers (σ.leaf l).2) ∧ (σ.leaf l).1.bus = σ.calls l

theorem step_scripted (s : State) : Scripted fun l => step (s.setAnswers l) := step_follows s

/-- Reset is the two reads of its vector (70_reset_and_hazards.md R230). -/
theorem resetFrom_scripted (m : Memory) : Scripted fun l => .next (resetFrom m l) := by
  have hf : Follows 2 fun s => (s.noteReadWord params.resetVector).setPc (s.wordAnswer params.resetVector) :=
    Follows.pointer (n := 0) (lo := fun _ => params.resetVector) (hi := fun _ => params.resetVector + 1)
      (k := fun w s => s.setPc w) (fun _ _ => rfl) (fun _ _ => rfl) (fun _ _ => rfl)
      fun _ => .quiet (fun _ _ => rfl) fun _ => rfl
  obtain ⟨σ, hσ, h⟩ := hf ((resetFrom m []).setBus [])
  exact ⟨σ, hσ.mono (by decide), fun l => ⟨congrArg _ (h l).1, (h l).2⟩⟩

namespace Scripted

variable {run : List Byte → Result}

theorem exists_next (h : Scripted run) (l : List Byte) : ∃ t, run l = .next t := by
  obtain ⟨σ, -, hrun⟩ := h
  exact ⟨_, (hrun l).1⟩

/-- On any bus: the calls are made in order, the recorded bytes are those the bus answers, none is left over, and no
other bytes are answered by the bus to the calls they lead to. -/
theorem run_bus (h : Scripted run) (B : Bus) (c : B.Carrier) : ∃ (t : State) (c' : B.Carrier),
    B.run c run = .next (t, c') ∧ B.serve t.bus c = (readBytes t.bus, c') ∧
    run (readBytes t.bus) = .next t ∧ t.answers = [] ∧
    ∀ (l : List Byte) (u : State), run l = .next u → readBytes u.bus = l → (B.serve u.bus c).1 = l → u = t := by
  obtain ⟨σ, hσ, hrun⟩ := h
  have hcalls : ∀ l, callsOf (run l) = σ.calls l := fun l => by rw [(hrun l).1]; exact (hrun l).2
  have hsettle : B.settle c run maxReads = (σ.onBus B c).1 := settle_eq hσ hcalls B c
  obtain ⟨hserve, hread, hleft⟩ := σ.serve_onBus B c
  obtain ⟨hnext, hbus⟩ := hrun (σ.onBus B c).1
  rw [hleft] at hnext
  refine ⟨(σ.leaf (σ.onBus B c).1).1.setAnswers [], (σ.onBus B c).2, ?_, ?_, ?_, rfl, fun l u hu hl hB => ?_⟩
  · rw [Bus.run, hsettle, hnext]
    simp only [State.setAnswers_bus, hbus, hserve]
  · rw [State.setAnswers_bus, hbus, hserve, hread]
  · rw [State.setAnswers_bus, hbus, hread, hnext]
  · obtain ⟨hnextl, hbusl⟩ := hrun l
    obtain rfl := Host.Outcome.next.inj (hnextl.symm.trans hu)
    rw [State.setAnswers_bus, hbusl] at hl hB
    obtain rfl := σ.eq_onBus B c l hl hB
    rw [hleft]

/-- An operation that finds no answer queued reads the flat array, and does the same when given those bytes. -/
theorem run_own (h : Scripted run) {t : State} (ht : run [] = .next t) :
    run (readBytes t.bus) = .next t ∧ t.answers = [] := by
  obtain ⟨σ, -, hrun⟩ := h
  obtain ⟨hleaf, hleft, -⟩ := σ.leaf_own
  obtain ⟨hnext, hbus⟩ := hrun []
  obtain rfl := Host.Outcome.next.inj (hnext.symm.trans ht)
  rw [State.setAnswers_bus, hbus]
  exact ⟨by rw [(hrun _).1, hleaf], hleft⟩

end Scripted

/-- Settles O14: it holds, because a tick and a reset follow scripts. -/
theorem anyBusAnswersTheStep : Obligations.AnyBusAnswersTheStep := by
  intro B c
  refine ⟨fun s => (step_scripted s).run_bus B c, fun d => ?_⟩
  obtain ⟨t, c', hrun, hserve, ht, hanswers, -⟩ := (resetFrom_scripted (deviceMem d)).run_bus B c
  exact ⟨t, c', hrun, hserve, (Host.Outcome.next.inj ht).symm, hanswers⟩

/-! ### The flat array as a bus -/

/-- Calls that replay with no answer queued are what the flat array answers (20_memory.md R40, R51). -/
theorem serve_flatBus_of_replay {calls : List BusCall} {m m' : Memory} {l : List Byte}
    (h : replay calls [] m = some (m', l)) : flatBus.serve calls m = (readBytes calls, m') := by
  induction calls generalizing m with
  | nil => cases h; rfl
  | cons call calls ih =>
    cases call with
    | read a v =>
      rw [replay] at h
      split at h
      · next hv =>
        have hrest := ih h
        show ((flatBus.read m a).1 :: (flatBus.serve calls m).1, (flatBus.serve calls m).2) = _
        rw [hrest]
        exact Prod.ext (congrArg (· :: _) hv) rfl
      · cases h
    | write a v => exact ih h

/-- An operation that acts on memory only by its calls runs on the flat array as it does with no answer queued. -/
theorem Scripted.run_flatBus {run : List Byte → Result} (h : Scripted run) {t : State} {m : Memory} {l : List Byte}
    (ht : run [] = .next t) (hreplay : replay t.bus [] m = some (t.mem, l)) :
    t.answers = [] ∧ flatBus.run m run = .next (t, t.mem) := by
  obtain ⟨hown, hanswers⟩ := h.run_own ht
  obtain ⟨t', m', hrun, hserve', -, -, honly⟩ := h.run_bus flatBus m
  have hserve := serve_flatBus_of_replay hreplay
  obtain rfl : t = t' := honly _ t hown rfl (congrArg Prod.fst hserve)
  obtain rfl : t.mem = m' := congrArg Prod.snd (hserve.symm.trans hserve')
  exact ⟨hanswers, hrun⟩

/-- Memory after a reset is as before, and the vector's bytes are those the bus answers (R230). -/
theorem resetFrom_replay (m : Memory) (l : List Byte) :
    replay (resetFrom m l).bus l m = some ((resetFrom m l).mem, (resetFrom m l).answers) := by
  have hm : Makes True _ (((resetFrom m l).setBus []).setAnswers l) (resetFrom m l) :=
    (((Makes.refl _).noteRead params.resetVector).noteRead (params.resetVector + 1)).quiet rfl rfl rfl rfl
  exact hm.replay_bus rfl trivial

/-- Settles O15: it holds, by the replay of the calls of a tick and of a reset. -/
theorem theFlatArrayIsABus : Obligations.TheFlatArrayIsABus := by
  refine ⟨fun s hs => ?_, fun d hd => ?_⟩
  · obtain ⟨t, ht⟩ := (step_scripted s).exists_next []
    have hempty : s.setAnswers [] = s := by rw [← hs]; rfl
    have hreplay := memoryIsTheReplayOfTheBusCalls _ t ht
    exact ⟨t, hempty ▸ ht, (step_scripted s).run_flatBus ht hreplay⟩
  · have hreset : hostOp .reset d = .next (.running (resetFrom (deviceMem d) [])) := by rw [hostOp, hd]
    exact ⟨_, hreset, (resetFrom_scripted _).run_flatBus rfl (resetFrom_replay _ _)⟩

end Sys2Proof.Machine
end

section
/-! PROOFS. Decoding and encoding are inverse (30_encoding.md R60 to R68): what the decoder's two answers are, the
matrix of R66 against the list by mnemonic of R67, and the two directions of the round trip. -/

namespace Sys2Proof

/-! ### The two answers of the decoder -/

theorem decode_cons_of_lt {op : Byte} {tail : List Byte} (h : tail.length < (descriptor op).mode.operandBytes) :
    decode (op :: tail) = .error (.missingOperand op) := if_pos h

theorem decode_cons_of_le {op : Byte} {tail : List Byte} (h : (descriptor op).mode.operandBytes ≤ tail.length) :
    decode (op :: tail) =
      .ok (instrOf op (tail.getD 0 0) (tail.getD 1 0), tail.drop (descriptor op).mode.operandBytes) :=
  if_neg (Nat.not_lt.mpr h)

/-- A list decodes exactly when it holds the operand bytes of its opcode's mode (R60, R61). -/
theorem decode_cons_eq_ok {op : Byte} {tail rest : List Byte} {i : Instr} :
    decode (op :: tail) = .ok (i, rest) ↔ (descriptor op).mode.operandBytes ≤ tail.length ∧
      i = instrOf op (tail.getD 0 0) (tail.getD 1 0) ∧ rest = tail.drop (descriptor op).mode.operandBytes := by
  rcases Nat.lt_or_ge tail.length (descriptor op).mode.operandBytes with h | h
  · simp [decode_cons_of_lt h, h]
  · simp [decode_cons_of_le h, h, eq_comm]

/-- Only the empty list and a list that ends inside an instruction are rejected. -/
theorem decode_eq_error {bytes : List Byte} {e : DecodeError} (h : decode bytes = .error e) :
    (bytes = [] ∧ e = .noOpcode) ∨
    ∃ op tail, bytes = op :: tail ∧ tail.length < (descriptor op).mode.operandBytes ∧ e = .missingOperand op := by
  cases bytes with
  | nil => cases h; exact .inl ⟨rfl, rfl⟩
  | cons op tail =>
    rcases Nat.lt_or_ge tail.length (descriptor op).mode.operandBytes with hlt | hle
    · rw [decode_cons_of_lt hlt] at h
      cases h
      exact .inr ⟨op, tail, rfl, hlt, rfl⟩
    · rw [decode_cons_of_le hle] at h
      cases h

/-- Two bytes are enough for any opcode (R65). -/
theorem decode_three_bytes (op b1 b2 : Byte) (rest : List Byte) :
    decode (op :: b1 :: b2 :: rest) =
      .ok (instrOf op b1 b2, (b1 :: b2 :: rest).drop (descriptor op).mode.operandBytes) :=
  decode_cons_of_le ((Mode.operandBytes_le _).trans (Nat.le_add_left 2 rest.length))

/-! ### Decoding an encoding -/

/-- The matrix of R66 has every entry of the list by mnemonic of R67. -/
theorem descriptor_of_encodings (m : Mnemonic) (hm : m ≠ .ill) :
    ∀ mode ∈ m.modes, ((encodings m).lookup mode).map descriptor = some ⟨m, mode⟩ := by
  cases m
  case ill => exact absurd rfl hm
  all_goals decide +kernel

theorem Instr.mem_modes_of_wellFormed {i : Instr} (h : i.wellFormed = true) :
    i.operand.mode ∈ i.mnemonic.modes :=
  List.contains_iff_mem.mp (Bool.and_eq_true_iff.mp h).1

theorem Instr.eq_ill_of_mnemonic {i : Instr} (h : i.mnemonic = .ill) : ∃ op, i = .ill op := by
  cases i
  case ill op => exact ⟨op, rfl⟩
  all_goals cases h

/-- A well-formed instruction has an opcode byte, whose descriptor is the instruction's mnemonic and mode. -/
theorem opcodeOf_of_wellFormed {i : Instr} (h : i.wellFormed = true) :
    ∃ op, opcodeOf i = some op ∧ descriptor op = ⟨i.mnemonic, i.operand.mode⟩ := by
  by_cases hm : i.mnemonic = .ill
  · obtain ⟨op, rfl⟩ := Instr.eq_ill_of_mnemonic hm
    exact ⟨op, rfl, descriptor_of_illegal op (List.contains_iff_mem.mp h)⟩
  · rw [opcodeOf_documented hm]
    exact Option.map_eq_some_iff.mp (descriptor_of_encodings _ hm _ (Instr.mem_modes_of_wellFormed h))

theorem encode_of_opcodeOf {i : Instr} {op : Byte} (h : opcodeOf i = some op) :
    encode i = op :: operandBytesOf i.operand := by
  rw [encode, h]

/-- Building from its own mnemonic, operand and opcode byte gives an instruction back. -/
theorem buildInstr_of_opcodeOf {i : Instr} {op : Byte} (h : opcodeOf i = some op) :
    buildInstr i.mnemonic i.operand op = i := by
  by_cases hm : i.mnemonic = .ill
  · obtain ⟨op', rfl⟩ := Instr.eq_ill_of_mnemonic hm
    exact congrArg Instr.ill (Option.some.inj h).symm
  · exact buildInstr_self op hm

/-- Settles O2: it holds. The opcode byte selects the instruction's mnemonic and mode, and the operand bytes assemble
to its operand. -/
theorem decodeOfEncodeIsTheInstruction : Obligations.DecodeOfEncodeIsTheInstruction := by
  intro i rest hi
  obtain ⟨op, hop, hd⟩ := opcodeOf_of_wellFormed hi
  have hlen : (descriptor op).mode.operandBytes = (operandBytesOf i.operand).length := by
    rw [operandBytesOf_length, hd]
  rw [encode_of_opcodeOf hop, List.cons_append, decode_cons_eq_ok]
  refine ⟨?_, ?_, ?_⟩
  · rw [hlen, List.length_append]
    exact Nat.le_add_right _ _
  · rw [instrOf, hd, assemble_operandBytesOf, buildInstr_of_opcodeOf hop]
  · rw [hlen, List.drop_left]

/-! ### Encoding what was decoded -/

theorem Instr.illegalOk_of_documented {i : Instr} (h : i.mnemonic ≠ .ill) : i.illegalOk = true := by
  cases i
  case ill => exact absurd rfl h
  all_goals rfl

/-- What a byte decodes to has an encoding: the table lists no pair that R67 does not, and no other illegal byte. -/
theorem instrOf_wellFormed (op b1 b2 : Byte) : (instrOf op b1 b2).wellFormed = true := by
  refine Bool.and_eq_true_iff.mpr ⟨?_, ?_⟩
  · rw [Instr.modeOk, instrOf_mnemonic, instrOf_operand, assemble_mode]
    exact descriptor_mode_mem op
  · by_cases hm : (descriptor op).mnemonic = .ill
    · rw [instrOf, hm]
      exact List.contains_iff_mem.mpr (mem_illegalBytes op hm)
    · exact Instr.illegalOk_of_documented (instrOf_mnemonic op b1 b2 ▸ hm)

/-- The encoding of a decoded instruction is the opcode byte and as many of the two bytes after it as its mode uses. -/
theorem encode_instrOf (op b1 b2 : Byte) :
    encode (instrOf op b1 b2) = op :: [b1, b2].take (descriptor op).mode.operandBytes := by
  rw [encode_of_opcodeOf (opcodeOf_instrOf op b1 b2), instrOf_operand, operandBytesOf_assemble]

/-- The first bytes of a list, up to two, are those the decoder looks at. -/
theorem take_getD_append_drop {l : List Byte} {n : Nat} (hn : n ≤ 2) (hl : n ≤ l.length) :
    [l.getD 0 0, l.getD 1 0].take n ++ l.drop n = l := by
  match n, l with
  | 0, l => rfl
  | 1, b :: l => rfl
  | 2, b :: c :: l => rfl

/-- Settles O3: it holds. The decoder reads the opcode and the bytes its mode uses, and the encoder gives them back. -/
theorem encodeOfDecodeIsTheBytes : Obligations.EncodeOfDecodeIsTheBytes := by
  intro bytes rest i h
  cases bytes with
  | nil => cases h
  | cons op tail =>
    obtain ⟨hlen, rfl, rfl⟩ := decode_cons_eq_ok.mp h
    refine ⟨instrOf_wellFormed _ _ _, ?_⟩
    rw [encode_instrOf, List.cons_append, take_getD_append_drop (Mode.operandBytes_le _) hlen]

/-! ### The table -/

/-- The illegal bytes of the matrix are those of the list of R68. -/
theorem descriptor_mnemonic_eq_ill (op : Byte) : (descriptor op).mnemonic = .ill ↔ op ∈ illegalBytes :=
  ⟨mem_illegalBytes op, fun h => congrArg Descriptor.mnemonic (descriptor_of_illegal op h)⟩

/-- The list of R68 is in rising order, so no byte stands in it twice. -/
theorem illegalBytes_nodup : illegalBytes.Nodup := by
  have hrising : illegalBytes.IsChain (· < ·) := by decide +kernel
  exact hrising.pairwise.imp BitVec.ne_of_lt

/-- Settles O4: it holds; the counts are evaluated on the matrix. -/
theorem everyOpcodeByteHasOneDescriptor : Obligations.EveryOpcodeByteHasOneDescriptor :=
  ⟨fun op b1 b2 rest => ⟨_, _, decode_three_bytes op b1 b2 rest⟩, fun _ _ => decode_eq_error,
    descriptor_mnemonic_eq_ill, illegalBytes_nodup, rfl, by decide +kernel, by decide +kernel⟩

theorem decode_cons_mode {op : Byte} {tail rest : List Byte} {i : Instr} (h : decode (op :: tail) = .ok (i, rest)) :
    i.operand.mode = (descriptor op).mode := by
  obtain ⟨-, rfl, -⟩ := decode_cons_eq_ok.mp h
  rw [instrOf_operand, assemble_mode]

theorem decode_cons_length {op : Byte} {tail rest : List Byte} {i : Instr} (h : decode (op :: tail) = .ok (i, rest)) :
    tail.length = rest.length + i.operand.mode.operandBytes := by
  rw [decode_cons_mode h]
  obtain ⟨hlen, -, rfl⟩ := decode_cons_eq_ok.mp h
  rw [List.length_drop, Nat.sub_add_cancel hlen]

/-- The operand bytes of the twelve modes (R60, R98). -/
theorem Mode.operandBytes_iff (m : Mode) :
    (m.operandBytes = 0 ↔ m = .imp) ∧
    (m.operandBytes = 1 ↔ m ∈ [.imm, .zp0, .zpx, .zpy, .rel, .izx, .izy]) ∧
    (m.operandBytes = 2 ↔ m ∈ [.abs, .abx, .aby, .ind]) := by
  cases m <;> decide

/-- Settles O5: it holds. Mode and length are those of the opcode's descriptor, whatever bytes follow. -/
theorem lengthIsDecidedByTheOpcodeAlone : Obligations.LengthIsDecidedByTheOpcodeAlone := by
  intro op tail tail' rest rest' i j hi hj
  have hmode : i.operand.mode = j.operand.mode := (decode_cons_mode hi).trans (decode_cons_mode hj).symm
  exact ⟨hmode, decode_cons_length hi, hmode ▸ decode_cons_length hj, Mode.operandBytes_iff _⟩

/-- Settles O1: it holds, by running the decoder on each word. -/
theorem decodeReadsWordsWrittenFromTheSpec : Obligations.DecodeReadsWordsWrittenFromTheSpec :=
  ⟨rfl, rfl, rfl, rfl, rfl, rfl, rfl, rfl, rfl, rfl, rfl⟩

end Sys2Proof
end

section
/-! PROOFS. The tick that runs an instruction, and the idle tick (30_encoding.md R70 to R72, 70_reset_and_hazards.md
R244, R245). -/

namespace Sys2Proof.Machine

/-- The instruction decoded from an opcode and two bytes is any well-formed one they begin with the encoding of. -/
theorem instrOf_of_encode {i : Instr} (hi : i.wellFormed = true) {op b1 b2 : Byte}
    (h : ∀ n, n < i.length → [op, b1, b2].getD n 0 = (encode i).getD n 0) : instrOf op b1 b2 = i := by
  obtain ⟨c, hc, -⟩ := opcodeOf_of_wellFormed hi
  obtain ⟨hlen, -, hle⟩ := Laws.EncodeLength.of_opcode hc
  have hbytes : encode i = [op, b1, b2].take i.length := by
    refine List.ext_getElem (by simpa [hlen] using hle) fun n hn hn' => ?_
    rw [List.getElem_take, ← List.getD_eq_getElem _ 0 hn, ← h n (hlen ▸ hn), List.getD_eq_getElem]
  have hdecode := decodeOfEncodeIsTheInstruction i ([op, b1, b2].drop i.length) hi
  rw [hbytes, List.take_append_drop, decode_three_bytes] at hdecode
  exact (Prod.mk.inj (Except.ok.inj hdecode)).1

/-- The bytes the bus answers at the program counter decide the next instruction (R61). -/
theorem nextInstr_of_encode {s : State} {i : Instr} (hi : i.wellFormed = true)
    (h : ∀ n, n < i.length → s.answerAt n (s.pc + BitVec.ofNat 16 n) = (encode i).getD n 0) : s.nextInstr = i := by
  refine instrOf_of_encode hi fun n hn => ?_
  have hle := (Laws.EncodeLength.length_bounds i).2
  rw [← h n hn]
  match n, hn.trans_le hle with
  | 0, _ => exact congrArg (s.answerAt 0) (BitVec.add_zero s.pc).symm
  | 1, _ => rfl
  | 2, _ => rfl

/-- The opcode fetch as one update (R70). -/
theorem beginInstr_eq (s : State) : beginInstr s =
    { s with opcode := s.answerAt 0 s.pc, pc := s.pc + 1, fetched := 0, addrAbs := 0, addrRel := 0,
             cycles := baseCycles (s.answerAt 0 s.pc), bus := s.bus ++ [.read s.pc (s.answerAt 0 s.pc)],
             answers := s.answers.drop 1 } := by
  apply State.ext <;> simp [beginInstr]

/-- Settles O6: it holds. The bytes at the program counter decode to the instruction, by O2. -/
theorem stepRunsTheInstructionAtThePc : Obligations.StepRunsTheInstructionAtThePc := by
  intro s t i hc hint hi hbytes hexec
  obtain ⟨hn, hq⟩ := Bool.or_eq_false_iff.mp hint
  rw [← nextInstr_of_encode hi hbytes] at hexec
  exact ⟨step_exec hc hn hq hexec, beginInstr_eq _⟩

/-- Settles O8: it holds, as `step_idle`. -/
theorem idleTickOnlyCountsDown : Obligations.IdleTickOnlyCountsDown := fun _ h => step_idle h

/-- The opcode table beside the table of R244: no documented opcode takes fewer than 2 cycles. -/
theorem two_le_tableRow_cycles :
    ∀ row ∈ opcodeMatrix.zip baseCycleMatrix, row.1.mnemonic = .ill ∨ 2 ≤ row.2 := by
  decide +kernel

/-- The descriptor and the base count of an opcode byte are one row of the two tables. -/
theorem tableRow_mem (op : Byte) : (descriptor op, params.baseCycles op) ∈ opcodeMatrix.zip baseCycleMatrix := by
  have hop : op.toNat < opcodeMatrix.length := opcodeMatrix_length ▸ op.isLt
  have hop' : op.toNat < baseCycleMatrix.length := baseCycleMatrix_length ▸ op.isLt
  have hparam : params.baseCycles op = baseCycleMatrix.getD op.toNat 0 := rfl
  rw [hparam, descriptor, List.getD_eq_getElem _ _ hop, List.getD_eq_getElem _ _ hop', ← List.getElem_zip]
  · exact List.getElem_mem _
  · exact List.length_zip ▸ lt_min hop hop'

theorem two_le_baseCycles (op : Byte) : 2 ≤ baseCycles op := by
  unfold baseCycles
  split
  · exact Nat.le_refl 2
  · next hop =>
    have hill : (descriptor op).mnemonic ≠ .ill := fun h => hop (List.contains_iff_mem.mpr (mem_illegalBytes op h))
    exact (two_le_tableRow_cycles _ (tableRow_mem op)).resolve_left hill

/-- Settles O29: it holds. The countdown is that of `exec_cycles`, less the tick itself. -/
theorem everyInstructionTakesItsCycles : Obligations.EveryInstructionTakesItsCycles := by
  intro s t hc hint h
  obtain ⟨hc', -⟩ | ⟨-, hint', -⟩ | ⟨-, -, u, hu, rfl⟩ := step_outcomes h
  · exact absurd hc hc'
  · exact absurd (hint'.symm.trans hint) (by decide)
  have hcycles : u.cycles = baseCycles (s.answerAt 0 s.pc) +
      extraCycles s.nextInstr (beginInstr ((s.setBus []).setIrq false)) := exec_cycles hu
  have hlow := two_le_baseCycles (s.answerAt 0 s.pc)
  have hhigh : u.cycles ≤ 7 := hcycles.trans_le (baseCycles_add_extraCycles_le _ _ _ _)
  rw [countDown_cycles]
  omega

end Sys2Proof.Machine
end

section
/-! PROOFS. The addressing modes as numbers (40_addressing_modes.md R81 to R92, R95, R98, R99): what each resolver
leaves in the scratch addresses, where the operand byte is, and when indexing signals a page cross. -/

namespace Sys2Proof.Machine

/-! ### Addresses as numbers -/

theorem zext16_eq_ofNat (b : Byte) : zext16 b = BitVec.ofNat 16 b.toNat := (BitVec.ofNat_toNat 16 b).symm

/-- Zero-page arithmetic stays in the zero page (R84, R85, R91, R92). -/
theorem zext16_add_toNat (b c : Byte) : (zext16 (b + c)).toNat = (b.toNat + c.toNat) % 256 := by
  rw [zext16_toNat, BitVec.toNat_add]

/-- Absolute indexing wraps modulo 65536 (R88, R89, R92). -/
theorem add_zext16_toNat (w : Addr) (b : Byte) : (w + zext16 b).toNat = (w.toNat + b.toNat) % 65536 := by
  rw [BitVec.toNat_add, zext16_toNat]

/-- A displacement as the signed number its byte stands for, modulo 65536 (R86). -/
theorem sext16_toNat_eq_ite_lt (d : Byte) : (sext16 d).toNat = if d.toNat < 128 then d.toNat else 0xFF00 + d.toNat := by
  rw [sext16_toNat, byte_bit7]
  by_cases hd : d.toNat < 128
  · rw [if_pos hd, decide_eq_false (Nat.not_le.mpr hd), if_neg Bool.false_ne_true]
  · rw [if_neg hd, decide_eq_true (Nat.not_lt.mp hd), if_pos rfl]

/-- Both bytes of a zero-page pointer lie in the zero page (R91, R92). -/
theorem State.zeroPageWord_toNat (s : State) (z : Byte) : (s.zeroPageWord z).toNat =
    (s.answerAt 1 (BitVec.ofNat 16 z.toNat)).toNat +
      256 * (s.answerAt 2 (BitVec.ofNat 16 ((z.toNat + 1) % 256))).toNat := by
  have hnext : zext16 (z + 1) = BitVec.ofNat 16 ((z.toNat + 1) % 256) := by
    rw [zext16_eq_ofNat, BitVec.toNat_add]
    rfl
  rw [State.zeroPageWord, joinBytes_toNat, zext16_eq_ofNat z, hnext, Nat.add_comm, Nat.mul_comm]

/-- A pointer that ends in 0xFF takes its high byte from the start of its own page (R90). -/
theorem indirectHigh_eq (w : Addr) : indirectHigh w = if w.toNat % 256 = 255 then w - 255 else w + 1 := by
  have hlow : lo8 w = 0xFF ↔ w.toNat % 256 = 255 := by rw [byte_eq_iff, lo8_toNat]; rfl
  have hpage : w.toNat % 256 = 255 → joinBytes (hi8 w) 0 = w - 255 := fun h => by
    apply BitVec.eq_of_toNat_eq
    rw [joinBytes_toNat, hi8_toNat]
    bv_omega
  by_cases h : w.toNat % 256 = 255
  · rw [indirectHigh, if_pos (hlow.mpr h), if_pos h, hpage h]
  · rw [indirectHigh, if_neg (mt hlow.mp h), if_neg h]

/-! ### The scratch addresses after an instruction -/

/-- No handler writes the scratch addresses: they are as the resolver left them (R98). -/
theorem exec_scratch {i : Instr} {s t : State} (h : exec i s = .next t) :
    t.addrAbs = (resolve i.operand s).addrAbs ∧ t.addrRel = (resolve i.operand s).addrRel := by
  rw [← Prod.mk.injEq]
  cases i <;> refine next_runInstr_keeps (φ := fun q => (q.addrAbs, q.addrRel)) h (fun _ _ => rfl) fun q => ?_
  all_goals simp [interruptEntry_fields]

theorem exec_addrAbs {i : Instr} {s t : State} (h : exec i s = .next t) : t.addrAbs = effAddr i.operand s :=
  (exec_scratch h).1.trans (resolve_addrAbs _ _)

theorem resolve_addrRel_rel (d : Byte) (s : State) : (resolve (.rel d) s).addrRel = sext16 d := resolve_addrRel _ _

theorem resolve_addrRel_of_mode_ne {o : Operand} (h : o.mode ≠ .rel) (s : State) :
    (resolve o s).addrRel = s.addrRel := by
  rw [resolve_addrRel]
  cases o
  case rel => exact absurd rfl h
  all_goals rfl

/-! ### The operand byte -/

@[simp] theorem resolverCalls_length (o : Operand) (s : State) : (resolverCalls o s).length = resolverReads o := by
  cases o <;> rfl

/-- Outside Implied and Immediate the operand byte is what the bus answers at the effective address (R93). -/
theorem operandByte_eq_answerAt {o : Operand} (himp : o ≠ .imp) (himm : o.mode ≠ .imm) (s : State) :
    operandByte o s = s.answerAt (resolverReads o) (effAddr o s) := by
  cases o
  case imp => exact absurd rfl himp
  case imm => exact absurd rfl himm
  all_goals rfl

/-- Settles O26: it holds. The scratch after an instruction is the resolver's, whose effective address is a number by
the lemmas above, mode by mode. -/
theorem resolversGiveTheEffectiveAddress : Obligations.ResolversGiveTheEffectiveAddress := by
  refine ⟨fun i s t h => ?address, fun o s => ⟨rfl, fun _ => rfl, fun himp himm => ?_, fun hs k q => ?_⟩⟩
  case address =>
    have habs := exec_addrAbs h
    have hrel := (exec_scratch h).2
    refine ⟨fun ho => ?imp, fun v ho => ?imm, fun z ho => ?zp0, fun z ho => ?zpx, fun z ho => ?zpy, fun d ho => ?rel,
      fun w ho => ?abs, fun w ho => ?abx, fun w ho => ?aby, fun w ho => ?ind, fun z ho => ?izx, fun z ho => ?izy,
      fun _ hmode => ⟨habs, hrel.trans (resolve_addrRel_of_mode_ne hmode s)⟩⟩ <;> rw [ho] at habs hrel
    case imp => exact ⟨habs, hrel⟩
    case imm | abs => exact habs
    case zp0 => rw [habs, effAddr, zext16_toNat]
    case zpx | zpy => rw [habs, effAddr, zext16_add_toNat]
    case rel => exact ⟨habs, by rw [hrel, resolve_addrRel_rel, sext16_toNat_eq_ite_lt]⟩
    case abx | aby => rw [habs, effAddr, add_zext16_toNat]
    case ind => rw [habs, effAddr, joinBytes_toNat, indirectHigh_eq, Nat.add_comm, Nat.mul_comm]
    case izx => rw [habs, effAddr, State.zeroPageWord_toNat, BitVec.toNat_add, Nat.mod_add_mod]
    case izy => rw [habs, effAddr, add_zext16_toNat, State.zeroPageWord_toNat]
  · rw [resolverCalls_length, operandByte_eq_answerAt himp himm]
  · exact State.answerAt_of_empty hs k q

/-! ### The page cross -/

theorem hi8_bne (v w : Addr) : (hi8 v != hi8 w) = decide (v.toNat / 256 ≠ w.toNat / 256) := by
  rw [← hi8_toNat, ← hi8_toNat, Bool.eq_iff_iff, bne_iff_ne, decide_eq_true_iff, BitVec.toNat_ne_iff_ne]

theorem pageCross_of_not_indexed {o : Operand} (h : o.mode ∉ [.abx, .aby, .izy]) (s : State) :
    pageCross o s = false := by
  cases o
  case abx | aby | izy => exact absurd (of_decide_eq_true rfl) h
  all_goals rfl

/-- Settles O27: it holds, by comparing the high bytes of the two addresses as numbers. -/
theorem pageCrossIsAChangeOfTheHighByte : Obligations.PageCrossIsAChangeOfTheHighByte := by
  intro s o
  have habx (w : Addr) :
      pageCross (.abx w) s = decide ((w.toNat + s.x.toNat) % 65536 / 256 ≠ w.toNat / 256) := by
    rw [pageCross, hi8_bne, effAddr, add_zext16_toNat, indexBase]
  refine ⟨habx, fun w => ?aby, fun z => ?izy, fun hx w => ?unindexed, fun ho => pageCross_of_not_indexed ho s⟩
  case aby => rw [pageCross, hi8_bne, effAddr, add_zext16_toNat, indexBase]
  case izy =>
    rw [pageCross, hi8_bne, effAddr, add_zext16_toNat, indexBase, State.zeroPageWord_toNat,
      Nat.add_mul_div_left _ _ (by decide), Nat.div_eq_of_lt (BitVec.isLt _), Nat.zero_add]
  case unindexed =>
    have hw : (w.toNat + s.x.toNat) % 65536 = w.toNat := by
      rw [hx]
      exact Nat.mod_eq_of_lt w.isLt
    rw [habx, hw]
    exact decide_eq_false (not_not_intro rfl)

end Sys2Proof.Machine
end

section
/-! PROOFS. PHA and PLA (40_addressing_modes.md R96, R97, 47_stack_flags_transfers.md R160, R162). -/

namespace Sys2Proof.Machine

theorem flagsOf_setZN (s : State) (v : Byte) : FlagsOf v (s.setZN v) := by
  simp [FlagsOf]

/-- PHA leaves A in the slot the stack pointer named, and the pointer one lower (R160). -/
theorem exec_pha_stack {s t : State} (h : exec .pha s = .next t) :
    t.sp = s.sp - 1 ∧ t.peek (stackAddr s.sp) = s.a := by
  cases h
  exact ⟨rfl, (State.push_peek _ _ _).trans (if_pos rfl)⟩

/-- PLA takes the popped byte into A, with Z and N from it (R162). -/
theorem exec_pla_stack {s t : State} (h : exec .pla s = .next t) :
    t.a = s.popValue ∧ t.sp = s.sp + 1 ∧ FlagsOf s.popValue t := by
  cases h
  exact ⟨rfl, rfl, flagsOf_setZN _ s.popValue⟩

/-- Settles O50: it holds. The pop reads the slot that PHA stored to. -/
theorem plaAfterPhaRestoresTheAccumulator : Obligations.PlaAfterPhaRestoresTheAccumulator := by
  intro s t u v hpha hsp hslot hpla
  obtain ⟨htsp, hstored⟩ := exec_pha_stack hpha
  obtain ⟨ha, hvsp, hflags⟩ := exec_pla_stack hpla
  have hback : u.sp + 1 = s.sp := by rw [hsp, htsp, BitVec.sub_add_cancel]
  have hpop : u.popValue = s.a := by rw [State.popValue, hback, hslot 0 _ rfl, hstored]
  rw [hpop] at ha hflags
  exact ⟨ha, hvsp.trans hback, hflags⟩

end Sys2Proof.Machine
end

section
/-! PROOFS. Loads and stores (41_load_store.md R100 to R105). What they leave unchanged follows from the lists of who
may write what; what they change is the one register or the one byte that their handler writes. -/

namespace Sys2Proof.Machine

/-! ### The frame of an instruction -/

/-- No instruction touches the opcode register or a request latch: only a tick does (10_state.md R25, R27). -/
theorem exec_opcode_latches {i : Instr} {s t : State} (h : exec i s = .next t) :
    t.opcode = s.opcode ∧ t.irqPending = s.irqPending ∧ t.nmiPending = s.nmiPending := by
  have hres : (resolve i.operand s).opcode = s.opcode ∧ (resolve i.operand s).irqPending = s.irqPending ∧
      (resolve i.operand s).nmiPending = s.nmiPending := by simp
  rw [← Prod.mk.injEq, ← Prod.mk.injEq] at hres ⊢
  refine Eq.trans ?_ hres
  cases i <;>
    refine next_runInstr_keeps (φ := fun q => (q.opcode, q.irqPending, q.nmiPending)) h (fun _ _ => rfl) fun q => ?_
  all_goals simp [interruptEntry_fields]

/-- Past an instruction that makes no bus write every byte of memory is as before (20_memory.md R48). -/
theorem exec_peek {i : Instr} {s t : State} (h : exec i s = .next t) (hi : i.mnemonic ∉ memoryWriters) (q : Addr) :
    t.peek q = s.peek q := by
  rw [State.peek, exec_mem h hi, State.peek]

/-- The frame of an instruction: the registers and flags its mnemonic may write, and the bytes it stores to. -/
theorem exec_frame {i : Instr} {s t : State} {regs : List Reg} {flags : List Flag} {stored : List Addr}
    (h : exec i s = .next t) (hregs : ∀ r, i.mnemonic ∈ regWriters r → r ∈ regs)
    (hflags : ∀ f, i.mnemonic ∈ flagWriters f → f ∈ flags) (hmem : ∀ q, q ∉ stored → t.peek q = s.peek q) :
    Frame regs flags stored s t := by
  obtain ⟨hopcode, hirq, hnmi⟩ := exec_opcode_latches h
  exact ⟨⟨fun r hr => exec_reg h (mt (hregs r) hr), fun f hf => exec_flag h (mt (hflags f) hf), hmem⟩,
    hopcode, hirq, hnmi⟩

/-! ### Loads -/

/-- The loads of an operand, each with the register it writes (R100, R101, R102). -/
def loads (o : Operand) : List (Instr × Reg) := [(.lda o, .a), (.ldx o, .x), (.ldy o, .y)]

theorem mem_loads {i : Instr} {r : Reg} {o : Operand} :
    (i, r) ∈ loads o ↔ i = .lda o ∧ r = .a ∨ i = .ldx o ∧ r = .x ∨ i = .ldy o ∧ r = .y := by
  simp [loads]

/-- A load takes the operand byte into its register, with Z and N from it. -/
theorem exec_load {i : Instr} {r : Reg} {o : Operand} (hi : (i, r) ∈ loads o) (s : State) :
    ∃ t, exec i s = .next t ∧ t.reg r = operandByte o s ∧ FlagsOf (operandByte o s) t := by
  obtain ⟨rfl, rfl⟩ | ⟨rfl, rfl⟩ | ⟨rfl, rfl⟩ := mem_loads.mp hi <;>
    exact ⟨_, rfl, by simp [State.reg], by simp [FlagsOf]⟩

/-- A load writes its register, Z and N only. -/
theorem exec_load_frame {i : Instr} {r : Reg} {o : Operand} (hi : (i, r) ∈ loads o) {s t : State}
    (h : exec i s = .next t) : Frame [r] [.z, .n] [] s t := by
  obtain ⟨rfl, rfl⟩ | ⟨rfl, rfl⟩ | ⟨rfl, rfl⟩ := mem_loads.mp hi <;>
    exact exec_frame h (fun r => by cases r <;> exact of_decide_eq_true rfl)
      (fun f => by cases f <;> exact of_decide_eq_true rfl) fun q _ => exec_peek h (of_decide_eq_true rfl) q

/-- A load moves the program counter past its operand and adds the page-cross cycle (R14, R95). -/
theorem exec_load_pc_cycles {i : Instr} {r : Reg} {o : Operand} (hi : (i, r) ∈ loads o) {s t : State}
    (h : exec i s = .next t) : t.pc = afterOperand o s ∧ t.cycles = s.cycles + (pageCross o s).toNat := by
  obtain ⟨rfl, rfl⟩ | ⟨rfl, rfl⟩ | ⟨rfl, rfl⟩ := mem_loads.mp hi <;>
    exact ⟨(exec_pc h (of_decide_eq_true rfl) :), (exec_cycles h :)⟩

theorem exec_load_outcome {i : Instr} {r : Reg} {o : Operand} (hi : (i, r) ∈ loads o) (s : State) :
    ∃ t, exec i s = .next t ∧ t.reg r = operandByte o s ∧ FlagsOf (operandByte o s) t ∧
      t.pc = afterOperand o s ∧ t.cycles = s.cycles + (pageCross o s).toNat ∧ Frame [r] [.z, .n] [] s t := by
  obtain ⟨t, h, hreg, hflags⟩ := exec_load hi s
  obtain ⟨hpc, hcycles⟩ := exec_load_pc_cycles hi h
  exact ⟨t, h, hreg, hflags, hpc, hcycles, exec_load_frame hi h⟩

/-- Settles O30: it holds. The rows are read off the opcode table, and the three loads have one outcome. -/
theorem loadsSetTheRegisterAndZeroNegative : Obligations.LoadsSetTheRegisterAndZeroNegative := by
  refine ⟨by decide +kernel, by decide +kernel, by decide +kernel, fun o s => ⟨?lda, ?ldx, ?ldy⟩⟩
  case lda => exact exec_load_outcome (r := .a) (mem_loads.mpr (.inl ⟨rfl, rfl⟩)) s
  case ldx => exact exec_load_outcome (r := .x) (mem_loads.mpr (.inr (.inl ⟨rfl, rfl⟩))) s
  case ldy => exact exec_load_outcome (r := .y) (mem_loads.mpr (.inr (.inr ⟨rfl, rfl⟩))) s

/-! ### Stores -/

/-- The stores to an operand, each with the byte it stores (R103, R104, R105). -/
def stores (o : Operand) (s : State) : List (Instr × Byte) := [(.sta o, s.a), (.stx o, s.x), (.sty o, s.y)]

theorem mem_stores {i : Instr} {v : Byte} {o : Operand} {s : State} :
    (i, v) ∈ stores o s ↔ i = .sta o ∧ v = s.a ∨ i = .stx o ∧ v = s.x ∨ i = .sty o ∧ v = s.y := by
  simp [stores]

/-- A store writes the byte at the effective address and no other. -/
theorem exec_store {i : Instr} {v : Byte} {o : Operand} {s : State} (hi : (i, v) ∈ stores o s) :
    ∃ t, exec i s = .next t ∧ ∀ q, t.peek q = if q = effAddr o s then v else s.peek q := by
  obtain ⟨rfl, rfl⟩ | ⟨rfl, rfl⟩ | ⟨rfl, rfl⟩ := mem_stores.mp hi <;>
    exact ⟨_, rfl, fun q => by simp [State.store_peek]⟩

/-- A store writes no register and no flag. -/
theorem exec_store_frame {i : Instr} {v : Byte} {o : Operand} {s t : State} (hi : (i, v) ∈ stores o s)
    (h : exec i s = .next t) (hmem : ∀ q, q ∉ [effAddr o s] → t.peek q = s.peek q) :
    Frame [] [] [effAddr o s] s t := by
  obtain ⟨rfl, rfl⟩ | ⟨rfl, rfl⟩ | ⟨rfl, rfl⟩ := mem_stores.mp hi <;>
    exact exec_frame h (fun r => by cases r <;> exact of_decide_eq_true rfl)
      (fun f => by cases f <;> exact of_decide_eq_true rfl) hmem

/-- A store moves the program counter past its operand and adds no cycle (R14, R95). -/
theorem exec_store_pc_cycles {i : Instr} {v : Byte} {o : Operand} {s t : State} (hi : (i, v) ∈ stores o s)
    (h : exec i s = .next t) : t.pc = afterOperand o s ∧ t.cycles = s.cycles := by
  obtain ⟨rfl, rfl⟩ | ⟨rfl, rfl⟩ | ⟨rfl, rfl⟩ := mem_stores.mp hi <;>
    exact ⟨(exec_pc h (of_decide_eq_true rfl) :), (exec_cycles h :)⟩

/-- The one bus call of a store after the resolver is its write (R48). -/
theorem exec_store_bus {i : Instr} {v : Byte} {o : Operand} {s t : State} (hi : (i, v) ∈ stores o s)
    (h : exec i s = .next t) :
    t.bus.map accessOf = s.bus.map accessOf ++ resolverCalls o s ++ [Access.write (effAddr o s)] := by
  obtain ⟨hoperand, hhandler⟩ : i.operand = o ∧ handlerCalls i s = [.write (effAddr o s)] := by
    obtain ⟨rfl, rfl⟩ | ⟨rfl, rfl⟩ | ⟨rfl, rfl⟩ := mem_stores.mp hi <;> exact ⟨rfl, rfl⟩
  obtain ⟨calls, hbus, hacc, -⟩ := exec_makes h
  rw [hbus, List.map_append, hacc, hoperand, hhandler, List.append_assoc]

theorem exec_store_outcome {i : Instr} {v : Byte} {o : Operand} {s : State} (hi : (i, v) ∈ stores o s) :
    ∃ t, exec i s = .next t ∧ t.peek (effAddr o s) = v ∧ t.pc = afterOperand o s ∧ t.cycles = s.cycles ∧
      t.bus.map accessOf = s.bus.map accessOf ++ resolverCalls o s ++ [Access.write (effAddr o s)] ∧
      Frame [] [] [effAddr o s] s t := by
  obtain ⟨t, h, hpeek⟩ := exec_store hi
  obtain ⟨hpc, hcycles⟩ := exec_store_pc_cycles hi h
  have hframe := exec_store_frame hi h fun q hq => (hpeek q).trans (if_neg (mt List.mem_singleton.mpr hq))
  exact ⟨t, h, (hpeek _).trans (if_pos rfl), hpc, hcycles, exec_store_bus hi h, hframe⟩

/-- Settles O31: it holds. The rows are read off the opcode table, and the three stores have one outcome. -/
theorem storesWriteTheRegisterAndNoFlag : Obligations.StoresWriteTheRegisterAndNoFlag := by
  refine ⟨by decide +kernel, by decide +kernel, by decide +kernel, fun o s => ⟨?sta, ?stx, ?sty⟩⟩
  case sta => exact exec_store_outcome (mem_stores.mpr (.inl ⟨rfl, rfl⟩))
  case stx => exact exec_store_outcome (mem_stores.mpr (.inr (.inl ⟨rfl, rfl⟩)))
  case sty => exact exec_store_outcome (mem_stores.mpr (.inr (.inr ⟨rfl, rfl⟩)))

end Sys2Proof.Machine
end

section
/-! PROOFS. Arithmetic and logic (42_arithmetic_logical.md R110 to R116). ADC and SBC are one addition, with the operand
byte or with its complement; AND, ORA and EOR are one write of A, Z and N. The
addition is read as a sum of numbers, and its overflow bit as the sign change that a signed result out of range
makes. -/

namespace Sys2Proof.Machine

/-! ### The addition as numbers (R110, R111, R116) -/

/-- SBC adds the bitwise complement (R111). -/
theorem subOperand_toNat (m : Byte) : (subOperand m).toNat = 255 - m.toNat := by
  have hnot : subOperand m = ~~~m := BitVec.xor_allOnes
  rw [hnot, BitVec.toNat_not]

/-- The complement of a byte is, as a signed number, one below its negation. -/
theorem subOperand_toInt (m : Byte) : (subOperand m).toInt = -m.toInt - 1 := by
  have := m.isLt
  rw [BitVec.toInt_eq_toNat_cond, BitVec.toInt_eq_toNat_cond, subOperand_toNat]
  omega

/-- Adding the complement subtracts the operand and the borrow, modulo 256 (R111). -/
theorem sumByte_subOperand (a m : Byte) (c : Bool) :
    sumByte a (subOperand m) c = a - m - (1 - BitVec.ofNat 8 c.toNat) := by
  have := m.isLt
  rw [byte_eq_iff, sumByte_toNat, subOperand_toNat]
  cases c <;> simp only [Bool.toNat_false, Bool.toNat_true] <;> bv_omega

/-- Adding the complement carries exactly when the subtraction needs no borrow (R111). -/
theorem sumCarry_subOperand (a m : Byte) (c : Bool) :
    sumCarry a (subOperand m) c = decide (a.toNat ≥ m.toNat + (1 - c.toNat)) := by
  have := m.isLt
  have := c.toNat_le
  rw [sumCarry, sumNat, subOperand_toNat, decide_eq_decide]
  omega

/-- The overflow bit is set when both addends have one sign and the result has the other (R110). -/
theorem sumOverflow_eq_signs (a m : Byte) (c : Bool) : sumOverflow a m c =
    (a.getLsbD 7 == m.getLsbD 7 && a.getLsbD 7 != (sumByte a m c).getLsbD 7) := by
  rw [sumOverflow, BitVec.getLsbD_and, BitVec.getLsbD_not, BitVec.getLsbD_xor, BitVec.getLsbD_xor]
  cases a.getLsbD 7 <;> cases m.getLsbD 7 <;> rfl

/-- The overflow bit is set exactly when the sum of the signed addends and the carry is outside -128..127. -/
theorem sumOverflow_eq_signed (a m : Byte) (c : Bool) : sumOverflow a m c =
    decide (a.toInt + m.toInt + c.toNat < -128 ∨ a.toInt + m.toInt + c.toNat > 127) := by
  have := a.isLt
  have := m.isLt
  have := c.toNat_le
  rw [sumOverflow_eq_signs, byte_bit7, byte_bit7, byte_bit7, sumByte_toNat, BitVec.toInt_eq_toNat_cond,
    BitVec.toInt_eq_toNat_cond, Bool.eq_iff_iff, Bool.and_eq_true, beq_iff_eq, bne_iff_ne, ne_eq, decide_eq_decide,
    decide_eq_decide, decide_eq_true_iff]
  omega

/-! ### The instructions that write A from an operand -/

/-- The arithmetic and logical instructions of an operand that write A, each with the flags it writes
(R110 to R114). -/
def accumulatorOps (o : Operand) : List (Instr × List Flag) :=
  [(.adc o, [.c, .z, .v, .n]), (.sbc o, [.c, .z, .v, .n]), (.and o, [.z, .n]), (.ora o, [.z, .n]), (.eor o, [.z, .n])]

theorem mem_accumulatorOps {i : Instr} {flags : List Flag} {o : Operand} : (i, flags) ∈ accumulatorOps o ↔
    (i = .adc o ∨ i = .sbc o) ∧ flags = [.c, .z, .v, .n] ∨
      (i = .and o ∨ i = .ora o ∨ i = .eor o) ∧ flags = [.z, .n] := by
  simp [accumulatorOps, or_and_right, or_assoc]

/-- Such an instruction moves the program counter past its operand, adds the page-cross cycle (R14, R95), and writes A
and its flags only. -/
theorem exec_accumulatorOp {i : Instr} {flags : List Flag} {o : Operand} (hi : (i, flags) ∈ accumulatorOps o)
    {s t : State} (h : exec i s = .next t) :
    t.pc = afterOperand o s ∧ t.cycles = s.cycles + (pageCross o s).toNat ∧ Frame [.a] flags [] s t := by
  obtain ⟨rfl | rfl, rfl⟩ | ⟨rfl | rfl | rfl, rfl⟩ := mem_accumulatorOps.mp hi <;>
    exact ⟨(exec_pc h (of_decide_eq_true rfl) :), (exec_cycles h :),
      exec_frame h (fun r => by cases r <;> exact of_decide_eq_true rfl)
        (fun f => by cases f <;> exact of_decide_eq_true rfl) fun q _ => exec_peek h (of_decide_eq_true rfl) q⟩

/-! ### ADC and SBC -/

/-- A, C, Z, V and N after the addition of A, a byte and C (R110). -/
def SumOutcome (m : Byte) (s t : State) : Prop :=
  let sum := s.a.toNat + m.toNat + (s.flag .c).toNat
  t.a.toNat = sum % 256 ∧ t.flag .c = decide (sum > 255) ∧ t.flag .z = decide (sum % 256 = 0) ∧
    t.flag .v = sumOverflow s.a m (s.flag .c) ∧ t.flag .n = decide (sum % 256 ≥ 128)

/-- A and the flags are those that `addToA` leaves. -/
def AddsToA (m : Byte) (s t : State) : Prop := t.a = (addToA m s).a ∧ ∀ f, t.flag f = (addToA m s).flag f

theorem exec_adc_addsToA {o : Operand} {s t : State} (h : exec (.adc o) s = .next t) :
    AddsToA (operandByte o s) s t := by
  cases h
  exact ⟨by simp, fun f => by simp⟩

theorem exec_sbc_addsToA {o : Operand} {s t : State} (h : exec (.sbc o) s = .next t) :
    AddsToA (subOperand (operandByte o s)) s t := by
  cases h
  exact ⟨by simp, fun f => by simp⟩

theorem AddsToA.sumOutcome {m : Byte} {s t : State} (h : AddsToA m s t) : SumOutcome m s t := by
  obtain ⟨ha, hflag⟩ := h
  have hsum := sumByte_toNat s.a m (s.flag .c)
  refine ⟨by rw [ha, addToA_a, hsum], ?c, ?z, ?v, ?n⟩ <;> rw [hflag, addToA_flag]
  case c | v => rfl
  case z => simp [byte_eq_iff, hsum]
  case n => rw [if_pos rfl, byte_bit7, hsum]

/-- Settles O32: it holds. The rows are read off the opcode table, and ADC is the addition of the operand byte. -/
theorem adcAddsWithCarry : Obligations.AdcAddsWithCarry := by
  refine ⟨by decide +kernel, fun o s => ?_⟩
  obtain ⟨t, h⟩ : ∃ t, exec (.adc o) s = .next t := ⟨_, rfl⟩
  exact ⟨t, h, (exec_adc_addsToA h).sumOutcome, exec_accumulatorOp (mem_accumulatorOps.mpr (.inl ⟨.inl rfl, rfl⟩)) h⟩

/-- Settles O33: it holds. SBC is the addition of the complement, which is a subtraction with borrow. -/
theorem sbcAddsTheComplement : Obligations.SbcAddsTheComplement := by
  refine ⟨by decide +kernel, fun o s => ?_⟩
  obtain ⟨t, h⟩ : ∃ t, exec (.sbc o) s = .next t := ⟨_, rfl⟩
  have hadds := exec_sbc_addsToA h
  obtain ⟨hpc, hcycles, hframe⟩ := exec_accumulatorOp (mem_accumulatorOps.mpr (.inl ⟨.inr rfl, rfl⟩)) h
  have ha : t.a = s.a - operandByte o s - (1 - BitVec.ofNat 8 (s.flag .c).toNat) := by
    rw [hadds.1, addToA_a, sumByte_subOperand]
  have hc : t.flag .c = decide (s.a.toNat ≥ (operandByte o s).toNat + (1 - (s.flag .c).toNat)) := by
    rw [hadds.2, ← sumCarry_subOperand, addToA_flag]
    rfl
  exact ⟨t, h, hadds.sumOutcome, hpc, hcycles, ha, hc, hframe⟩

/-- Settles O34: it holds. For SBC the complement is `-M - 1`, so that the signed sum is the signed difference. -/
theorem overflowIsSignedOverflow : Obligations.OverflowIsSignedOverflow := by
  refine fun o s t => ⟨fun h => ?adc, fun h => ?sbc⟩
  case adc =>
    obtain ⟨-, -, -, hv, -⟩ := (exec_adc_addsToA h).sumOutcome
    rw [hv, sumOverflow_eq_signed]
  case sbc =>
    obtain ⟨-, -, -, hv, -⟩ := (exec_sbc_addsToA h).sumOutcome
    have hdiff : s.a.toInt + (subOperand (operandByte o s)).toInt + (s.flag .c).toNat =
        s.a.toInt - (operandByte o s).toInt - (1 - ((s.flag .c).toNat : Int)) := by
      rw [subOperand_toInt]
      omega
    rw [hv, sumOverflow_eq_signed, hdiff]

/-! ### AND, ORA, EOR -/

/-- The logical instructions of an operand, each with the byte it leaves in A (R112, R113, R114). -/
def logicals (o : Operand) (s : State) : List (Instr × Byte) :=
  [(.and o, s.a &&& operandByte o s), (.ora o, s.a ||| operandByte o s), (.eor o, s.a ^^^ operandByte o s)]

theorem mem_logicals {i : Instr} {v : Byte} {o : Operand} {s : State} : (i, v) ∈ logicals o s ↔
    i = .and o ∧ v = s.a &&& operandByte o s ∨ i = .ora o ∧ v = s.a ||| operandByte o s ∨
      i = .eor o ∧ v = s.a ^^^ operandByte o s := by
  simp [logicals]

/-- A logical instruction leaves its combination in A, with Z and N from it. -/
theorem exec_logical {i : Instr} {v : Byte} {o : Operand} {s : State} (hi : (i, v) ∈ logicals o s) :
    ∃ t, exec i s = .next t ∧ t.a = v ∧ FlagsOf v t := by
  obtain ⟨rfl, rfl⟩ | ⟨rfl, rfl⟩ | ⟨rfl, rfl⟩ := mem_logicals.mp hi <;>
    exact ⟨_, rfl, by simp, by simp [FlagsOf]⟩

theorem exec_logical_outcome {i : Instr} {v : Byte} {o : Operand} {s : State} (hi : (i, v) ∈ logicals o s) :
    ∃ t, exec i s = .next t ∧ t.a = v ∧ FlagsOf v t ∧ t.pc = afterOperand o s ∧
      t.cycles = s.cycles + (pageCross o s).toNat ∧ Frame [.a] [.z, .n] [] s t := by
  have hop : i = .and o ∨ i = .ora o ∨ i = .eor o := (mem_logicals.mp hi).imp And.left (Or.imp And.left And.left)
  obtain ⟨t, h, ha, hflags⟩ := exec_logical hi
  exact ⟨t, h, ha, hflags, exec_accumulatorOp (mem_accumulatorOps.mpr (.inr ⟨hop, rfl⟩)) h⟩

/-- Settles O35: it holds. The rows are read off the opcode table, and the three instructions have one outcome. -/
theorem logicCombinesWithTheAccumulator : Obligations.LogicCombinesWithTheAccumulator := by
  refine ⟨by decide +kernel, by decide +kernel, by decide +kernel, fun o s => ⟨?and, ?ora, ?eor⟩⟩
  case and => exact exec_logical_outcome (mem_logicals.mpr (.inl ⟨rfl, rfl⟩))
  case ora => exact exec_logical_outcome (mem_logicals.mpr (.inr (.inl ⟨rfl, rfl⟩)))
  case eor => exact exec_logical_outcome (mem_logicals.mpr (.inr (.inr ⟨rfl, rfl⟩)))

/-! ### BIT -/

/-- BIT writes the three flags that `bitTest` computes from A and the operand byte (R115). -/
theorem exec_bit_flag {o : Operand} {s t : State} (h : exec (.bit o) s = .next t) (f : Flag) :
    t.flag f = (bitTest (operandByte o s) s).flag f := by
  cases h
  simp

/-- BIT writes Z, V and N only. -/
theorem exec_bit_frame {o : Operand} {s t : State} (h : exec (.bit o) s = .next t) :
    Frame [] [.z, .v, .n] [] s t :=
  exec_frame h (fun r => by cases r <;> exact of_decide_eq_true rfl)
    (fun f => by cases f <;> exact of_decide_eq_true rfl) fun q _ => exec_peek h (of_decide_eq_true rfl) q

/-- Settles O36: it holds. The rows are read off the opcode table, and BIT changes nothing but its three flags. -/
theorem bitTestsMemoryAgainstA : Obligations.BitTestsMemoryAgainstA := by
  refine ⟨by decide +kernel, fun o s => ?_⟩
  obtain ⟨t, h⟩ : ∃ t, exec (.bit o) s = .next t := ⟨_, rfl⟩
  have hflag := exec_bit_flag h
  exact ⟨t, h, (hflag .z).trans (bitTest_flag _ _ _), (hflag .n).trans (bitTest_flag _ _ _),
    (hflag .v).trans (bitTest_flag _ _ _), exec_pc h (of_decide_eq_true rfl), exec_cycles h, exec_bit_frame h⟩

end Sys2Proof.Machine
end

section
/-! PROOFS. Shifts and rotates (43_shift_rotate.md R120 to R123). The four share one outcome, which a carry and a result
byte decide; a rotate of the accumulator is a rotate of the nine bits of C and A. -/

namespace Sys2Proof.Machine

/-! ### The write-back in the frame (40_addressing_modes.md R94) -/

theorem mem_backBytes {o : Operand} {s : State} {q : Addr} : q ∈ backBytes o s ↔ o ≠ .imp ∧ q = effAddr o s := by
  by_cases ho : o = .imp <;> simp [backBytes, ho]

/-- A frame that leaves A open, of an instruction that changes A in Implied mode only, is the frame of a write-back. -/
theorem Frame.narrow_backRegs {o : Operand} {flags : List Flag} {stored : List Addr} {s t : State}
    (h : Frame [.a] flags stored s t) (ha : o ≠ .imp → t.a = s.a) : Frame (backRegs o) flags stored s t := by
  by_cases ho : o = .imp
  · rwa [backRegs, if_pos ho]
  · obtain ⟨⟨hregs, hflags, hmem⟩, hopcode, hirq, hnmi⟩ := h
    refine ⟨⟨fun r _ => ?_, hflags, hmem⟩, hopcode, hirq, hnmi⟩
    by_cases hr : r = .a
    · subst hr
      exact ha ho
    · exact hregs r (mt List.mem_singleton.mp hr)

/-! ### The shared outcome -/

/-- The shifts and rotates of an operand, each with the carry and the byte that it computes from the operand byte
(R120 to R123). -/
def shifts (o : Operand) (s : State) : List (Instr × Bool × Byte) :=
  let v := operandByte o s
  [(.asl o, v.getLsbD 7, aslByte v), (.lsr o, v.getLsbD 0, lsrByte v), (.rol o, v.getLsbD 7, rolByte v (s.flag .c)),
    (.ror o, v.getLsbD 0, rorByte v (s.flag .c))]

theorem mem_shifts {i : Instr} {c : Bool} {r : Byte} {o : Operand} {s : State} : (i, c, r) ∈ shifts o s ↔
    (i = .asl o ∧ c = (operandByte o s).getLsbD 7 ∧ r = aslByte (operandByte o s)) ∨
      (i = .lsr o ∧ c = (operandByte o s).getLsbD 0 ∧ r = lsrByte (operandByte o s)) ∨
      (i = .rol o ∧ c = (operandByte o s).getLsbD 7 ∧ r = rolByte (operandByte o s) (s.flag .c)) ∨
      (i = .ror o ∧ c = (operandByte o s).getLsbD 0 ∧ r = rorByte (operandByte o s) (s.flag .c)) := by
  simp [shifts]

/-- A shift or rotate leaves A, the flags and memory as `shiftResult` does at the effective address. -/
theorem exec_shift {i : Instr} {c : Bool} {r : Byte} {o : Operand} {s : State} (hi : (i, c, r) ∈ shifts o s) :
    ∃ t, exec i s = .next t ∧ t.a = (if o = .imp then r else s.a) ∧
      (∀ f, t.flag f = (shiftResult o c r s).flag f) ∧
      ∀ q, t.peek q = if o ≠ .imp ∧ q = effAddr o s then r else s.peek q := by
  obtain ⟨rfl, rfl, rfl⟩ | ⟨rfl, rfl, rfl⟩ | ⟨rfl, rfl, rfl⟩ | ⟨rfl, rfl, rfl⟩ := mem_shifts.mp hi <;>
    exact ⟨_, rfl, by simp, fun f => by simp, fun q => by simp [shiftResult_peek]⟩

/-- A shift or rotate moves the program counter past its operand, adds no cycle (R14, R95), and may write A, C, Z, N
and memory only. -/
theorem exec_shift_frame {i : Instr} {c : Bool} {r : Byte} {o : Operand} {s t : State} (hi : (i, c, r) ∈ shifts o s)
    (h : exec i s = .next t) {stored : List Addr} (hmem : ∀ q, q ∉ stored → t.peek q = s.peek q) :
    t.pc = afterOperand o s ∧ t.cycles = s.cycles ∧ Frame [.a] [.c, .z, .n] stored s t := by
  obtain ⟨rfl, -⟩ | ⟨rfl, -⟩ | ⟨rfl, -⟩ | ⟨rfl, -⟩ := mem_shifts.mp hi <;>
    exact ⟨(exec_pc h (of_decide_eq_true rfl) :), (exec_cycles h :),
      exec_frame h (fun r => by cases r <;> exact of_decide_eq_true rfl)
        (fun f => by cases f <;> exact of_decide_eq_true rfl) hmem⟩

/-- What a shift or rotate with carry `c` and result `r`, read as a number, leaves. -/
def ShiftOutcome (o : Operand) (c : Bool) (r : Nat) (s t : State) : Prop :=
  ((if o = .imp then t.a else t.peek (effAddr o s)).toNat = r ∧
    t.flag .c = c ∧ t.flag .z = decide (r = 0) ∧ t.flag .n = decide (r ≥ 128)) ∧
  t.pc = afterOperand o s ∧ t.cycles = s.cycles ∧ Frame (backRegs o) [.c, .z, .n] (backBytes o s) s t

theorem exec_shift_outcome {i : Instr} {c : Bool} {r : Byte} {o : Operand} {s : State}
    (hi : (i, c, r) ∈ shifts o s) : ∃ t, exec i s = .next t ∧ ShiftOutcome o c r.toNat s t := by
  obtain ⟨t, h, ha, hflag, hpeek⟩ := exec_shift hi
  have hresult : (if o = .imp then t.a else t.peek (effAddr o s)) = r := by
    by_cases ho : o = .imp <;> simp [ha, hpeek, ho]
  obtain ⟨hpc, hcycles, hframe⟩ := exec_shift_frame hi h (stored := backBytes o s)
    fun q hq => (hpeek q).trans (if_neg (mt mem_backBytes.mpr hq))
  have hback := hframe.narrow_backRegs fun ho => ha.trans (if_neg ho)
  refine ⟨t, h, ⟨congrArg _ hresult, ?c, ?z, ?n⟩, hpc, hcycles, hback⟩ <;> rw [hflag, shiftResult_flag]
  case c => rfl
  case z => simp [byte_eq_iff]
  case n => rw [if_pos rfl, byte_bit7]

/-- Settles O37: it holds. The rows are read off the opcode table, and ASL and LSR have the shared outcome. -/
theorem shiftsMoveOneBitAndInsertZero : Obligations.ShiftsMoveOneBitAndInsertZero := by
  refine ⟨by decide +kernel, by decide +kernel, fun o s => ⟨?asl, ?lsr⟩⟩
  case asl =>
    have h := exec_shift_outcome (o := o) (s := s) (mem_shifts.mpr (.inl ⟨rfl, rfl, rfl⟩))
    rwa [byte_bit7, aslByte_toNat] at h
  case lsr =>
    have h := exec_shift_outcome (o := o) (s := s) (mem_shifts.mpr (.inr (.inl ⟨rfl, rfl, rfl⟩)))
    rwa [byte_bit0, lsrByte_toNat] at h

/-- Settles O38: it holds. The rows are read off the opcode table, and ROL and ROR have the shared outcome. -/
theorem rotatesGoThroughCarry : Obligations.RotatesGoThroughCarry := by
  refine ⟨by decide +kernel, by decide +kernel, fun o s => ⟨?rol, ?ror⟩⟩
  case rol =>
    have h := exec_shift_outcome (o := o) (s := s) (mem_shifts.mpr (.inr (.inr (.inl ⟨rfl, rfl, rfl⟩))))
    rwa [byte_bit7, rolByte_toNat] at h
  case ror =>
    have h := exec_shift_outcome (o := o) (s := s) (mem_shifts.mpr (.inr (.inr (.inr ⟨rfl, rfl, rfl⟩))))
    rwa [byte_bit0, rorByte_toNat] at h

/-! ### Nine rotates of the accumulator -/

/-- C and A as one word of nine bits, C at bit 8. -/
def State.carryA (s : State) : BitVec 9 := BitVec.cons (s.flag .c) s.a

theorem State.carryA_inj {s t : State} (h : t.carryA = s.carryA) : t.a = s.a ∧ t.flag .c = s.flag .c := by
  refine ⟨?a, ?c⟩
  case a => simpa [carryA] using congrArg (BitVec.setWidth 8) h
  case c => simpa [carryA] using congrArg BitVec.msb h

/-- ROL of a byte through a carry is a rotate of nine bits (R122), bit by bit. -/
theorem cons_rolByte (v : Byte) (c : Bool) :
    BitVec.cons (v.getLsbD 7) (rolByte v c) = (BitVec.cons c v).rotateLeft 1 := by
  ext k hk
  cases c <;> interval_cases k <;> simp [rolByte, BitVec.getElem_cons, BitVec.getElem_rotateLeft]

/-- ROR of a byte through a carry is a rotate of nine bits the other way (R123), bit by bit. -/
theorem cons_rorByte (v : Byte) (c : Bool) :
    BitVec.cons (v.getLsbD 0) (rorByte v c) = (BitVec.cons c v).rotateRight 1 := by
  ext k hk
  cases c <;> interval_cases k <;> simp [rorByte, BitVec.getElem_cons, BitVec.getElem_rotateRight]

/-- In Implied mode the nine bits after a shift or rotate are its carry and its result. -/
theorem exec_shift_carryA {i : Instr} {c : Bool} {r : Byte} {s : State} (hi : (i, c, r) ∈ shifts .imp s) :
    ∃ t, exec i s = .next t ∧ t.carryA = BitVec.cons c r := by
  obtain ⟨t, h, ha, hflag, -⟩ := exec_shift hi
  refine ⟨t, h, ?_⟩
  rw [State.carryA, ha, if_pos rfl, hflag, shiftResult_flag]
  rfl

theorem exec_rol_carryA (s : State) : ∃ t, exec (.rol .imp) s = .next t ∧ t.carryA = s.carryA.rotateLeft 1 := by
  rw [State.carryA, ← cons_rolByte]
  exact exec_shift_carryA (mem_shifts.mpr (.inr (.inr (.inl ⟨rfl, rfl, rfl⟩))))

theorem exec_ror_carryA (s : State) : ∃ t, exec (.ror .imp) s = .next t ∧ t.carryA = s.carryA.rotateRight 1 := by
  rw [State.carryA, ← cons_rorByte]
  exact exec_shift_carryA (mem_shifts.mpr (.inr (.inr (.inr ⟨rfl, rfl, rfl⟩))))

/-- What an instruction does to a view of the state, it does `n` times when it is executed `n` times. -/
theorem execTimes_iterate {α : Type} {view : State → α} {f : α → α} {i : Instr}
    (hi : ∀ s, ∃ t, exec i s = .next t ∧ view t = f (view s)) (n : Nat) (s : State) :
    ∃ t, execTimes n i s = .next t ∧ view t = f^[n] (view s) := by
  induction n generalizing s with
  | zero => exact ⟨s, rfl, rfl⟩
  | succ n ih =>
    obtain ⟨t, ht, hview⟩ := hi s
    obtain ⟨u, hu, hview'⟩ := ih t
    refine ⟨u, ?_, ?_⟩
    · rw [execTimes, ht]
      exact hu
    · rw [hview', hview, Function.iterate_succ_apply]

theorem rotateLeft_rotateLeft_one (w : BitVec 9) (n : Nat) : (w.rotateLeft n).rotateLeft 1 = w.rotateLeft (n + 1) := by
  ext k hk
  simp only [BitVec.getElem_rotateLeft]
  split_ifs <;> congr 1 <;> omega

theorem rotateLeft_one_iterate (w : BitVec 9) (n : Nat) : (BitVec.rotateLeft · 1)^[n] w = w.rotateLeft n := by
  induction n with
  | zero => ext; simp
  | succ n ih => rw [Function.iterate_succ_apply', ih, rotateLeft_rotateLeft_one]

/-- Nine rotates by one place carry every bit of nine once around. -/
theorem rotateLeft_one_iterate_nine (w : BitVec 9) : (BitVec.rotateLeft · 1)^[9] w = w := by
  rw [rotateLeft_one_iterate]
  ext
  simp

theorem rotateRight_rotateLeft_one (w : BitVec 9) : (w.rotateLeft 1).rotateRight 1 = w := by
  ext k hk
  simp only [BitVec.getElem_rotateRight, BitVec.getElem_rotateLeft]
  split_ifs <;> congr 1 <;> omega

/-- A rotate right undoes a rotate left, so that nine of them undo nine that change nothing. -/
theorem rotateRight_one_iterate_nine (w : BitVec 9) : (BitVec.rotateRight · 1)^[9] w = w := by
  have hinv : Function.LeftInverse (BitVec.rotateRight · 1) (BitVec.rotateLeft · 1 : BitVec 9 → BitVec 9) :=
    rotateRight_rotateLeft_one
  simpa only [rotateLeft_one_iterate_nine] using hinv.iterate 9 w

/-- Settles O39: it holds. Each execution rotates the nine bits of C and A, and nine rotates of nine bits change
nothing. -/
theorem nineRotatesRestoreTheAccumulator : Obligations.NineRotatesRestoreTheAccumulator := by
  refine fun s => ⟨?rol, ?ror⟩
  case rol =>
    obtain ⟨t, h, hbits⟩ := execTimes_iterate (f := (BitVec.rotateLeft · 1)) exec_rol_carryA 9 s
    exact ⟨t, h, State.carryA_inj (hbits.trans (rotateLeft_one_iterate_nine _))⟩
  case ror =>
    obtain ⟨t, h, hbits⟩ := execTimes_iterate (f := (BitVec.rotateRight · 1)) exec_ror_carryA 9 s
    exact ⟨t, h, State.carryA_inj (hbits.trans (rotateRight_one_iterate_nine _))⟩

end Sys2Proof.Machine
end

section
/-! PROOFS. Increments, decrements and comparisons (44_incdec_compare.md R130 to R138). INC and DEC have one outcome,
which the byte they store decides; INX, INY, DEX and DEY one, which the byte they leave in their register decides; and
the three comparisons one, which the compared register decides. -/

namespace Sys2Proof.Machine

/-! ### The results as numbers -/

theorem byte_add_one_toNat (v : Byte) : (v + 1).toNat = (v.toNat + 1) % 256 := BitVec.toNat_add v 1

theorem byte_sub_one_toNat (v : Byte) : (v - 1).toNat = (v.toNat + 255) % 256 := by
  rw [BitVec.toNat_sub, Nat.add_comm]
  rfl

/-- The difference of a comparison wraps modulo 256 (R136). -/
theorem compareDiff_toNat (r m : Byte) : (compareDiff r m).toNat = (r.toNat + 256 - m.toNat) % 256 := by
  have := m.isLt
  rw [compareDiff, BitVec.toNat_sub]
  omega

/-- Z and N of a byte, read off its number (10_state.md R20). -/
theorem flagsOf_iff_toNat {v : Byte} {t : State} :
    FlagsOf v t ↔ t.flag .z = decide (v.toNat = 0) ∧ t.flag .n = decide (v.toNat ≥ 128) := by
  simp only [FlagsOf, byte_bit7, byte_eq_iff v 0]
  rfl

/-! ### The frame by the writers' lists -/

/-- `exec_frame` with the registers and flags listed, so that its two conditions on a mnemonic can be evaluated. -/
theorem exec_frame_of_writers {i : Instr} {s t : State} {regs : List Reg} {flags : List Flag} {stored : List Addr}
    (h : exec i s = .next t) (hregs : ∀ r ∈ [Reg.a, .x, .y, .sp], i.mnemonic ∈ regWriters r → r ∈ regs)
    (hflags : ∀ f ∈ [Flag.c, .z, .i, .d, .b, .u, .v, .n], i.mnemonic ∈ flagWriters f → f ∈ flags)
    (hmem : ∀ q, q ∉ stored → t.peek q = s.peek q) : Frame regs flags stored s t :=
  exec_frame h (fun r => hregs r (by cases r <;> decide)) (fun f => hflags f (by cases f <;> decide)) hmem

/-! ### INC and DEC -/

/-- INC and DEC of an operand, each with the byte it stores (R130, R131). -/
def memorySteps (o : Operand) (s : State) : List (Instr × Byte) :=
  [(.inc o, operandByte o s + 1), (.dec o, operandByte o s - 1)]

theorem mem_memorySteps {i : Instr} {v : Byte} {o : Operand} {s : State} : (i, v) ∈ memorySteps o s ↔
    i = .inc o ∧ v = operandByte o s + 1 ∨ i = .dec o ∧ v = operandByte o s - 1 := by
  simp [memorySteps]

/-- INC or DEC writes its byte at the effective address and no other, with Z and N from it. -/
theorem exec_memoryStep {i : Instr} {v : Byte} {o : Operand} {s : State} (hi : (i, v) ∈ memorySteps o s) :
    ∃ t, exec i s = .next t ∧ FlagsOf v t ∧ ∀ q, t.peek q = if q = effAddr o s then v else s.peek q := by
  obtain ⟨rfl, rfl⟩ | ⟨rfl, rfl⟩ := mem_memorySteps.mp hi <;>
    exact ⟨_, rfl, by simp [FlagsOf], fun q => by simp [memoryResult_peek]⟩

/-- INC or DEC moves the program counter past its operand, adds no cycle (R14, R95), and writes Z, N and memory
only. -/
theorem exec_memoryStep_frame {i : Instr} {v : Byte} {o : Operand} {s t : State} (hi : (i, v) ∈ memorySteps o s)
    (h : exec i s = .next t) {stored : List Addr} (hmem : ∀ q, q ∉ stored → t.peek q = s.peek q) :
    t.pc = afterOperand o s ∧ t.cycles = s.cycles ∧ Frame [] [.z, .n] stored s t := by
  obtain ⟨rfl, -⟩ | ⟨rfl, -⟩ := mem_memorySteps.mp hi <;>
    exact ⟨(exec_pc h (of_decide_eq_true rfl) :), (exec_cycles h :),
      exec_frame_of_writers h (of_decide_eq_true rfl) (of_decide_eq_true rfl) hmem⟩

theorem exec_memoryStep_outcome {i : Instr} {v : Byte} {o : Operand} {s : State} (hi : (i, v) ∈ memorySteps o s) :
    ∃ t, exec i s = .next t ∧ ((t.peek (effAddr o s)).toNat = v.toNat ∧
      t.flag .z = decide (v.toNat = 0) ∧ t.flag .n = decide (v.toNat ≥ 128)) ∧
      t.pc = afterOperand o s ∧ t.cycles = s.cycles ∧ Frame [] [.z, .n] [effAddr o s] s t := by
  obtain ⟨t, h, hflags, hpeek⟩ := exec_memoryStep hi
  have hstored : t.peek (effAddr o s) = v := (hpeek _).trans (if_pos rfl)
  exact ⟨t, h, ⟨congrArg _ hstored, flagsOf_iff_toNat.mp hflags⟩, exec_memoryStep_frame hi h
    fun q hq => (hpeek q).trans (if_neg (mt List.mem_singleton.mpr hq))⟩

/-- Settles O40: it holds. The rows are read off the opcode table, and INC and DEC have the shared outcome, whatever the
operand is. -/
theorem incAndDecChangeOneMemoryByte : Obligations.IncAndDecChangeOneMemoryByte := by
  refine ⟨by decide +kernel, by decide +kernel, fun o s => ⟨?inc, ?dec⟩⟩
  case inc =>
    obtain ⟨t, h, hvalue, hrest⟩ := exec_memoryStep_outcome (mem_memorySteps.mpr (.inl ⟨rfl, rfl⟩))
    rw [byte_add_one_toNat] at hvalue
    exact ⟨t, h, fun _ => hvalue, hrest⟩
  case dec =>
    obtain ⟨t, h, hvalue, hrest⟩ := exec_memoryStep_outcome (mem_memorySteps.mpr (.inr ⟨rfl, rfl⟩))
    rw [byte_sub_one_toNat] at hvalue
    exact ⟨t, h, fun _ => hvalue, hrest⟩

/-! ### INX, INY, DEX, DEY -/

/-- The steps of an index register, each with the register and the byte it leaves there (R132 to R135). -/
def registerSteps (s : State) : List (Instr × Reg × Byte) :=
  [(.inx, .x, s.x + 1), (.iny, .y, s.y + 1), (.dex, .x, s.x - 1), (.dey, .y, s.y - 1)]

theorem mem_registerSteps {i : Instr} {r : Reg} {v : Byte} {s : State} : (i, r, v) ∈ registerSteps s ↔
    (i = .inx ∧ r = .x ∧ v = s.x + 1) ∨ (i = .iny ∧ r = .y ∧ v = s.y + 1) ∨
      (i = .dex ∧ r = .x ∧ v = s.x - 1) ∨ (i = .dey ∧ r = .y ∧ v = s.y - 1) := by
  simp [registerSteps]

/-- A register step leaves its byte in its register, with Z and N from it. -/
theorem exec_registerStep {i : Instr} {r : Reg} {v : Byte} {s : State} (hi : (i, r, v) ∈ registerSteps s) :
    ∃ t, exec i s = .next t ∧ t.reg r = v ∧ FlagsOf v t := by
  obtain ⟨rfl, rfl, rfl⟩ | ⟨rfl, rfl, rfl⟩ | ⟨rfl, rfl, rfl⟩ | ⟨rfl, rfl, rfl⟩ := mem_registerSteps.mp hi <;>
    exact ⟨_, rfl, by simp [State.reg], by simp [FlagsOf]⟩

/-- A register step has no operand byte to pass, adds no cycle, and writes its register, Z and N only. -/
theorem exec_registerStep_frame {i : Instr} {r : Reg} {v : Byte} {s t : State} (hi : (i, r, v) ∈ registerSteps s)
    (h : exec i s = .next t) : t.pc = s.pc ∧ t.cycles = s.cycles ∧ Frame [r] [.z, .n] [] s t := by
  obtain ⟨rfl, rfl, -⟩ | ⟨rfl, rfl, -⟩ | ⟨rfl, rfl, -⟩ | ⟨rfl, rfl, -⟩ := mem_registerSteps.mp hi <;>
    exact ⟨(exec_pc h (of_decide_eq_true rfl)).trans (BitVec.add_zero _), (exec_cycles h :),
      exec_frame_of_writers h (of_decide_eq_true rfl) (of_decide_eq_true rfl)
        fun q _ => exec_peek h (of_decide_eq_true rfl) q⟩

theorem exec_registerStep_outcome {i : Instr} {r : Reg} {v : Byte} {s : State} (hi : (i, r, v) ∈ registerSteps s) :
    ∃ t, exec i s = .next t ∧ (t.reg r).toNat = v.toNat ∧ FlagsOf (t.reg r) t ∧
      t.pc = s.pc ∧ t.cycles = s.cycles ∧ Frame [r] [.z, .n] [] s t := by
  obtain ⟨t, h, rfl, hflags⟩ := exec_registerStep hi
  exact ⟨t, h, rfl, hflags, exec_registerStep_frame hi h⟩

/-- Settles O41: it holds. The rows are read off the opcode table, and the four register steps have one outcome. -/
theorem registerIncrementsWrap : Obligations.RegisterIncrementsWrap := by
  refine ⟨by decide +kernel, by decide +kernel, by decide +kernel, by decide +kernel,
    fun s => ⟨?inx, ?iny, ?dex, ?dey⟩⟩
  case inx =>
    rw [← byte_add_one_toNat]
    exact exec_registerStep_outcome (r := .x) (mem_registerSteps.mpr (.inl ⟨rfl, rfl, rfl⟩))
  case iny =>
    rw [← byte_add_one_toNat]
    exact exec_registerStep_outcome (r := .y) (mem_registerSteps.mpr (.inr (.inl ⟨rfl, rfl, rfl⟩)))
  case dex =>
    rw [← byte_sub_one_toNat]
    exact exec_registerStep_outcome (r := .x) (mem_registerSteps.mpr (.inr (.inr (.inl ⟨rfl, rfl, rfl⟩))))
  case dey =>
    rw [← byte_sub_one_toNat]
    exact exec_registerStep_outcome (r := .y) (mem_registerSteps.mpr (.inr (.inr (.inr ⟨rfl, rfl, rfl⟩))))

/-! ### CMP, CPX, CPY -/

/-- The comparisons with an operand, each with the register it compares (R136, R137, R138). -/
def comparisons (o : Operand) : List (Instr × Reg) := [(.cmp o, .a), (.cpx o, .x), (.cpy o, .y)]

theorem mem_comparisons {i : Instr} {r : Reg} {o : Operand} :
    (i, r) ∈ comparisons o ↔ i = .cmp o ∧ r = .a ∨ i = .cpx o ∧ r = .x ∨ i = .cpy o ∧ r = .y := by
  simp [comparisons]

/-- A comparison leaves the flags that `compareFlags` computes from its register and the operand byte. -/
theorem exec_comparison {i : Instr} {r : Reg} {o : Operand} (hi : (i, r) ∈ comparisons o) (s : State) :
    ∃ t, exec i s = .next t ∧ ∀ f, t.flag f = (compareFlags (s.reg r) (operandByte o s) s).flag f := by
  obtain ⟨rfl, rfl⟩ | ⟨rfl, rfl⟩ | ⟨rfl, rfl⟩ := mem_comparisons.mp hi <;>
    exact ⟨_, rfl, fun f => by simp [State.reg]⟩

/-- A comparison moves the program counter past its operand (R14), and writes C, Z and N only. -/
theorem exec_comparison_frame {i : Instr} {r : Reg} {o : Operand} (hi : (i, r) ∈ comparisons o) {s t : State}
    (h : exec i s = .next t) : t.pc = afterOperand o s ∧ Frame [] [.c, .z, .n] [] s t := by
  obtain ⟨rfl, -⟩ | ⟨rfl, -⟩ | ⟨rfl, -⟩ := mem_comparisons.mp hi <;>
    exact ⟨(exec_pc h (of_decide_eq_true rfl) :),
      exec_frame_of_writers h (of_decide_eq_true rfl) (of_decide_eq_true rfl)
        fun q _ => exec_peek h (of_decide_eq_true rfl) q⟩

/-- C, Z and N of the unsigned comparison of two bytes, and of their wrapped difference (R136). -/
theorem compareFlags_czn (r m : Byte) (s : State) :
    (compareFlags r m s).flag .c = decide (r.toNat ≥ m.toNat) ∧ (compareFlags r m s).flag .z = decide (r = m) ∧
      (compareFlags r m s).flag .n = decide ((r.toNat + 256 - m.toNat) % 256 ≥ 128) := by
  refine ⟨?c, ?z, ?n⟩ <;> rw [compareFlags_flag]
  case c => rfl
  case z => exact decide_eq_decide.mpr sub_eq_zero
  case n => rw [if_pos rfl, byte_bit7, compareDiff_toNat]

/-- The cycles of a comparison are left to `extraCycles`, which gives the page-cross cycle to CMP only (R95). -/
theorem exec_comparison_outcome {i : Instr} {r : Reg} {o : Operand} (hi : (i, r) ∈ comparisons o) (s : State) :
    ∃ t, exec i s = .next t ∧ t.flag .c = decide ((s.reg r).toNat ≥ (operandByte o s).toNat) ∧
      t.flag .z = decide (s.reg r = operandByte o s) ∧
      t.flag .n = decide (((s.reg r).toNat + 256 - (operandByte o s).toNat) % 256 ≥ 128) ∧
      t.pc = afterOperand o s ∧ t.cycles = s.cycles + extraCycles i s ∧ Frame [] [.c, .z, .n] [] s t := by
  obtain ⟨t, h, hflag⟩ := exec_comparison hi s
  obtain ⟨hc, hz, hn⟩ := compareFlags_czn (s.reg r) (operandByte o s) s
  obtain ⟨hpc, hframe⟩ := exec_comparison_frame hi h
  exact ⟨t, h, (hflag _).trans hc, (hflag _).trans hz, (hflag _).trans hn, hpc, exec_cycles h, hframe⟩

/-- Settles O42: it holds. The rows are read off the opcode table, and the three comparisons have one outcome. -/
theorem comparesSetCarryZeroNegative : Obligations.ComparesSetCarryZeroNegative := by
  refine ⟨by decide +kernel, by decide +kernel, by decide +kernel, fun o s => ⟨?cmp, ?cpx, ?cpy⟩⟩
  case cmp => exact exec_comparison_outcome (r := .a) (mem_comparisons.mpr (.inl ⟨rfl, rfl⟩)) s
  case cpx => exact exec_comparison_outcome (r := .x) (mem_comparisons.mpr (.inr (.inl ⟨rfl, rfl⟩))) s
  case cpy => exact exec_comparison_outcome (r := .y) (mem_comparisons.mpr (.inr (.inr ⟨rfl, rfl⟩))) s

end Sys2Proof.Machine
end

section
/-! PROOFS. The eight branches (45_branches.md R140 to R148). They differ in their condition only: it reads a flag,
which the resolver leaves alone, so that one outcome of the resolver followed by `branch` serves all eight. -/

namespace Sys2Proof.Machine

/-- The resolver of Relative, then `branch`, leaves every register, flag, byte of memory and latch alone. -/
theorem runInstr_branch_frame (taken : Bool) (d : Byte) (s : State) :
    Frame [] [] [] s (runInstr (.rel d) false (branch taken) s) where
  untouched :=
    { regs := fun r _ => by cases r <;> simp [State.reg]
      flags := fun f _ => by simp
      memory := fun q _ => by simp }
  opcode := by simp
  irq := by simp
  nmi := by simp

/-- The resolver leaves the program counter at the next instruction and the displacement in `addr_rel`, so that the
pages which `branch` compares are those of the target and of the next instruction (R86, R140). -/
theorem runInstr_branch_outcome (taken : Bool) (d : Byte) (s : State) :
    BranchOutcome taken d s (runInstr (.rel d) false (branch taken) s) := by
  have hpc : (resolve (.rel d) s).pc = s.pc + 1 := resolve_pc _ _
  have htarget : branchTarget (resolve (.rel d) s) = s.pc + 1 + sext16 d := by
    rw [branchTarget, hpc, resolve_addrRel_rel]
  refine ⟨?pc, ?cycles, ?bus, runInstr_branch_frame taken d s⟩
  case pc => rw [runInstr_pc, branch_pc, htarget, hpc]
  case cycles =>
    rw [runInstr_cycles, branch_cycles, htarget, hpc, resolve_cycles, Bool.and_false]
    rfl
  case bus =>
    rw [runInstr_bus, branch_bus]
    rfl

/-- A branch whose condition the resolver leaves alone is taken exactly when the condition holds before it. -/
theorem next_branch_outcome {cond : State → Bool} {d : Byte} {s : State}
    (hcond : cond (resolve (.rel d) s) = cond s) :
    ∃ t, (.next (runInstr (.rel d) false (fun r => branch (cond r) r) s) : Result) = .next t ∧
      BranchOutcome (cond s) d s t :=
  ⟨_, rfl, hcond ▸ runInstr_branch_outcome (cond (resolve (.rel d) s)) d s⟩

/-- A branch that is taken when a flag is set (R142, R143, R145, R148). -/
theorem next_branchSet_outcome (f : Flag) (d : Byte) (s : State) :
    ∃ t, (.next (runInstr (.rel d) false (fun r => branch (r.flag f) r) s) : Result) = .next t ∧
      BranchOutcome (s.flag f) d s t :=
  next_branch_outcome (cond := fun r => r.flag f) (resolve_flag _ s f)

/-- A branch that is taken when a flag is clear (R141, R144, R146, R147). -/
theorem next_branchClear_outcome (f : Flag) (d : Byte) (s : State) :
    ∃ t, (.next (runInstr (.rel d) false (fun r => branch (!r.flag f) r) s) : Result) = .next t ∧
      BranchOutcome (!s.flag f) d s t :=
  next_branch_outcome (cond := fun r => !r.flag f) (congrArg (!·) (resolve_flag _ s f))

/-- Settles O43: it holds. The rows are read off the opcode table, and each branch tests one flag, set or clear. -/
theorem branchesTestTheirFlag : Obligations.BranchesTestTheirFlag := by
  refine ⟨by decide +kernel, by decide +kernel, by decide +kernel, by decide +kernel, by decide +kernel,
    by decide +kernel, by decide +kernel, by decide +kernel,
    fun d s => ⟨?bcc, ?bcs, ?beq, ?bne, ?bmi, ?bpl, ?bvc, ?bvs⟩⟩
  case bcc => exact next_branchClear_outcome .c d s
  case bcs => exact next_branchSet_outcome .c d s
  case beq => exact next_branchSet_outcome .z d s
  case bne => exact next_branchClear_outcome .z d s
  case bmi => exact next_branchSet_outcome .n d s
  case bpl => exact next_branchClear_outcome .n d s
  case bvc => exact next_branchClear_outcome .v d s
  case bvs => exact next_branchSet_outcome .v d s

end Sys2Proof.Machine
end

section
/-! PROOFS. JMP, JSR and RTS (46_jumps.md R150 to R152). JMP has one outcome, which the effective address decides. What
JSR leaves on the stack and what RTS takes from it are said once, as bytes at stack addresses; the return from a call is
the one after the other. -/

namespace Sys2Proof.Machine

/-- The bus calls of an instruction, without the bytes: those of its resolver, then those of its handler (R48). -/
theorem exec_bus_access {i : Instr} {s t : State} (h : exec i s = .next t) :
    t.bus.map accessOf = s.bus.map accessOf ++ (resolverCalls i.operand s ++ handlerCalls i s) := by
  obtain ⟨calls, hbus, hacc, -, -⟩ := exec_makes h
  rw [hbus, List.map_append, hacc]

/-! ### JMP -/

/-- JMP takes the effective address, whatever the mode, and makes the resolver's calls only (R150). -/
theorem exec_jmp_outcome (o : Operand) (s : State) :
    ∃ t, exec (.jmp o) s = .next t ∧ t.pc = effAddr o s ∧ t.cycles = s.cycles ∧ Frame [] [] [] s t ∧
      t.bus.map accessOf = s.bus.map accessOf ++ resolverCalls o s := by
  obtain ⟨t, h, hpc⟩ : ∃ t, exec (.jmp o) s = .next t ∧ t.pc = effAddr o s := ⟨_, rfl, resolve_addrAbs o s⟩
  have hframe : Frame [] [] [] s t :=
    exec_frame_of_writers h (of_decide_eq_true rfl) (of_decide_eq_true rfl)
      fun q _ => exec_peek h (of_decide_eq_true rfl) q
  exact ⟨t, h, hpc, (exec_cycles h :), hframe, by simpa [handlerCalls, Instr.operand] using exec_bus_access h⟩

/-- Settles O44: it holds. The rows are read off the opcode table; the rest is the one outcome of JMP, whose effective
address and resolver calls are by definition those of the two modes. -/
theorem jmpGoesToTheResolvedAddress : Obligations.JmpGoesToTheResolvedAddress := by
  refine ⟨by decide +kernel, fun s => ⟨fun w => ?abs, fun w => ?ind, fun o => ?any⟩⟩
  case abs => exact exec_jmp_outcome (.abs w) s
  case ind => exact exec_jmp_outcome (.ind w) s
  case any =>
    obtain ⟨t, h, hpc, -⟩ := exec_jmp_outcome o s
    exact ⟨t, h, hpc⟩

/-! ### JSR -/

/-- JSR jumps to its target, and leaves the stack pointer two lower (R151). -/
theorem exec_jsr_pc_sp {target : Addr} {s t : State} (h : exec (.jsr target) s = .next t) :
    t.pc = target ∧ t.sp = s.sp - 2 := by
  cases h
  have hsp : s.sp - 1#8 - 1#8 = s.sp - 2#8 := by bv_omega
  exact ⟨by simp [effAddr], by simpa using hsp⟩

/-- JSR stores the two bytes of the address of its own last byte, the high one first and so one higher, and nothing
else (R151). -/
theorem exec_jsr_peek {target : Addr} {s t : State} (h : exec (.jsr target) s = .next t) (q : Addr) :
    t.peek q = if q = stackAddr (s.sp - 1) then lo8 (s.pc + 1)
      else if q = stackAddr s.sp then hi8 (s.pc + 1) else s.peek q := by
  cases h
  have hpc : s.pc + 2#16 - 1#16 = s.pc + 1#16 := by bv_omega
  simp [State.push_peek, Operand.mode, Mode.operandBytes, hpc]

theorem exec_jsr_low {target : Addr} {s t : State} (h : exec (.jsr target) s = .next t) :
    t.peek (stackAddr (s.sp - 1)) = lo8 (s.pc + 1) := (exec_jsr_peek h _).trans (if_pos rfl)

/-- The second push does not reach the first, also where the stack pointer wraps. -/
theorem exec_jsr_high {target : Addr} {s t : State} (h : exec (.jsr target) s = .next t) :
    t.peek (stackAddr s.sp) = hi8 (s.pc + 1) := by
  have hne : stackAddr s.sp ≠ stackAddr (s.sp - 1) := mt stackAddr_injective (by bv_omega)
  rw [exec_jsr_peek h, if_neg hne, if_pos rfl]

/-- JSR writes the stack pointer and the two stack bytes only. -/
theorem exec_jsr_frame {target : Addr} {s t : State} (h : exec (.jsr target) s = .next t) :
    Frame [.sp] [] [stackAddr s.sp, stackAddr (s.sp - 1)] s t := by
  refine exec_frame_of_writers h (of_decide_eq_true rfl) (of_decide_eq_true rfl) fun q hq => ?_
  obtain ⟨hhigh, hlow⟩ : q ≠ stackAddr s.sp ∧ q ≠ stackAddr (s.sp - 1) := by simpa using hq
  rw [exec_jsr_peek h, if_neg hlow, if_neg hhigh]

/-- Settles O45: it holds. The row is read off the opcode table, and the stack offsets are those of SP as numbers. -/
theorem jsrPushesTheAddressOfItsLastByte : Obligations.JsrPushesTheAddressOfItsLastByte := by
  refine ⟨by decide +kernel, fun target s => ?_⟩
  obtain ⟨t, h⟩ : ∃ t, exec (.jsr target) s = .next t := ⟨_, rfl⟩
  obtain ⟨hpc, hsp⟩ := exec_jsr_pc_sp h
  refine ⟨t, h, hpc, ?sp, ?high, ?low, (exec_cycles h :), exec_jsr_frame h⟩
  case sp => rw [hsp]; bv_omega
  case high => rw [State.read_stack, exec_jsr_high h]
  case low => rw [← byte_sub_one_toNat, State.read_stack, exec_jsr_low h]

/-! ### RTS -/

/-- RTS continues one past the word pulled, low byte first, and leaves the stack pointer two higher (R152). -/
theorem exec_rts_pc_sp {s t : State} (h : exec .rts s = .next t) :
    t.pc = joinBytes (s.answerAt 1 (stackAddr (s.sp + 2))) (s.answerAt 0 (stackAddr (s.sp + 1))) + 1 ∧
      t.sp = s.sp + 2 := by
  cases h
  have hsp : s.sp + 1#8 + 1#8 = s.sp + 2#8 := by bv_omega
  simp [State.popValue, resolve_imp, hsp]

/-- RTS writes the stack pointer only. -/
theorem exec_rts_frame {s t : State} (h : exec .rts s = .next t) : Frame [.sp] [] [] s t :=
  exec_frame_of_writers h (of_decide_eq_true rfl) (of_decide_eq_true rfl)
    fun q _ => exec_peek h (of_decide_eq_true rfl) q

/-- Settles O46: it holds. The row is read off the opcode table, and the word and the stack offsets are numbers. -/
theorem rtsReturnsOnePastThePulledWord : Obligations.RtsReturnsOnePastThePulledWord := by
  refine ⟨by decide +kernel, fun s => ?_⟩
  obtain ⟨t, h⟩ : ∃ t, exec .rts s = .next t := ⟨_, rfl⟩
  obtain ⟨hpc, hsp⟩ := exec_rts_pc_sp h
  refine ⟨t, h, ?pc, ?sp, (exec_cycles h :), exec_rts_frame h⟩
  case pc =>
    rw [hpc, BitVec.toNat_add, joinBytes_toNat, stackAddr_eq_ofNat, stackAddr_eq_ofNat, BitVec.toNat_add,
      BitVec.toNat_add, Nat.mul_comm, Nat.add_comm (256 * _)]
    rfl
  case sp => rw [hsp, BitVec.toNat_add]; rfl

/-! ### The return from a call -/

/-- Settles O47: it holds. RTS pulls the two bytes that JSR stored, and the address they make is that of the last byte
of the JSR. -/
theorem rtsAfterJsrResumesAfterTheCall : Obligations.RtsAfterJsrResumesAfterTheCall := by
  intro target s t u v hjsr hsp hslots hrts
  obtain ⟨-, htsp⟩ := exec_jsr_pc_sp hjsr
  obtain ⟨hpc, hvsp⟩ := exec_rts_pc_sp hrts
  have hlowAt : u.sp + 1 = s.sp - 1 := by rw [hsp, htsp]; bv_omega
  have hhighAt : u.sp + 2 = s.sp := by rw [hsp, htsp, BitVec.sub_add_cancel]
  have hlow : u.answerAt 0 (stackAddr (u.sp + 1)) = lo8 (s.pc + 1) := by
    rw [hlowAt, hslots 0 _ rfl, exec_jsr_low hjsr]
  have hhigh : u.answerAt 1 (stackAddr (u.sp + 2)) = hi8 (s.pc + 1) := by
    rw [hhighAt, hslots 1 _ rfl, exec_jsr_high hjsr]
  refine ⟨?pc, hvsp.trans hhighAt⟩
  calc v.pc = joinBytes (hi8 (s.pc + 1)) (lo8 (s.pc + 1)) + 1 := by rw [hpc, hlow, hhigh]
    _ = s.pc + 1 + 1 := by rw [joinBytes_hi8_lo8]
    _ = s.pc + 2 := BitVec.add_assoc s.pc 1 1

end Sys2Proof.Machine
end

section
/-! PROOFS. Stack, flag and transfer instructions (47_stack_flags_transfers.md R160 to R176): one-byte instructions that
leave the program counter to the opcode fetch and add no cycle. The flag instructions share one outcome, and so do the
transfers that set Z and N. -/

namespace Sys2Proof.Machine

/-! ### One-byte instructions -/

/-- Without an operand there is no page to cross and no branch to take (40_addressing_modes.md R95, R140). -/
theorem extraCycles_of_operand_imp {i : Instr} (hi : i.operand = .imp) (s : State) : extraCycles i s = 0 := by
  cases i
  case lda o | ldx o | ldy o | adc o | sbc o | and o | ora o | eor o | cmp o =>
    cases (hi : o = .imp)
    rfl
  case bcc | bcs | beq | bne | bmi | bpl | bvc | bvs => cases hi
  all_goals rfl

/-- A one-byte instruction that is no writer of the program counter leaves it after the opcode, adds no cycle, and
changes only what its mnemonic may write. -/
theorem exec_oneByte_frame {i : Instr} {s t : State} {regs : List Reg} {flags : List Flag} {stored : List Addr}
    (h : exec i s = .next t) (hi : i.operand = .imp) (hpc : i.mnemonic ∉ pcWriters)
    (hregs : ∀ r ∈ [Reg.a, .x, .y, .sp], i.mnemonic ∈ regWriters r → r ∈ regs)
    (hflags : ∀ f ∈ [Flag.c, .z, .i, .d, .b, .u, .v, .n], i.mnemonic ∈ flagWriters f → f ∈ flags)
    (hmem : ∀ q, q ∉ stored → t.peek q = s.peek q) :
    t.pc = s.pc ∧ t.cycles = s.cycles ∧ Frame regs flags stored s t := by
  refine ⟨?pc, ?cycles, exec_frame_of_writers h hregs hflags hmem⟩
  case pc =>
    rw [exec_pc h hpc, hi]
    exact BitVec.add_zero _
  case cycles => rw [exec_cycles h, extraCycles_of_operand_imp hi, Nat.add_zero]

/-! ### PHA, PLA, PHP, PLP -/

/-- PHP pushes the status with B and U set, and clears both live (R161). -/
theorem exec_php_stack {s t : State} (h : exec .php s = .next t) :
    t.sp = s.sp - 1 ∧ t.p = s.p &&& 0xCF ∧
      ∀ q, t.peek q = if q = stackAddr s.sp then s.p ||| 0x30 else s.peek q := by
  cases h
  exact ⟨rfl, rfl, fun q => State.push_peek _ _ q⟩

/-- PLP takes the popped byte into the status, with U set (R163). -/
theorem exec_plp_stack {s t : State} (h : exec .plp s = .next t) :
    t.sp = s.sp + 1 ∧ t.p = s.popValue ||| 0x20 := by
  cases h
  exact ⟨rfl, rfl⟩

/-- PHA stores to the slot the stack pointer named, and nowhere else (R160). -/
theorem exec_pha_peek_of_ne {s t : State} (h : exec .pha s = .next t) {q : Addr} (hq : q ≠ stackAddr s.sp) :
    t.peek q = s.peek q := by
  cases h
  exact (State.push_peek _ _ q).trans (if_neg hq)

/-- Settles O48: it holds. The rows are read off the opcode table; the stack is that of O50's lemmas. -/
theorem phaAndPlaMoveTheAccumulator : Obligations.PhaAndPlaMoveTheAccumulator := by
  refine ⟨by decide +kernel, by decide +kernel, fun s => ⟨?pha, ?pla⟩⟩
  case pha =>
    obtain ⟨t, h⟩ : ∃ t, exec .pha s = .next t := ⟨_, rfl⟩
    obtain ⟨hsp, hslot⟩ := exec_pha_stack h
    refine ⟨t, h, (t.read_stack s.sp).trans hslot, hsp ▸ byte_sub_one_toNat s.sp, ?_⟩
    exact exec_oneByte_frame h rfl (of_decide_eq_true rfl) (of_decide_eq_true rfl) (of_decide_eq_true rfl)
      fun q hq => exec_pha_peek_of_ne h (mt List.mem_singleton.mpr hq)
  case pla =>
    obtain ⟨t, h⟩ : ∃ t, exec .pla s = .next t := ⟨_, rfl⟩
    obtain ⟨ha, hsp, hzn⟩ := exec_pla_stack h
    refine ⟨t, h, ha.trans s.popValue_eq, ha ▸ hzn, hsp ▸ byte_add_one_toNat s.sp, ?_⟩
    exact exec_oneByte_frame h rfl (of_decide_eq_true rfl) (of_decide_eq_true rfl) (of_decide_eq_true rfl)
      fun q _ => exec_peek h (of_decide_eq_true rfl) q

/-- Settles O49: it holds. The rows are read off the opcode table; the two status copies are those of PHP and PLP. -/
theorem phpAndPlpMoveTheStatus : Obligations.PhpAndPlpMoveTheStatus := by
  refine ⟨by decide +kernel, by decide +kernel, fun s => ⟨?php, ?plp⟩⟩
  case php =>
    obtain ⟨t, h⟩ : ∃ t, exec .php s = .next t := ⟨_, rfl⟩
    obtain ⟨hsp, hp, hpeek⟩ := exec_php_stack h
    refine ⟨t, h, (t.read_stack s.sp).trans ((hpeek _).trans (if_pos rfl)), hp, hsp ▸ byte_sub_one_toNat s.sp, ?_⟩
    exact exec_oneByte_frame h rfl (of_decide_eq_true rfl) (of_decide_eq_true rfl) (of_decide_eq_true rfl)
      fun q hq => (hpeek q).trans (if_neg (mt List.mem_singleton.mpr hq))
  case plp =>
    obtain ⟨t, h⟩ : ∃ t, exec .plp s = .next t := ⟨_, rfl⟩
    obtain ⟨hsp, hp⟩ := exec_plp_stack h
    refine ⟨t, h, s.popValue_eq ▸ hp, hsp ▸ byte_add_one_toNat s.sp, ?_⟩
    exact exec_oneByte_frame h rfl (of_decide_eq_true rfl) (of_decide_eq_true rfl) (of_decide_eq_true rfl)
      fun q _ => exec_peek h (of_decide_eq_true rfl) q

/-! ### The flag instructions -/

/-- An instruction whose handler writes one flag writes that bit of `P` and nothing else. -/
theorem next_setFlag_outcome (f : Flag) (v : Bool) (s : State) :
    ∃ t, (.next (runInstr .imp false (fun r => r.setFlag f v) s) : Result) = .next t ∧
      t.p = putFlag s.p f v ∧ t.flag f = v ∧ t.pc = s.pc ∧ t.cycles = s.cycles ∧ Frame [] [f] [] s t := by
  refine ⟨_, rfl, rfl, ?flag, rfl, rfl, ⟨⟨fun r _ => ?reg, fun g hg => ?others, fun q _ => rfl⟩, rfl, rfl, rfl⟩⟩
  case flag => rw [runInstr_flag, State.setFlag_flag, if_pos rfl]
  case reg => cases r <;> rfl
  case others => rw [runInstr_flag, State.setFlag_flag, if_neg (mt List.mem_singleton.mpr hg), resolve_flag]

/-! ### The transfers -/

/-- A register is written. -/
def State.setReg (s : State) (r : Reg) (v : Byte) : State :=
  match r with
  | .a => s.setA v
  | .x => s.setX v
  | .y => s.setY v
  | .sp => s.setSp v

theorem State.setReg_reg (s : State) (r k : Reg) (v : Byte) :
    (s.setReg r v).reg k = if k = r then v else s.reg k := by
  cases r <;> cases k <;> rfl

theorem State.setReg_others (s : State) (r : Reg) (v : Byte) :
    (s.setReg r v).p = s.p ∧ (s.setReg r v).pc = s.pc ∧ (s.setReg r v).cycles = s.cycles ∧
      (s.setReg r v).mem = s.mem ∧ (s.setReg r v).opcode = s.opcode ∧
      (s.setReg r v).irqPending = s.irqPending ∧ (s.setReg r v).nmiPending = s.nmiPending := by
  cases r <;> exact ⟨rfl, rfl, rfl, rfl, rfl, rfl, rfl⟩

theorem State.setZN_reg (s : State) (v : Byte) (k : Reg) : (s.setZN v).reg k = s.reg k := by
  cases k <;> rfl

/-- What Implied's resolver writes is no register (40_addressing_modes.md R81). -/
theorem State.setFetched_reg (s : State) (v : Byte) (k : Reg) : (s.setFetched v).reg k = s.reg k := by
  cases k <;> rfl

/-- An instruction that copies a register, with Z and N from it, changes that register, Z and N only. -/
theorem next_transfer_outcome (dst src : Reg) (s : State) :
    ∃ t, (.next (runInstr .imp false (fun r => (r.setReg dst (r.reg src)).setZN (r.reg src)) s) : Result) = .next t ∧
      t.reg dst = s.reg src ∧ FlagsOf (s.reg src) t ∧ t.pc = s.pc ∧ t.cycles = s.cycles ∧
      Frame [dst] [.z, .n] [] s t := by
  refine ⟨_, rfl, ?_⟩
  rw [runInstr_imp, State.setFetched_reg]
  obtain ⟨hp, hpc, hcycles, hmem, hopcode, hirq, hnmi⟩ := (s.setFetched s.a).setReg_others dst (s.reg src)
  have hflag : ∀ f, ((s.setFetched s.a).setReg dst (s.reg src)).flag f = s.flag f := fun f => congrArg (getFlag · f) hp
  refine ⟨?dst, flagsOf_setZN _ _, hpc, hcycles,
    ⟨⟨fun r hr => ?reg, fun f hf => ?flag, fun q _ => congrArg (Memory.read · q.toNat) hmem⟩, hopcode, hirq, hnmi⟩⟩
  case dst => rw [State.setZN_reg, State.setReg_reg, if_pos rfl]
  case reg =>
    rw [State.setZN_reg, State.setReg_reg, if_neg (mt List.mem_singleton.mpr hr), State.setFetched_reg]
  case flag =>
    obtain ⟨hz, hn⟩ : f ≠ .z ∧ f ≠ .n := by simpa using hf
    rw [State.setZN_flag, if_neg hn, if_neg hz, hflag]

/-- TXS copies X to the stack pointer (R176). -/
theorem exec_txs_outcome (s : State) :
    ∃ t, exec .txs s = .next t ∧ t.sp = s.x ∧ t.pc = s.pc ∧ t.cycles = s.cycles ∧ Frame [.sp] [] [] s t := by
  obtain ⟨t, h, hsp⟩ : ∃ t, exec .txs s = .next t ∧ t.sp = s.x := ⟨_, rfl, rfl⟩
  exact ⟨t, h, hsp, exec_oneByte_frame h rfl (of_decide_eq_true rfl) (of_decide_eq_true rfl) (of_decide_eq_true rfl)
    fun q _ => exec_peek h (of_decide_eq_true rfl) q⟩

/-- Settles O52: it holds. The rows are read off the opcode table, and the five transfers that set Z and N have one
outcome. -/
theorem transfersCopyARegister : Obligations.TransfersCopyARegister := by
  refine ⟨by decide +kernel, by decide +kernel, by decide +kernel, by decide +kernel, by decide +kernel,
    by decide +kernel, fun s => ⟨?tax, ?txa, ?tay, ?tya, ?tsx, exec_txs_outcome s⟩⟩
  case tax => exact next_transfer_outcome .x .a s
  case txa => exact next_transfer_outcome .a .x s
  case tay => exact next_transfer_outcome .y .a s
  case tya => exact next_transfer_outcome .a .y s
  case tsx => exact next_transfer_outcome .x .sp s

end Sys2Proof.Machine
end

section
/-! PROOFS. What a tick at a boundary does with the request latches (60_exceptions.md R200, R203, R206), the boundary
after CLI and SEI (47_stack_flags_transfers.md R168, R169), NOP and the illegal bytes (48_system.md R182, R183), and the
ticks after a reset (70_reset_and_hazards.md R230, R231). -/

namespace Sys2Proof.Machine

/-! ### Every tick answers -/

/-- A tick at a boundary that takes no interrupt runs the next instruction, and leaves no request latched: the NMI latch
was clear, and an IRQ request was masked and is dropped (R206). -/
theorem step_runs {s : State} (hc : s.cycles = 0) (hint : takesInterrupt s = false) :
    ∃ t, exec s.nextInstr (beginInstr ((s.setBus []).setIrq false)) = .next t ∧ step s = .next (countDown t) ∧
      t.irqPending = false ∧ t.nmiPending = false := by
  obtain ⟨signal, handler, hexec⟩ := exec_eq_runInstr s.nextInstr (beginInstr ((s.setBus []).setIrq false))
  obtain ⟨hn, hq⟩ := Bool.or_eq_false_iff.mp hint
  obtain ⟨hirq, hnmi, -⟩ := exec_latches hexec
  refine ⟨_, hexec, step_exec hc hn hq hexec, hirq.trans ?_, hnmi.trans ?_⟩
  · rw [beginInstr_irqPending, State.setIrq_irqPending]
  · rw [beginInstr_nmiPending, State.setIrq_nmiPending, State.setBus_nmiPending, hn]

/-- Settles O7: it holds. A tick is idle, an entry or an instruction, and each of them answers. -/
theorem everyStepAnswersANextState : Obligations.EveryStepAnswersANextState := by
  intro s
  by_cases hc : s.cycles = 0
  · cases hint : takesInterrupt s
    · obtain ⟨t, -, hstep, -⟩ := step_runs hc hint
      exact ⟨_, hstep⟩
    · cases hn : s.nmiPending
      · obtain ⟨hq, hi⟩ : s.irqPending = true ∧ s.flag .i = false := by simpa [takesInterrupt, hn] using hint
        exact ⟨_, step_irq hc hn hq hi⟩
      · exact ⟨_, step_nmi hc hn⟩
  · exact ⟨_, step_idle hc⟩

/-! ### A masked request -/

theorem takesInterrupt_of_masked {s : State} (hn : s.nmiPending = false) (hi : s.flag .i = true) :
    takesInterrupt s = false := by
  simp [takesInterrupt, hn, hi]

/-- With I set the IRQ latch does not reach the tick at a boundary, which clears it (R203, R206). -/
theorem step_masked {s : State} (hc : s.cycles = 0) (hn : s.nmiPending = false) (hi : s.flag .i = true) :
    ∃ u, u.irqPending = false ∧ ∀ b, step (s.setIrq b) = .next u := by
  obtain ⟨t, hexec, -, hirq, -⟩ := step_runs hc (takesInterrupt_of_masked hn hi)
  exact ⟨countDown t, hirq, fun b =>
    step_exec hc hn (Bool.or_eq_false_iff.mp (takesInterrupt_of_masked (s := s.setIrq b) hn hi)).2 hexec⟩

/-- Settles O20: it holds, at a boundary by `step_masked` and in a window because an idle tick only counts down. -/
theorem maskedIrqIsDropped : Obligations.MaskedIrqIsDropped := by
  intro s t hn hi h
  refine ⟨fun hc => ?boundary, fun hc => ?window⟩
  case boundary =>
    obtain ⟨u, hirq, hstep⟩ := step_masked hc hn hi
    obtain rfl : u = t := Host.Outcome.next.inj ((hstep s.irqPending).symm.trans h)
    exact ⟨(hstep true).trans (hstep false).symm, hirq⟩
  case window =>
    obtain rfl : countDown (s.setBus []) = t := Host.Outcome.next.inj ((step_idle hc).symm.trans h)
    rfl

/-! ### CLI and SEI -/

/-- A tick that runs CLI or SEI leaves I as the instruction wrote it, and no request latched (R168, R169). -/
theorem step_setI {i : Instr} {v : Bool} {s : State} (hc : s.cycles = 0) (hint : takesInterrupt s = false)
    (hnext : s.nextInstr = i) (hi : ∀ r, exec i r = .next (runInstr .imp false (fun q => q.setFlag .i v) r)) :
    ∃ t, step s = .next t ∧ t.flag .i = v ∧ t.irqPending = false ∧ t.nmiPending = false := by
  obtain ⟨t, hexec, hstep, hirq, hnmi⟩ := step_runs hc hint
  rw [hnext, hi] at hexec
  obtain ⟨t', ht', -, hflag, -⟩ := next_setFlag_outcome .i v (beginInstr ((s.setBus []).setIrq false))
  obtain rfl : t' = t := Host.Outcome.next.inj (ht'.symm.trans hexec)
  exact ⟨_, hstep, hflag, hirq, hnmi⟩

/-- Settles O51: it holds. The rows are read off the opcode table, the seven instructions have one outcome, and CLI and
SEI act at the next boundary because the tick that runs them leaves no request latched. -/
theorem flagInstructionsWriteOneBit : Obligations.FlagInstructionsWriteOneBit := by
  refine ⟨by decide +kernel, by decide +kernel, by decide +kernel, by decide +kernel, by decide +kernel,
    by decide +kernel, by decide +kernel, fun s => ⟨?clc, ?sec, ?cld, ?sed, ?cli, ?sei, ?clv⟩,
    fun s hc hint => ⟨fun hnext => ?cliTick, fun hnext => ?seiTick⟩⟩
  case clc => exact next_setFlag_outcome .c false s
  case sec => exact next_setFlag_outcome .c true s
  case cld => exact next_setFlag_outcome .d false s
  case sed => exact next_setFlag_outcome .d true s
  case cli => exact next_setFlag_outcome .i false s
  case sei => exact next_setFlag_outcome .i true s
  case clv => exact next_setFlag_outcome .v false s
  case cliTick =>
    obtain ⟨t, hstep, hi, hirq, hnmi⟩ := step_setI hc hint hnext fun _ => rfl
    exact ⟨t, hstep, hi, hirq, by simp [takesInterrupt, hirq, hnmi], by simp [takesInterrupt, hi]⟩
  case seiTick =>
    obtain ⟨t, hstep, hi, -, hnmi⟩ := step_setI hc hint hnext fun _ => rfl
    obtain ⟨u, hirq, hmasked⟩ := step_masked (s := t.setCycles 0) rfl hnmi hi
    exact ⟨t, hstep, hi, takesInterrupt_of_masked (s := t.setIrq true) hnmi hi, u, hmasked true, hirq, hmasked false⟩

/-! ### NOP and the illegal bytes -/

/-- An Implied instruction whose handler does nothing changes nothing, whatever it signals: NOP's signal asks for an
extra cycle only where a page is crossed (R182). -/
theorem next_noEffect_outcome (signal : Bool) (s : State) :
    ∃ t, (.next (runInstr .imp signal (fun r => r) s) : Result) = .next t ∧ t.pc = s.pc ∧ t.cycles = s.cycles ∧
      t.bus = s.bus ∧ Frame [] [] [] s t :=
  ⟨_, rfl, rfl, rfl, rfl, ⟨⟨fun r _ => by cases r <;> rfl, fun _ _ => rfl, fun _ _ => rfl⟩, rfl, rfl, rfl⟩⟩

theorem baseCycles_of_illegal {op : Byte} (h : op ∈ illegalBytes) : baseCycles op = params.illegalBaseCycles op :=
  if_pos (List.contains_iff_mem.mpr h)

/-- An illegal byte is a one-byte ILL, whatever bytes follow (30_encoding.md R68). -/
theorem instrOf_of_illegal {op : Byte} (h : op ∈ illegalBytes) (b1 b2 : Byte) : instrOf op b1 b2 = .ill op := by
  rw [instrOf, descriptor_of_illegal op h]
  rfl

/-- The opcode fetch changes no register, no flag and no byte of memory (R70). -/
theorem beginInstr_untouched (s : State) : Untouched [] [] [] s (beginInstr s) :=
  ⟨fun r _ => by cases r <;> simp [State.reg], fun f _ => beginInstr_flag s f, fun q _ => beginInstr_peek s q⟩

/-- A tick that meets an illegal byte is the opcode fetch, with a masked request dropped (R183). -/
theorem step_illegal_outcome {s : State} (hc : s.cycles = 0) (hint : takesInterrupt s = false)
    (hill : s.answerAt 0 s.pc ∈ illegalBytes) :
    ∃ t, step s = .next t ∧ t.pc = s.pc + 1 ∧ Untouched [] [] [] s t ∧
      t.nmiPending = s.nmiPending ∧ t.irqPending = false ∧
      t.cycles = params.illegalBaseCycles (s.answerAt 0 s.pc) - 1 ∧ t.bus = [.read s.pc (s.answerAt 0 s.pc)] := by
  obtain ⟨t, hexec, hstep, hirq, hnmi⟩ := step_runs hc hint
  rw [State.nextInstr, instrOf_of_illegal hill] at hexec
  obtain ⟨t', ht', hpc, hcycles, hbus, hframe⟩ :=
    next_noEffect_outcome false (beginInstr ((s.setBus []).setIrq false))
  obtain rfl : t' = t := Host.Outcome.next.inj (ht'.symm.trans hexec)
  have hbegin := beginInstr_untouched ((s.setBus []).setIrq false)
  refine ⟨_, hstep, ?pc, ⟨fun r hr => ?reg, fun f hf => ?flag, fun q hq => ?byte⟩, ?nmi, hirq, ?cycles, ?bus⟩
  case pc => exact hpc.trans (beginInstr_pc _)
  case reg => exact (hframe.untouched.regs r hr).trans (hbegin.regs r hr)
  case flag => exact (hframe.untouched.flags f hf).trans (hbegin.flags f hf)
  case byte => exact (hframe.untouched.memory q hq).trans (hbegin.memory q hq)
  case nmi => exact hnmi.trans (Bool.or_eq_false_iff.mp hint).1.symm
  case cycles =>
    rw [countDown_cycles, hcycles, ← baseCycles_of_illegal hill]
    rfl
  case bus => exact hbus.trans (beginInstr_bus _)

/-- Settles O55: it holds. NOP and ILL have no effect of their own, so that the tick shows the opcode fetch only. -/
theorem nopAndIllegalBytesDoNothing : Obligations.NopAndIllegalBytesDoNothing :=
  ⟨by decide +kernel, fun op h => ⟨descriptor_of_illegal op h, baseCycles_of_illegal h⟩,
    fun s => next_noEffect_outcome _ s, fun _ s => next_noEffect_outcome false s, fun _ => step_illegal_outcome⟩

/-! ### The ticks after a reset -/

/-- Ticks inside a window only count down; the first starts the record of bus calls anew (R71). -/
theorem run_window {s : State} {k : Nat} (hk : 1 ≤ k) (hle : k ≤ s.cycles) :
    Host.Core.run Sys2Proof.core k s = .next { s with cycles := s.cycles - k, bus := [] } := by
  obtain ⟨j, rfl⟩ := Nat.exists_eq_add_of_le' hk
  rw [run_succ (step_idle (by omega)), run_idle rfl j (by rw [countDown_cycles, State.setBus_cycles]; omega),
    countDown_cycles, State.setBus_cycles, Nat.sub_sub, Nat.add_comm 1 j]
  rfl

/-- A run with one more step at its end. -/
theorem run_then_step {k : Nat} {s u : State} (h : Host.Core.run Sys2Proof.core k s = .next u) :
    Host.Core.run Sys2Proof.core (k + 1) s = step u := by
  induction k generalizing s with
  | zero =>
    cases h
    obtain ⟨t, ht⟩ := everyStepAnswersANextState u
    rw [run_succ ht, ht]
    rfl
  | succ k ih =>
    obtain ⟨t, ht⟩ := everyStepAnswersANextState s
    rw [run_succ ht] at h ⊢
    exact ih h

/-- The tick at a boundary that takes no interrupt reads its opcode first, at the program counter (R70). -/
theorem step_opcode {s t : State} (h : step s = .next t) (hc : s.cycles = 0) (hint : takesInterrupt s = false) :
    t.opcode = s.answerAt 0 s.pc := by
  obtain ⟨u, hexec, hstep, -⟩ := step_runs hc hint
  obtain rfl : countDown u = t := Host.Outcome.next.inj (hstep.symm.trans h)
  obtain ⟨-, -, hopcode⟩ := exec_latches hexec
  exact hopcode.trans (beginInstr_opcode _)

/-- The two vector reads of a reset come before the reads of the ticks after it (R230). -/
theorem hostReset_answerAt (s : State) (k : Nat) (q : Addr) : (hostReset s).answerAt k q = s.answerAt (2 + k) q := by
  simp [hostReset, resetFrom, State.answerAt, State.peek]

theorem hostReset_pc (s : State) : (hostReset s).pc = s.wordAnswer params.resetVector := rfl

/-- Settles O23: it holds. The countdown that reset loads is one window, at whose end no request is latched. -/
theorem resetLatencyIsIdle : Obligations.ResetLatencyIsIdle := by
  intro s
  have hidle : ∀ k, 1 ≤ k → k ≤ params.resetCycles → Host.Core.run Sys2Proof.core k (hostReset s) =
      .next { hostReset s with cycles := params.resetCycles - k, bus := [] } :=
    fun _ => run_window (s := hostReset s)
  obtain ⟨t, ht⟩ := everyStepAnswersANextState (((hostReset s).setBus []).setCycles 0)
  have hopcode := step_opcode ht rfl rfl
  have hcall := step_opcode_call ht rfl rfl
  rw [← hopcode] at hcall
  rw [State.setCycles_pc, State.setBus_pc, hostReset_pc] at hopcode hcall
  rw [State.setCycles_answerAt, State.setBus_answerAt, hostReset_answerAt] at hopcode
  exact ⟨hidle, t, (run_then_step (hidle _ (by decide) (Nat.le_refl _))).trans ht, hopcode, hcall⟩

end Sys2Proof.Machine
end

section
/-! PROOFS. Taking an interrupt and returning from one (48_system.md R180, R181, 60_exceptions.md R202 to R207). NMI,
IRQ and BRK make the same entry, from states that differ from the one before the tick in the program counter and in
what the entry does not read; RTI undoes what such an entry left, whichever of the three it was. -/

namespace Sys2Proof.Machine

/-! ### The entry -/

/-- An entry writes the stack pointer, I, B and U, and the three bytes it pushes (R204). -/
theorem interruptEntry_untouched (vec : Addr) (lat : Nat) (brk : Bool) (s : State) :
    Untouched [.sp] [.i, .b, .u] (entryBytes s) s (interruptEntry vec lat brk s) := by
  obtain ⟨ha, hx, hy, -⟩ := interruptEntry_fields vec lat brk s
  refine ⟨fun r hr => ?reg, fun f hf => ?flag, fun q hq => ?byte⟩
  case reg =>
    cases r
    case a => exact ha
    case x => exact hx
    case y => exact hy
    case sp => exact absurd (List.mem_singleton.mpr rfl) hr
  case flag =>
    obtain ⟨hi, hb, hu⟩ : f ≠ .i ∧ f ≠ .b ∧ f ≠ .u := by simpa using hf
    rw [interruptEntry_flag, decide_eq_false hi, decide_eq_false hb, decide_eq_false hu]
    rfl
  case byte =>
    obtain ⟨h0, h1, h2⟩ : q ≠ stackAddr s.sp ∧ q ≠ stackAddr (s.sp - 1) ∧ q ≠ stackAddr (s.sp - 2) := by
      simpa [entryBytes] using hq
    rw [interruptEntry_peek, if_neg h2, if_neg h1, if_neg h0]

/-- What an entry leaves, from a state that is `s` up to the program counter, `fetched`, the record of bus calls and the
request latches. The vector lies outside the stack page, so that no push reaches it. -/
theorem interruptEntry_outcome {vec : Addr} (hvec : 512 ≤ vec.toNat) (hvec' : 512 ≤ (vec + 1).toNat) (lat : Nat)
    (brk : Bool) (s : State) (ret : Addr) (fetched : Byte) (calls : List BusCall) (irq nmi : Bool) :
    EntryOutcome vec ret (if brk then statusWithBreak s.p else statusWithoutBreak s.p) s
      (interruptEntry vec lat brk
        { s with pc := ret, fetched := fetched, bus := calls, irqPending := irq, nmiPending := nmi }) := by
  generalize hr : { s with pc := ret, fetched := fetched, bus := calls, irqPending := irq, nmiPending := nmi } = r
  obtain ⟨-, -, -, hsp, -, -, -, -, hopcode, -⟩ := interruptEntry_fields vec lat brk r
  obtain ⟨hhigh, hlow, hstatus⟩ := interruptEntry_frame vec lat brk r
  have hpc := interruptEntry_pc vec lat brk r hvec hvec'
  have hflag := interruptEntry_flag vec lat brk r
  have hanswers := interruptEntry_answers vec lat brk r
  obtain ⟨hregs, hflags, hmem⟩ := interruptEntry_untouched vec lat brk r
  subst hr
  exact ⟨hhigh, hlow, hstatus, hsp, hpc, hflag .i, hflag .b, hflag .u, hopcode, hanswers, hregs, hflags, hmem⟩

/-- The countdown at the end of a tick is none of what an entry is stated by. -/
theorem EntryOutcome.countDown {vec ret : Addr} {pushed : Byte} {s t : State} (h : EntryOutcome vec ret pushed s t) :
    EntryOutcome vec ret pushed s (countDown t) :=
  ⟨h.high, h.low, h.status, h.sp, h.pc, h.i, h.b, h.u, h.opcode, h.answers,
    ⟨h.untouched.regs, h.untouched.flags, h.untouched.memory⟩⟩

/-- A tick that takes an interrupt, with the values its entry leaves in the two request latches (R202, R203, R204). -/
theorem tickEntry_outcome {vec : Addr} (hvec : 512 ≤ vec.toNat) (hvec' : 512 ≤ (vec + 1).toNat) (lat : Nat) (s : State)
    (irq nmi : Bool) {t : State}
    (ht : t = countDown (interruptEntry vec lat false (((s.setBus []).setIrq irq).setNmi nmi))) :
    EntryOutcome vec s.pc ((s.p &&& 0xEF) ||| 0x20) s t ∧ t.cycles = lat - 1 ∧ t.nmiPending = nmi ∧
      t.irqPending = irq ∧ t.fetched = s.fetched ∧ t.addrAbs = s.addrAbs ∧ t.addrRel = s.addrRel := by
  subst ht
  refine ⟨(interruptEntry_outcome hvec hvec' lat false s s.pc s.fetched [] irq nmi).countDown, ?_⟩
  simp [interruptEntry_fields]

/-- Settles O18: it holds, as the entry through the NMI vector. -/
theorem nmiIsTakenAtABoundaryWhateverIIs : Obligations.NmiIsTakenAtABoundaryWhateverIIs :=
  fun s hc hn => ⟨_, step_nmi hc hn, tickEntry_outcome (by decide) (by decide) _ s s.irqPending false rfl⟩

/-- Settles O19: it holds, as the entry through the IRQ vector. -/
theorem irqIsTakenWhenIIsClear : Obligations.IrqIsTakenWhenIIsClear := by
  intro s hc hn hq hi
  obtain ⟨hentry, hcycles, hnmi, hrest⟩ := tickEntry_outcome (vec := params.irqVector) (by decide) (by decide)
    params.irqCycles s false s.nmiPending rfl
  exact ⟨_, step_irq hc hn hq hi, hentry, hcycles, hnmi.trans hn, hrest⟩

/-! ### BRK -/

theorem exec_brk (s : State) : exec .brk s =
    .next (interruptEntry params.irqVector 0 true ((s.setFetched s.a).setPc (s.pc + 1))) :=
  congrArg Host.Outcome.next
    (runInstr_imp false (fun r => interruptEntry params.irqVector 0 true (r.setPc (r.pc + 1))) s)

/-- BRK is the entry through the IRQ vector, from the address after its signature byte, whatever I is (R180). -/
theorem exec_brk_outcome {s t : State} (h : exec .brk s = .next t) :
    EntryOutcome params.irqVector (s.pc + 1) (s.p ||| 0x30) s t := by
  rw [exec_brk, Host.Outcome.next.injEq] at h
  rw [← h]
  exact interruptEntry_outcome (by decide) (by decide) 0 true s (s.pc + 1) s.a s.bus s.irqPending s.nmiPending

/-- Settles O53: it holds. The row is read off the opcode table, and the calls are those of O16. -/
theorem brkEntersThroughTheIrqVector : Obligations.BrkEntersThroughTheIrqVector := by
  refine ⟨by decide +kernel, fun s => ?_⟩
  obtain ⟨t, h⟩ : ∃ t, exec .brk s = .next t := ⟨_, rfl⟩
  obtain ⟨-, hirq, hnmi⟩ := exec_opcode_latches h
  exact ⟨t, h, exec_brk_outcome h, exec_cycles h, hirq, hnmi, exec_bus_access h⟩

/-! ### RTI -/

theorem exec_rti (s : State) : exec .rti s = .next (interruptReturn (s.setFetched s.a)) :=
  congrArg Host.Outcome.next (runInstr_imp false interruptReturn s)

/-- RTI takes status and program counter from the three bytes above the stack pointer, the status with B and U clear
(R181). -/
theorem exec_rti_outcome {s t : State} (h : exec .rti s = .next t) :
    t.p = statusLive (s.answerAt 0 (stackAddr (s.sp + 1))) ∧
      t.pc = joinBytes (s.answerAt 2 (stackAddr (s.sp + 3))) (s.answerAt 1 (stackAddr (s.sp + 2))) ∧
      t.sp = s.sp + 3 := by
  rw [exec_rti, Host.Outcome.next.injEq] at h
  rw [← h]
  exact ⟨interruptReturn_p _, interruptReturn_pc _, interruptReturn_sp _⟩

/-- A slot above the stack pointer, as a number (10_state.md R13). -/
theorem stackAddr_add_eq_ofNat (sp k : Byte) :
    stackAddr (sp + k) = BitVec.ofNat 16 (256 + (sp.toNat + k.toNat) % 256) := by
  rw [stackAddr_eq_ofNat, BitVec.toNat_add]

/-- Settles O54: it holds. The row is read off the opcode table, and the stack offsets are numbers. -/
theorem rtiRestoresStatusAndPc : Obligations.RtiRestoresStatusAndPc := by
  refine ⟨by decide +kernel, fun s => ?_⟩
  obtain ⟨t, h⟩ : ∃ t, exec .rti s = .next t := ⟨_, rfl⟩
  obtain ⟨hp, hpc, hsp⟩ := exec_rti_outcome h
  refine ⟨t, h, ?p, ?pc, ?sp, exec_cycles h, ?frame⟩
  case p => rw [hp, stackAddr_add_eq_ofNat]; rfl
  case pc =>
    rw [hpc, joinBytes_toNat, stackAddr_add_eq_ofNat, stackAddr_add_eq_ofNat, Nat.add_comm, Nat.mul_comm]
    rfl
  case sp => rw [hsp, BitVec.toNat_add]; rfl
  case frame =>
    exact exec_frame_of_writers h (of_decide_eq_true rfl) (of_decide_eq_true rfl)
      fun q _ => exec_peek h (of_decide_eq_true rfl) q

/-! ### The return from an entry -/

/-- The copy that BRK pushes is the status but for B and U, which RTI clears (R180, R181). -/
theorem statusLive_statusWithBreak (p : Byte) : statusLive (statusWithBreak p) = statusLive p :=
  eq_of_getFlag fun f => by cases f <;> simp

/-- So is the copy that an interrupt pushes (60_exceptions.md R204). -/
theorem statusLive_statusWithoutBreak (p : Byte) : statusLive (statusWithoutBreak p) = statusLive p :=
  eq_of_getFlag fun f => by cases f <;> simp

/-- RTI undoes an entry, on the stack the entry left and with the stack pointer where the entry left it. The pushed
copy of the status may differ from the status in B and U only. -/
theorem rti_undoes_entry {vec ret : Addr} {pushed : Byte} {s t u v : State}
    (hentry : EntryOutcome vec ret pushed s t) (hpushed : statusLive pushed = statusLive s.p)
    (hsp : u.sp = t.sp) (hslots : IntactStack [stackAddr (s.sp - 2), stackAddr (s.sp - 1), stackAddr s.sp] t u)
    (hrti : exec .rti u = .next v) :
    v.pc = ret ∧ v.sp = s.sp ∧ (∀ r ∈ [Reg.a, .x, .y], t.reg r = s.reg r ∧ v.reg r = u.reg r) ∧
      (∀ f, f ∉ [.b, .u] → v.flag f = s.flag f) ∧ v.flag .b = false ∧ v.flag .u = false := by
  obtain ⟨hp, hpc, hvsp⟩ := exec_rti_outcome hrti
  have hstatusAt : u.sp + 1 = s.sp - 2 := by rw [hsp, hentry.sp]; bv_omega
  have hlowAt : u.sp + 2 = s.sp - 1 := by rw [hsp, hentry.sp]; bv_omega
  have hhighAt : u.sp + 3 = s.sp := by rw [hsp, hentry.sp, BitVec.sub_add_cancel]
  have hstatus : u.answerAt 0 (stackAddr (s.sp - 2)) = pushed := (hslots 0 _ rfl).trans hentry.status
  have hlow : u.answerAt 1 (stackAddr (s.sp - 1)) = lo8 ret := (hslots 1 _ rfl).trans hentry.low
  have hhigh : u.answerAt 2 (stackAddr s.sp) = hi8 ret := (hslots 2 _ rfl).trans hentry.high
  rw [hstatusAt, hstatus, hpushed] at hp
  rw [hhighAt, hlowAt, hhigh, hlow, joinBytes_hi8_lo8] at hpc
  have hflag : ∀ f, v.flag f = (!decide (f = .b) && !decide (f = .u) && s.flag f) := fun f => by
    rw [State.flag_eq, hp, getFlag_statusLive, State.getFlag_p]
  have hframe : ∀ r ∈ [Reg.a, .x, .y], r ∉ [Reg.sp] ∧ Mnemonic.rti ∉ regWriters r := by decide
  refine ⟨hpc, hvsp.trans hhighAt, fun r hr => ⟨?entered, ?returned⟩, fun f hf => ?flag, hflag .b, hflag .u⟩
  case entered => exact hentry.untouched.regs r (hframe r hr).1
  case returned => exact exec_reg hrti (hframe r hr).2
  case flag =>
    obtain ⟨hb, hu⟩ : f ≠ .b ∧ f ≠ .u := by simpa using hf
    rw [hflag, decide_eq_false hb, decide_eq_false hu]
    rfl

/-- A tick that takes an interrupt is an entry through one of the two vectors. -/
theorem step_entry_outcome {s t : State} (hc : s.cycles = 0) (hint : takesInterrupt s = true) (h : step s = .next t) :
    ∃ vec, EntryOutcome vec s.pc ((s.p &&& 0xEF) ||| 0x20) s t := by
  obtain ⟨hc', -⟩ | ⟨-, -, rfl⟩ | ⟨-, -, -, -, rfl⟩ | ⟨-, hn, hq, -⟩ := step_cases h
  · exact absurd hc hc'
  · exact ⟨_, (tickEntry_outcome (by decide) (by decide) _ s s.irqPending false rfl).1⟩
  · exact ⟨_, (tickEntry_outcome (by decide) (by decide) _ s false s.nmiPending rfl).1⟩
  · rw [takesInterrupt, hn, hq] at hint
    cases hint

/-- Settles O21: it holds. The three entries leave one outcome, with a status copy that differs in B and U only, and RTI
undoes it. -/
theorem entryThenReturnRestores : Obligations.EntryThenReturnRestores := by
  refine ⟨fun s t u v hc hint h hsp hslots hrti => ?interrupt, fun s t u v h hsp hslots hrti => ?brk⟩
  case interrupt =>
    obtain ⟨vec, hentry⟩ := step_entry_outcome hc hint h
    exact rti_undoes_entry hentry (statusLive_statusWithoutBreak s.p) hsp hslots hrti
  case brk => exact rti_undoes_entry (exec_brk_outcome h) (statusLive_statusWithBreak s.p) hsp hslots hrti

end Sys2Proof.Machine
end
